-- ==== Sys2Proof/Word.lean ====
section
/-!
DEFINITION. The byte and the word of the block (`00_scope.md` R5, R6): a byte has 8 bits, a word 32.
Addition and subtraction of `Word` are those of `BitVec 32`, modulo 2^32, which is `+32` and `-32` of R7.
-/

namespace Sys2Proof

/-- A byte, the unit of addressing of remote memory (R5, R50). -/
abbrev Byte := BitVec 8

/-- A 32-bit unsigned word: descriptor fields, addresses, CMD, ARG, RESULT, STATUS (R6). -/
abbrev Word := BitVec 32

end Sys2Proof
end

