-- ==== Sys2Proof/Syntax.lean ====
section
/-!
DEFINITION. The twelve commands of RBE-CMD version 1 (`30_encoding.md` R97) with the operands R94 and R95 give them, and the
command transaction that carries one (R90).
-/

namespace Sys2Proof

/-- A channel: 0 is up (target to host), 1 is down (host to target) (R20, R94). -/
inductive Channel where
  | up
  | dn
  deriving DecidableEq, Repr

/-- The field operand of RFSH and PUB: 0 is the write offset W, 1 the read offset R (R94). -/
inductive OffsetField where
  | w
  | r
  deriving DecidableEq, Repr

/-- The five words of a channel descriptor, in the order of R20 and R59. -/
inductive DescField where
  | writeOffset
  | readOffset
  | capacityMask
  | elementSize
  | bufferBase
  deriving DecidableEq, Repr

/-- The fourteen registers RDR can select (R33): ten descriptor registers and four control registers. -/
inductive Reg where
  | desc (c : Channel) (k : DescField)
  | cbAddr
  | status
  | fcmd
  | faddr
  deriving DecidableEq, Repr

/-- The twelve commands, one constructor per row of `opcode_table.json`. -/
inductive Instr where
  /-- OPEN, the control block's address in ARG (R110). -/
  | openSession (a : Word)
  /-- CLOSE (R111). -/
  | closeSession
  /-- RDR (R112). -/
  | rdr (r : Reg)
  /-- EMPTY (R120). -/
  | empty (c : Channel)
  /-- OCC (R121). -/
  | occ (c : Channel)
  /-- FREE (R122). -/
  | free (c : Channel)
  /-- FULL (R123). -/
  | full (c : Channel)
  /-- ENQ, the bytes in PAYLOAD (R131). -/
  | enq (c : Channel) (data : List Byte)
  /-- PEEK, `max_len` in ARG (R132). -/
  | peek (c : Channel) (maxLen : Word)
  /-- DEQ, `max_len` in ARG (R133). -/
  | deq (c : Channel) (maxLen : Word)
  /-- RFSH (R150). -/
  | rfsh (c : Channel) (f : OffsetField)
  /-- PUB (R151). -/
  | pub (c : Channel) (f : OffsetField)
  deriving DecidableEq, Repr

/-- A command transaction on the command port: the three parts of R90. -/
structure Command where
  cmd : Word
  arg : Word
  payload : List Byte
  deriving DecidableEq, Repr

end Sys2Proof
end

