-- ==== Sys2Proof/Decode.lean ====
section
/-!
DEFINITION. Decoding a command transaction and its inverse (`30_encoding.md` R93 to R99, R102, R103). Decoding reads no state,
is total, and rejects by name; the encoder writes the words of R97.
-/

namespace Sys2Proof

/-- Why a command word is illegal, one name per check of R98 in its order. -/
inductive DecodeError where
  /-- bits 31:12 are not zero (R98 step 1) -/
  | reservedBits
  /-- OP is none of the twelve values (R98 step 2) -/
  | unknownOp
  /-- SEL is one the format forbids (R98 step 3) -/
  | badSelector
  deriving DecidableEq, Repr

/-- The operation codes by name (R97). -/
inductive Opcode where
  | opOpen
  | opClose
  | opRdr
  | opEmpty
  | opOcc
  | opFree
  | opFull
  | opEnq
  | opPeek
  | opDeq
  | opRfsh
  | opPub
  deriving DecidableEq, Repr

/-- The formats of R94. -/
inductive Format where
  | formatN
  | formatA
  | formatX
  | formatC
  | formatL
  | formatP
  | formatF
  deriving DecidableEq, Repr

/-! ### The fields of the command word (R93) -/

/-- OP, bits 7:0. -/
def opField (w : Word) : BitVec 8 := w.extractLsb' 0 8

/-- SEL, bits 11:8. -/
def selField (w : Word) : BitVec 4 := w.extractLsb' 8 4

/-- RSV, bits 31:12. -/
def rsvField (w : Word) : BitVec 20 := w.extractLsb' 12 20

/-! ### The opcode map (R97) and the formats (R94) -/

/-- The OP value of R97. -/
def Opcode.code : Opcode → BitVec 8
  | .opOpen => 0x01
  | .opClose => 0x02
  | .opRdr => 0x03
  | .opEmpty => 0x10
  | .opOcc => 0x11
  | .opFree => 0x12
  | .opFull => 0x13
  | .opEnq => 0x20
  | .opPeek => 0x21
  | .opDeq => 0x22
  | .opRfsh => 0x30
  | .opPub => 0x31

/-- Look up an OP value in R97. -/
def opcodeOf (b : BitVec 8) : Option Opcode :=
  match b.toNat with
  | 0x01 => some .opOpen
  | 0x02 => some .opClose
  | 0x03 => some .opRdr
  | 0x10 => some .opEmpty
  | 0x11 => some .opOcc
  | 0x12 => some .opFree
  | 0x13 => some .opFull
  | 0x20 => some .opEnq
  | 0x21 => some .opPeek
  | 0x22 => some .opDeq
  | 0x30 => some .opRfsh
  | 0x31 => some .opPub
  | _ => none

/-- The format column of R97. -/
def Opcode.format : Opcode → Format
  | .opOpen => .formatA
  | .opClose => .formatN
  | .opRdr => .formatX
  | .opEmpty => .formatC
  | .opOcc => .formatC
  | .opFree => .formatC
  | .opFull => .formatC
  | .opEnq => .formatP
  | .opPeek => .formatL
  | .opDeq => .formatL
  | .opRfsh => .formatF
  | .opPub => .formatF

/-- The SEL column of R94, as R98 step 3 checks it. -/
def Format.selectorLegal : Format → BitVec 4 → Bool
  | .formatN, sel => sel == 0
  | .formatA, sel => sel == 0
  | .formatX, sel => sel.toNat ≤ 13
  | .formatC, sel => sel.extractLsb' 1 3 == 0
  | .formatL, sel => sel.extractLsb' 1 3 == 0
  | .formatP, sel => sel.extractLsb' 1 3 == 0
  | .formatF, sel => sel.extractLsb' 2 2 == 0

/-! ### Operand assembly (R95) -/

/-- `c = CMD[8] = SEL[0]`. -/
def channelOf (sel : BitVec 4) : Channel := if sel.getLsbD 0 then .dn else .up

/-- `f = CMD[9] = SEL[1]`. -/
def fieldOf (sel : BitVec 4) : OffsetField := if sel.getLsbD 1 then .r else .w

/-- The register with index `i = SEL` (R20, R33); 14 and 15 are no registers. -/
def regOf (sel : BitVec 4) : Option Reg :=
  match sel.toNat with
  | 0 => some (.desc .up .writeOffset)
  | 1 => some (.desc .up .readOffset)
  | 2 => some (.desc .up .capacityMask)
  | 3 => some (.desc .up .elementSize)
  | 4 => some (.desc .up .bufferBase)
  | 5 => some (.desc .dn .writeOffset)
  | 6 => some (.desc .dn .readOffset)
  | 7 => some (.desc .dn .capacityMask)
  | 8 => some (.desc .dn .elementSize)
  | 9 => some (.desc .dn .bufferBase)
  | 10 => some .cbAddr
  | 11 => some .status
  | 12 => some .fcmd
  | 13 => some .faddr
  | _ => none

/-- The instruction of an opcode whose selector is legal, with the operands of R95; ARG and PAYLOAD are dropped where the
format ignores them (R102). -/
def assemble (op : Opcode) (sel : BitVec 4) (arg : Word) (payload : List Byte) : Option Instr :=
  match op with
  | .opOpen => some (.openSession arg)
  | .opClose => some .closeSession
  | .opRdr => (regOf sel).map .rdr
  | .opEmpty => some (.empty (channelOf sel))
  | .opOcc => some (.occ (channelOf sel))
  | .opFree => some (.free (channelOf sel))
  | .opFull => some (.full (channelOf sel))
  | .opEnq => some (.enq (channelOf sel) payload)
  | .opPeek => some (.peek (channelOf sel) arg)
  | .opDeq => some (.deq (channelOf sel) arg)
  | .opRfsh => some (.rfsh (channelOf sel) (fieldOf sel))
  | .opPub => some (.pub (channelOf sel) (fieldOf sel))

/-- R98, its four steps in order. -/
def decode (c : Command) : Except DecodeError Instr :=
  if rsvField c.cmd != 0 then .error .reservedBits
  else
    match opcodeOf (opField c.cmd) with
    | none => .error .unknownOp
    | some op =>
      if op.format.selectorLegal (selField c.cmd) then
        match assemble op (selField c.cmd) c.arg c.payload with
        | none => .error .badSelector
        | some i => .ok i
      else .error .badSelector

/-! ### The encoder (R97, R103) -/

/-- The opcode an instruction is written with. -/
def Instr.opcode : Instr → Opcode
  | .openSession _ => .opOpen
  | .closeSession => .opClose
  | .rdr _ => .opRdr
  | .empty _ => .opEmpty
  | .occ _ => .opOcc
  | .free _ => .opFree
  | .full _ => .opFull
  | .enq _ _ => .opEnq
  | .peek _ _ => .opPeek
  | .deq _ _ => .opDeq
  | .rfsh _ _ => .opRfsh
  | .pub _ _ => .opPub

/-- The channel bit (R94). -/
def Channel.bit : Channel → BitVec 1
  | .up => 0
  | .dn => 1

/-- The field bit (R94). -/
def OffsetField.bit : OffsetField → BitVec 1
  | .w => 0
  | .r => 1

/-- The descriptor field RFSH and PUB's operand names (R94). -/
def OffsetField.desc : OffsetField → DescField
  | .w => .writeOffset
  | .r => .readOffset

/-- The position of a field in its descriptor, `k` of R59. -/
def DescField.number : DescField → Nat
  | .writeOffset => 0
  | .readOffset => 1
  | .capacityMask => 2
  | .elementSize => 3
  | .bufferBase => 4

/-- The channel number `c` of R20. -/
def Channel.number : Channel → Nat
  | .up => 0
  | .dn => 1

/-- The register index of R20 and R33: `5c + k` for a descriptor register, then 10 to 13. -/
def Reg.index : Reg → Nat
  | .desc c k => 5 * c.number + k.number
  | .cbAddr => 10
  | .status => 11
  | .fcmd => 12
  | .faddr => 13

/-- SEL of an instruction (R94). -/
def Instr.selector : Instr → BitVec 4
  | .openSession _ => 0
  | .closeSession => 0
  | .rdr r => BitVec.ofNat 4 r.index
  | .empty c => 0#3 ++ c.bit
  | .occ c => 0#3 ++ c.bit
  | .free c => 0#3 ++ c.bit
  | .full c => 0#3 ++ c.bit
  | .enq c _ => 0#3 ++ c.bit
  | .peek c _ => 0#3 ++ c.bit
  | .deq c _ => 0#3 ++ c.bit
  | .rfsh c f => 0#2 ++ f.bit ++ c.bit
  | .pub c f => 0#2 ++ f.bit ++ c.bit

/-- ARG as the assembler emits it: 0 where the format ignores it (R103). -/
def Instr.argWord : Instr → Word
  | .openSession a => a
  | .closeSession => 0
  | .rdr _ => 0
  | .empty _ => 0
  | .occ _ => 0
  | .free _ => 0
  | .full _ => 0
  | .enq _ _ => 0
  | .peek _ n => n
  | .deq _ n => n
  | .rfsh _ _ => 0
  | .pub _ _ => 0

/-- PAYLOAD as the assembler emits it: empty where the format ignores it (R103). -/
def Instr.payloadBytes : Instr → List Byte
  | .openSession _ => []
  | .closeSession => []
  | .rdr _ => []
  | .empty _ => []
  | .occ _ => []
  | .free _ => []
  | .full _ => []
  | .enq _ data => data
  | .peek _ _ => []
  | .deq _ _ => []
  | .rfsh _ _ => []
  | .pub _ _ => []

/-- The command word of an instruction (R93, R97): also what FCMD records of it (R166). -/
def Instr.cmdWord (i : Instr) : Word := 0#20 ++ i.selector ++ i.opcode.code

/-- The command transaction of an instruction. -/
def encode (i : Instr) : Command :=
  { cmd := i.cmdWord, arg := i.argWord, payload := i.payloadBytes }

/-! ### The host's reading of the opcode table -/

/-- The transaction whose bits are `w`: CMD is bits 31:0, ARG (which the table gives no bits) is bits 63:32, PAYLOAD is empty.
Bits from `nbits` on are zero. -/
def commandOfBits (nbits w : Nat) : Command :=
  { cmd := BitVec.ofNat 32 (w % 2 ^ nbits), arg := BitVec.ofNat 32 (w % 2 ^ nbits / 2 ^ 32), payload := [] }

/-- What the decoder reads from an instruction whose bits are `w`. -/
def decodeTableWord (nbits w : Nat) : Option Instr :=
  match decode (commandOfBits nbits w) with
  | .ok i => some i
  | .error _ => none

end Sys2Proof
end

