-- ==== Sys2Proof/Config.lean ====
section
/-!
DEFINITION. The parameters of the block and of the port it is attached to (`00_scope.md` R5, `93_implementation_defined.md`
U1 and U7). A machine's parameters never change; they stand in `State` as plain data (field `cfg`), so that every statement
over all states holds for every choice of them.
-/

namespace Sys2Proof

/-- What an implementation fixes. The spec's other parameters (widths, channel count, layout) have one value each (R5). -/
structure Config where
  /-- PORT_U32_ATOMIC (R5, R67, D10): `read_u32` and `write_u32` happen at one instant. Spec default: true. -/
  portU32Atomic : Bool
  /-- PORT_LIVENESS (R5, R57, D23): every port call returns or fails. Spec default: true. -/
  portLiveness : Bool
  /-- ALLOW_ILL_FORMED (`93` U1 to U3): commands on a channel that is not well-formed run by their pseudocode (true), or the
  run is stuck there (false). Both R29 and R169 give such commands their results; see log 6 for the value at reset. -/
  allowIllFormed : Bool
  /-- MAX_PAYLOAD (R5, D24): the largest ENQ payload the command port carries; `none`: any finite length. -/
  maxPayload : Option Nat
  deriving DecidableEq, Repr

/-- The parameters at `State.reset` (log 4, 5, 6, 7). DESIGN CHOICE for `allowIllFormed` and `maxPayload`. -/
def Config.initial : Config :=
  { portU32Atomic := true, portLiveness := true, allowIllFormed := true, maxPayload := none }

end Sys2Proof
end

