-- ==== Sys2Proof/Machine/State.lean ====
section
/-!
DEFINITION. The state of the block, of the remote memory and of the environment it is attached to, as plain data
(`10_state.md`, `20_memory.md` sections 1, 2, 5, `30_encoding.md` sections 1 and 3), and the state after reset (R40).
-/

namespace Sys2Proof.Machine

/-! ### Block registers -/

/-- STATUS.SESSION (R31, R38); the value 3 never occurs, so it has no inhabitant (`93` U12). -/
inductive Session where
  | idle
  | active
  | faulted
  deriving DecidableEq, Repr

/-- A port primitive, as STATUS.FPRIM names it (R31). -/
inductive Prim where
  | read
  | write
  | readU32
  | writeU32
  deriving DecidableEq, Repr

/-- The STATUS register by its fields (R31); `fprim = none` is FPRIM 0. Read-only to the host, so no reserved bit can be set. -/
structure Status where
  session : Session
  dvalid : Bool
  fprim : Option Prim
  deriving DecidableEq, Repr

/-- The five descriptor registers of one channel (R20 to R25). -/
structure Descriptor where
  writeOffset : Word
  readOffset : Word
  capacityMask : Word
  elementSize : Word
  bufferBase : Word
  deriving DecidableEq, Repr

/-- The ten descriptor registers: `x[0..4]` are `up`, `x[5..9]` are `dn` (R20). They hold values together or not at all (R27). -/
structure Descriptors where
  up : Descriptor
  dn : Descriptor
  deriving DecidableEq, Repr

/-! ### Responses (R96) -/

/-- STATUS_CODE; codes from 4 on are never returned. -/
inductive StatusCode where
  | ok
  | illegalCmd
  | badState
  | transportError
  deriving DecidableEq, Repr

/-- A response: STATUS_CODE, RESULT, PAYLOAD (R12, R90). -/
structure Response where
  code : StatusCode
  result : Word
  payload : List Byte
  deriving DecidableEq, Repr

/-! ### Remote memory, the port and the target -/

/-- Remote memory: the bytes that differ from what an unlisted address reads as, in rising address order (R50; log 9). -/
abbrev Memory := List Host.Cell

/-- One step of the target: the remote bytes it changes at one instant (R68; unconstrained, log 17). -/
structure TargetStep where
  cells : List (Word × Byte)
  deriving DecidableEq, Repr

/-- How a port call ends (R56, R57, `93` U7, U8). -/
inductive PortOutcome where
  /-- success -/
  | returns
  /-- TransportError -/
  | fails
  /-- the block is reset while the call is under way (R190) -/
  | resetInCall
  /-- the call never returns (R213); only where PORT_LIVENESS is false, otherwise it counts as `fails` (log 5) -/
  | neverReturns
  deriving DecidableEq, Repr

/-- What the environment does during one port call (R52 to R57, R66 to R68; log 2, 3). -/
structure PortPlan where
  outcome : PortOutcome
  /-- the target's steps while the call is under way, in order -/
  during : List TargetStep
  /-- byte `i` of the call is accessed after the first `instants[i]` of these steps; a missing entry is 0 -/
  instants : List Nat
  /-- for a write that does not return: whether byte `i` reached memory all the same; a missing entry is false -/
  landed : List Bool
  deriving DecidableEq, Repr

/-- A port call with its arguments (section 2 of `20_memory.md`). -/
inductive PortCall where
  | read (addr : Word) (n : Nat)
  | write (addr : Word) (data : List Byte)
  | readU32 (addr : Word)
  | writeU32 (addr : Word) (v : Word)
  deriving DecidableEq, Repr

/-- What came back from a port call. -/
inductive PortAnswer where
  | bytes (s : List Byte)
  | word (v : Word)
  | done
  | failed
  /-- the call was cut off by reset or never returned -/
  | noReturn
  deriving DecidableEq, Repr

/-- One entry of the port trace (R82). -/
structure PortEvent where
  call : PortCall
  answer : PortAnswer
  deriving DecidableEq, Repr

/-- What happens to the block, or beside it, without a command. -/
inductive EnvEvent where
  /-- the target changes remote memory (R68) -/
  | target (t : TargetStep)
  /-- the block is reset (R190) -/
  | reset
  deriving DecidableEq, Repr

/-- One input between two steps. -/
inductive Input where
  /-- the host issues a command (R90) -/
  | command (c : Command)
  | event (e : EnvEvent)
  deriving DecidableEq, Repr

/-! ### The state -/

/-- The machine's state. `x` to `inFlight` are the block's own (R20, R30 to R32, R40); the rest is what it is attached to. -/
structure State where
  /-- the parameters; no step changes them -/
  cfg : Config
  /-- the ten descriptor registers; `none`: they hold no value (R33) -/
  x : Option Descriptors
  /-- CB_ADDR (R30) -/
  cbAddr : Option Word
  /-- STATUS (R31) -/
  status : Status
  /-- FCMD (R32) -/
  fcmd : Option Word
  /-- FADDR (R32) -/
  faddr : Option Word
  /-- the command waiting in a port call that does not return (R35, R40, R213) -/
  inFlight : Option Instr
  /-- remote memory (R50) -/
  mem : Memory
  /-- what the host and the target do next, in order (log 2) -/
  inputs : List Input
  /-- what the environment does in the next port calls, one plan a call (log 2) -/
  port : List PortPlan
  /-- the port calls made, oldest first (R82) -/
  trace : List PortEvent
  /-- the responses given, oldest first (R92) -/
  responses : List Response
  deriving DecidableEq, Repr

/-- Why the machine is stuck. -/
inductive Fault where
  /-- Raised by a port call whose span, or word, runs past the top of the address space: what the port does with it is not
  specified and the run ends there (R65, D13, `93` U5; log 8). Safe: nothing is claimed beyond it. -/
  | spanCrossesTop
  /-- Raised by the query and transfer commands on a channel that is not well-formed, and only in a machine whose parameter
  ALLOW_ILL_FORMED is false (`93` U1 to U3; log 6). Safe: nothing is claimed beyond it. -/
  | illFormedChannel
  deriving DecidableEq, Repr

/-- Why there is no meaning. -/
inductive Refusal where
  /-- Raised by a dispatch arm that has no meaning yet; no arm of this model is left so. Safe. -/
  | notModelled (mnemonic : String)
  /-- Raised by the command port for an ENQ payload longer than the parameter MAX_PAYLOAD, which no host of that machine can
  present (R5, D24; log 7); never where the parameter sets no bound. Safe. -/
  | payloadAboveMax
  deriving DecidableEq, Repr

/-- The machine right after reset (R40): STATUS 0, every other register holding no value, no command in flight. Memory lists
nothing (log 9), no input is pending, no call planned, nothing logged (log 2, 14). -/
def State.reset : State :=
  { cfg := Config.initial
    x := none
    cbAddr := none
    status := { session := .idle, dvalid := false, fprim := none }
    fcmd := none
    faddr := none
    inFlight := none
    mem := []
    inputs := []
    port := []
    trace := []
    responses := [] }

end Sys2Proof.Machine
end

