-- ==== Sys2Proof/Machine/Flags.lean ====
section
/-!
DEFINITION. The derived quantities of a channel (`00_scope.md` R10), the Booleans computed from them (the block stores no
flag, `10_state.md` R36), the well-formed channel (R29), and the codes of STATUS and STATUS_CODE (R31, `30_encoding.md` R96).
-/

namespace Sys2Proof.Machine

/-! ### Derived quantities (R10), all in 32-bit modular arithmetic -/

/-- `cap(c) = M(c) +32 1`. -/
def Descriptor.cap (d : Descriptor) : Word := d.capacityMask + 1

/-- `occ(c) = W(c) -32 R(c)`. -/
def Descriptor.occ (d : Descriptor) : Word := d.writeOffset - d.readOffset

/-- `free(c) = cap(c) -32 occ(c)`. -/
def Descriptor.free (d : Descriptor) : Word := d.cap - d.occ

/-- `empty(c)`: equality of the raw counters. -/
def Descriptor.isEmpty (d : Descriptor) : Bool := d.writeOffset == d.readOffset

/-- `full(c)`: no free space. -/
def Descriptor.isFull (d : Descriptor) : Bool := d.free == 0

/-- `phys(v, c) = v & M(c)`: an offset counter masked, never the occupancy (`90_conflicts.md` C3). -/
def Descriptor.phys (d : Descriptor) (v : Word) : Word := v &&& d.capacityMask

/-- A Boolean result: 1 for true, 0 for false (R105). -/
def boolWord (b : Bool) : Word := if b then 1 else 0

/-! ### The well-formed channel (R29) -/

/-- `M(c) = 2^k - 1` for some `0 <= k <= 31`. -/
def maskLegal (m : Word) : Bool := (List.range 32).any fun k => m == BitVec.ofNat 32 (2 ^ k - 1)

/-- `WF(c)`; no command's result depends on it unless ALLOW_ILL_FORMED is false (R29, `93` U1). -/
def Descriptor.wellFormed (d : Descriptor) : Bool := maskLegal d.capacityMask && d.occ.toNat ≤ d.cap.toNat

/-! ### Codes -/

/-- STATUS.SESSION (R31). -/
def Session.code : Session → Nat
  | .idle => 0
  | .active => 1
  | .faulted => 2

/-- STATUS.FPRIM (R31). -/
def fprimCode : Option Prim → Nat
  | none => 0
  | some .read => 1
  | some .write => 2
  | some .readU32 => 3
  | some .writeU32 => 4

/-- The STATUS register as a word: SESSION in 1:0, DVALID in 2, FPRIM in 5:3, zero above (R31). -/
def Status.word (t : Status) : Word :=
  BitVec.ofNat 32 (t.session.code + 4 * t.dvalid.toNat + 8 * fprimCode t.fprim)

/-- STATUS_CODE as a word (R96). -/
def StatusCode.word : StatusCode → Word
  | .ok => 0
  | .illegalCmd => 1
  | .badState => 2
  | .transportError => 3

end Sys2Proof.Machine
end

