-- ==== Sys2Proof/Machine/Operands.lean ====
section
/-!
DEFINITION. Operand forms: byte order (`00_scope.md` R8, `20_memory.md` R62), the descriptor registers by channel and field
(`10_state.md` R9, R20), field addresses (`20_memory.md` R59), the decode of OPEN's span (R110) and the copy geometry
(`42_transfer.md` R130).
-/

namespace Sys2Proof.Machine

/-! ### Byte order -/

/-- `le32(b0, b1, b2, b3)`: the least significant byte first (R8). -/
def le32 (b0 b1 b2 b3 : Byte) : Word := b3 ++ b2 ++ b1 ++ b0

/-- `bytes_le32(v)` (R8). -/
def bytesLe32 (v : Word) : List Byte :=
  [v.extractLsb' 0 8, v.extractLsb' 8 8, v.extractLsb' 16 8, v.extractLsb' 24 8]

/-! ### Descriptor registers -/

/-- One register of a channel. -/
def Descriptor.get (d : Descriptor) : DescField → Word
  | .writeOffset => d.writeOffset
  | .readOffset => d.readOffset
  | .capacityMask => d.capacityMask
  | .elementSize => d.elementSize
  | .bufferBase => d.bufferBase

/-- The offset registers, the only ones a command writes singly (R28). -/
def Descriptor.setOffset (d : Descriptor) (v : Word) : OffsetField → Descriptor
  | .w => { d with writeOffset := v }
  | .r => { d with readOffset := v }

/-- The registers of channel `c`. -/
def Descriptors.chan (x : Descriptors) : Channel → Descriptor
  | .up => x.up
  | .dn => x.dn

/-- Replace the registers of channel `c`. -/
def Descriptors.setChan (x : Descriptors) (d : Descriptor) : Channel → Descriptors
  | .up => { x with up := d }
  | .dn => { x with dn := d }

/-- `x[5c + f] <- v`. -/
def Descriptors.setOffset (x : Descriptors) (c : Channel) (f : OffsetField) (v : Word) : Descriptors :=
  x.setChan ((x.chan c).setOffset v f) c

/-! ### Addresses -/

/-- `FA(c, k) = CB_ADDR +32 (16 + 20c + 4k)` (R59). -/
def fieldAddr (cb : Word) (c : Channel) (k : DescField) : Word :=
  cb + BitVec.ofNat 32 (16 + 20 * c.number + 4 * k.number)

/-- The address of OPEN's span, `ARG +32 16` (R110). -/
def descriptorsAddr (a : Word) : Word := a + 16

/-! ### The decode of the control block (R110) -/

/-- Word `i` of a span: `le32(s[4i], s[4i+1], s[4i+2], s[4i+3])`. -/
def spanWord (s : List Byte) (i : Nat) : Word :=
  le32 (s.getD (4 * i) 0) (s.getD (4 * i + 1) 0) (s.getD (4 * i + 2) 0) (s.getD (4 * i + 3) 0)

/-- The five words from word `i` on, in the order of R20. -/
def descriptorOfSpan (s : List Byte) (i : Nat) : Descriptor :=
  { writeOffset := spanWord s i
    readOffset := spanWord s (i + 1)
    capacityMask := spanWord s (i + 2)
    elementSize := spanWord s (i + 3)
    bufferBase := spanWord s (i + 4) }

/-- Words 0 to 4 are the up-channel, words 5 to 9 the down-channel. -/
def descriptorsOfSpan (s : List Byte) : Descriptors :=
  { up := descriptorOfSpan s 0, dn := descriptorOfSpan s 5 }

/-! ### Copy geometry (R130) -/

/-- The two segments of a copy: `first` bytes at `addr1 = B +32 p`, then `rest` bytes at `addr2 = B`. -/
structure Segments where
  addr1 : Word
  first : Nat
  addr2 : Word
  rest : Nat
  deriving DecidableEq, Repr

/-- Where `n` bytes from counter value `v` on lie: split at the buffer's physical end. -/
def Descriptor.segments (d : Descriptor) (v : Word) (n : Nat) : Segments :=
  let p := d.phys v
  let first := min n (d.cap - p).toNat
  { addr1 := d.bufferBase + p, first := first, addr2 := d.bufferBase, rest := n - first }

/-- The remote address of byte `j` of a copy (R130). -/
def Segments.byteAddr (g : Segments) (j : Nat) : Nat :=
  if j < g.first then g.addr1.toNat + j else g.addr2.toNat + (j - g.first)

end Sys2Proof.Machine
end

