-- ==== Sys2Proof/WellFormed.lean ====
section
/-!
DEFINITION. Which instructions a command port with the given parameters can carry. The operands' types already exclude every
selector R94 forbids; what is left to check is the length of an ENQ payload against MAX_PAYLOAD (R5, R95).
-/

namespace Sys2Proof

/-- A payload fits the command port (R5, D24); with no bound set, any finite length does. -/
def Config.carries (cfg : Config) (payload : List Byte) : Bool :=
  match cfg.maxPayload with
  | none => true
  | some n => payload.length ≤ n

/-- An instruction the command port can carry. -/
def Instr.wellFormed (cfg : Config) : Instr → Bool
  | .openSession _ => true
  | .closeSession => true
  | .rdr _ => true
  | .empty _ => true
  | .occ _ => true
  | .free _ => true
  | .full _ => true
  | .enq _ data => cfg.carries data
  | .peek _ _ => true
  | .deq _ _ => true
  | .rfsh _ _ => true
  | .pub _ _ => true

end Sys2Proof
end

