-- ==== Sys2Proof/Machine/Ops.lean ====
section
/-!
DEFINITION. The shared operations: remote memory, the four port primitives with what the environment does inside them
(`20_memory.md` sections 2 and 5), responses and refusals (`30_encoding.md` R96, `60_exceptions.md` R163, R164), the entry of a
TransportError (R166) and the ways out of it (R172, R190), reading a register (`40_session.md` R112), and taking the next
input from the command port (`30_encoding.md` R91).
-/

namespace Sys2Proof.Machine

/-! ### Remote memory -/

/-- What a byte that is not listed reads as. DESIGN CHOICE (log 9): the spec leaves the contents to the target (R40). -/
def Memory.unlisted : Byte := 0

/-- The byte at an address. -/
def Memory.read : Memory → Nat → Byte
  | [], _ => Memory.unlisted
  | (k, v) :: m, a => if a = k then v else Memory.read m a

/-- Change one byte, keeping the list sorted and free of entries equal to what an unlisted byte reads as. -/
def Memory.write : Memory → Nat → Byte → Memory
  | [], a, b => if b = Memory.unlisted then [] else [(a, b)]
  | (k, v) :: m, a, b =>
    if a < k then (if b = Memory.unlisted then (k, v) :: m else (a, b) :: (k, v) :: m)
    else if a = k then (if b = Memory.unlisted then m else (a, b) :: m)
    else (k, v) :: Memory.write m a b

/-- The canonical form: addresses strictly rising and below 2^32, no entry equal to what an unlisted byte reads as. -/
abbrev Memory.wf (m : Memory) : Prop :=
  m.Pairwise (fun c d => c.1 < d.1) ∧ ∀ c ∈ m, c.1 < 2 ^ 32 ∧ c.2 ≠ Memory.unlisted

/-- A step of the target: all its bytes change at one instant (R68). -/
def TargetStep.apply (t : TargetStep) (m : Memory) : Memory :=
  t.cells.foldl (fun m c => Memory.write m c.1.toNat c.2) m

/-- The target's steps one after another. -/
def applySteps (ts : List TargetStep) (m : Memory) : Memory := ts.foldl (fun m t => t.apply m) m

/-! ### What the environment does during a port call -/

/-- A call that succeeds while the target is silent: what an exhausted list of plans stands for (log 2). -/
def PortPlan.quiet : PortPlan := { outcome := .returns, during := [], instants := [], landed := [] }

/-- How the call ends on a machine with these parameters (R57, `93` U7). -/
def PortPlan.verdict (p : PortPlan) (cfg : Config) : PortOutcome :=
  match p.outcome with
  | .returns => .returns
  | .fails => .fails
  | .resetInCall => .resetInCall
  | .neverReturns => if cfg.portLiveness then .fails else .neverReturns

/-- Memory after the first `k` of the target's steps in this call. -/
def PortPlan.memAt (p : PortPlan) (m : Memory) (k : Nat) : Memory := applySteps (p.during.take k) m

/-- The instant of byte `i`: its own in a span (R66), the same for all bytes of an atomic word access (R67). -/
def PortPlan.instantOf (p : PortPlan) (atomic : Bool) (i : Nat) : Nat :=
  p.instants.getD (if atomic then 0 else i) 0

/-- Whether byte `i` of a write that did not return reached memory: each on its own (R53), all or none for an atomic word (R55). -/
def PortPlan.landedAt (p : PortPlan) (atomic : Bool) (i : Nat) : Bool :=
  p.landed.getD (if atomic then 0 else i) false

/-- A byte written by a port call, with the instant at which it reaches memory. -/
structure TimedByte where
  instant : Nat
  addr : Nat
  byte : Byte
  deriving DecidableEq, Repr

/-- The bytes from address `a` (byte number `i`) on that reach memory, each at its instant. -/
def timedBytes (instantOf : Nat → Nat) (lands : Nat → Bool) : Nat → Nat → List Byte → List TimedByte
  | _, _, [] => []
  | a, i, b :: bs =>
    if lands i then { instant := instantOf i, addr := a, byte := b } :: timedBytes instantOf lands (a + 1) (i + 1) bs
    else timedBytes instantOf lands (a + 1) (i + 1) bs

/-- Write bytes in order. -/
def writeTimed (ws : List TimedByte) (m : Memory) : Memory := ws.foldl (fun m w => Memory.write m w.addr w.byte) m

/-- Memory after a call: the target's steps in order, and after the `k`-th of them the bytes whose instant it is; an instant
past the last step is the last. -/
def weave (ws : List TimedByte) : List TargetStep → Nat → Memory → Memory
  | [], k, m => writeTimed (ws.filter fun w => k ≤ w.instant) m
  | t :: ts, k, m => weave ws ts (k + 1) (t.apply (writeTimed (ws.filter fun w => w.instant == k) m))

/-! ### Port calls -/

/-- The primitive of a call, as FPRIM records it. -/
def PortCall.prim : PortCall → Prim
  | .read _ _ => .read
  | .write _ _ => .write
  | .readU32 _ => .readU32
  | .writeU32 _ _ => .writeU32

/-- The address argument of a call, as FADDR records it (R167). -/
def PortCall.addr : PortCall → Word
  | .read a _ => a
  | .write a _ => a
  | .readU32 a => a
  | .writeU32 a _ => a

/-- How many remote locations a call touches. -/
def PortCall.length : PortCall → Nat
  | .read _ n => n
  | .write _ data => data.length
  | .readU32 _ => 4
  | .writeU32 _ _ => 4

/-- The bytes a call stores; a read stores none (R79). -/
def PortCall.stored : PortCall → List Byte
  | .read _ _ => []
  | .write _ data => data
  | .readU32 _ => []
  | .writeU32 _ v => bytesLe32 v

/-- Whether the call is a single-copy atomic access (R66, R67). -/
def PortCall.atomic (cfg : Config) : PortCall → Bool
  | .read _ _ => false
  | .write _ _ => false
  | .readU32 _ => cfg.portU32Atomic
  | .writeU32 _ _ => cfg.portU32Atomic

/-- The call runs past the top of the address space (R65, `93` U5; log 8). -/
def PortCall.crossesTop (c : PortCall) : Bool := 2 ^ 32 < c.addr.toNat + c.length

/-- What the environment does in the next port call. -/
def State.plan (s : State) : PortPlan := s.port.headD PortPlan.quiet

/-- The `n` bytes a span read starting at `addr` returns: byte `i` is the content of `addr + i` at its instant (R52, R66). -/
def State.bytesSeen (s : State) (addr : Word) (n : Nat) : List Byte :=
  (List.range n).map fun i => (s.plan.memAt s.mem (s.plan.instantOf false i)).read (addr.toNat + i)

/-- One byte of the word a `read_u32` at `addr` returns. -/
def State.wordByteSeen (s : State) (addr : Word) (i : Nat) : Byte :=
  (s.plan.memAt s.mem (s.plan.instantOf s.cfg.portU32Atomic i)).read (addr.toNat + i)

/-- The word a `read_u32` at `addr` returns (R54). -/
def State.wordSeen (s : State) (addr : Word) : Word :=
  le32 (s.wordByteSeen addr 0) (s.wordByteSeen addr 1) (s.wordByteSeen addr 2) (s.wordByteSeen addr 3)

/-- The bytes a call stores, each at its instant: all of them if the call returned (R53, R55), else those that landed. -/
def State.timedWrites (s : State) (c : PortCall) (whole : Bool) : List TimedByte :=
  timedBytes (s.plan.instantOf (c.atomic s.cfg)) (fun i => whole || s.plan.landedAt (c.atomic s.cfg) i) c.addr.toNat 0 c.stored

/-- Remote memory after a call. -/
def State.memAfter (s : State) (c : PortCall) (whole : Bool) : Memory :=
  weave (s.timedWrites c whole) s.plan.during 0 s.mem

/-- The state after a call: memory, the plan used up, the call recorded (R82). No register changes. -/
def State.afterCall (s : State) (c : PortCall) (whole : Bool) (ans : PortAnswer) : State :=
  { s with mem := s.memAfter c whole, port := s.port.tail, trace := s.trace ++ [{ call := c, answer := ans }] }

/-- How a port call, or a sequence of them, ends. -/
inductive Call (α : Type) where
  /-- all calls returned -/
  | returned (a : α) (s : State)
  /-- a call failed: TransportError(prim, addr) -/
  | failed (prim : Prim) (addr : Word) (s : State)
  /-- the block was reset in a call -/
  | cutByReset (s : State)
  /-- a call does not return -/
  | hung (s : State)
  /-- the spec gives no behaviour -/
  | stuck (r : Fault)
  deriving DecidableEq, Repr

/-- Go on after a call that returned; after any other end no further call is made (R166). -/
def Call.bind {α β : Type} (c : Call α) (k : α → State → Call β) : Call β :=
  match c with
  | .returned a s => k a s
  | .failed prim addr s => .failed prim addr s
  | .cutByReset s => .cutByReset s
  | .hung s => .hung s
  | .stuck r => .stuck r

/-- One port call that answers `ans` and gives `v` if it returns (R52 to R57). -/
def portCall {α : Type} (c : PortCall) (ans : PortAnswer) (v : α) (s : State) : Call α :=
  if c.crossesTop then .stuck .spanCrossesTop
  else
    match s.plan.verdict s.cfg with
    | .returns => .returned v (s.afterCall c true ans)
    | .fails => .failed c.prim c.addr (s.afterCall c false .failed)
    | .resetInCall => .cutByReset (s.afterCall c false .noReturn)
    | .neverReturns => .hung (s.afterCall c false .noReturn)

/-- `PortRead(addr, n)` (R52). -/
def portRead (addr : Word) (n : Nat) (s : State) : Call (List Byte) :=
  portCall (.read addr n) (.bytes (s.bytesSeen addr n)) (s.bytesSeen addr n) s

/-- `PortWrite(addr, data)` (R53). -/
def portWrite (addr : Word) (data : List Byte) (s : State) : Call Unit :=
  portCall (.write addr data) .done () s

/-- `PortRead32(addr)` (R54). -/
def portReadU32 (addr : Word) (s : State) : Call Word :=
  portCall (.readU32 addr) (.word (s.wordSeen addr)) (s.wordSeen addr) s

/-- `PortWrite32(addr, v)` (R55). -/
def portWriteU32 (addr v : Word) (s : State) : Call Unit :=
  portCall (.writeU32 addr v) .done () s

/-- `MemRead(addr, n)`: no port call for a segment of length 0 (R11, R60). -/
def memRead (addr : Word) (n : Nat) (s : State) : Call (List Byte) :=
  if n = 0 then .returned [] s else portRead addr n s

/-- `MemWrite(addr, len(data), data)`: no port call for a segment of length 0 (R11, R60). -/
def memWrite (addr : Word) (data : List Byte) (s : State) : Call Unit :=
  if data.length = 0 then .returned () s else portWrite addr data s

/-- Copy-in: segment 1 first, the wrap segment second (R61, R130). -/
def copyIn (g : Segments) (data : List Byte) (s : State) : Call Unit :=
  (memWrite g.addr1 (data.take g.first) s).bind fun _ t => memWrite g.addr2 ((data.drop g.first).take g.rest) t

/-- Copy-out: segment 1 first, the wrap segment second (R61, R130). -/
def copyOut (g : Segments) (s : State) : Call (List Byte) :=
  (memRead g.addr1 g.first s).bind fun s1 t => (memRead g.addr2 g.rest t).bind fun s2 u => .returned (s1 ++ s2) u

/-! ### Responses -/

/-- `respond(code, result, payload)` (R12). -/
def State.respond (s : State) (code : StatusCode) (result : Word) (payload : List Byte) : State :=
  { s with responses := s.responses ++ [{ code := code, result := result, payload := payload }] }

/-- `respond OK(v, payload)`: the command is complete. -/
def State.respondOk (s : State) (v : Word) (payload : List Byte) : Host.Outcome State Fault Refusal :=
  .next (s.respond .ok v payload)

/-- `refuse BAD_STATE` (R164): RESULT is the STATUS word, nothing else changes. -/
def State.refuseBadState (s : State) : Host.Outcome State Fault Refusal :=
  .next (s.respond .badState s.status.word [])

/-- `refuse ILLEGAL_CMD` (R163): nothing else changes. -/
def State.refuseIllegal (s : State) : Host.Outcome State Fault Refusal :=
  .next (s.respond .illegalCmd 0 [])

/-! ### TransportError: entry, return, reset -/

/-- The entry of a TransportError raised by command word `k` (R166). DVALID and the descriptor registers keep their values. -/
def State.raiseTransportError (s : State) (k : Word) (prim : Prim) (addr : Word) : State :=
  State.respond
    { s with
      status := { s.status with session := .faulted, fprim := some prim }
      fcmd := some k
      faddr := some addr } .transportError addr []

/-- Discard all cached state (R111): the return from Faulted (R172). -/
def State.discard (s : State) : State :=
  { s with
    x := none
    cbAddr := none
    status := { session := .idle, dvalid := false, fprim := none }
    fcmd := none
    faddr := none }

/-- Reset (R190): every register as in R40, a command in flight abandoned without a response, remote memory untouched. The
inputs, the plans and the logs are not the block's and stay (log 14). -/
def State.resetBlock (s : State) : State := { s.discard with inFlight := none }

/-- The command a port call belongs to ends: with its own effect, in a TransportError (R166), by reset (R190), waiting for ever
(R213), or stuck. -/
def Call.finish {α : Type} (i : Instr) (c : Call α) (k : α → State → Host.Outcome State Fault Refusal) :
    Host.Outcome State Fault Refusal :=
  match c with
  | .returned a s => k a s
  | .failed prim addr s => .next (s.raiseTransportError i.cmdWord prim addr)
  | .cutByReset s => .next s.resetBlock
  | .hung s => .next { s with inFlight := some i }
  | .stuck r => .fault r

/-! ### Registers and the session's checks -/

/-- The value RDR reads from a register, if the state lets it be read (R112, R164). -/
def State.readReg (s : State) : Reg → Option Word
  | .desc c k => if s.status.dvalid then s.x.map fun x => (x.chan c).get k else none
  | .cbAddr => if s.status.session = .idle then none else s.cbAddr
  | .status => some s.status.word
  | .fcmd => if s.status.session = .faulted then s.fcmd else none
  | .faddr => if s.status.session = .faulted then s.faddr else none

/-- Run in Active only, on the descriptor registers; BAD_STATE otherwise (R164), and where a register holds no value (R33; log 11). -/
def State.whenActive (s : State) (k : Descriptors → Host.Outcome State Fault Refusal) : Host.Outcome State Fault Refusal :=
  if s.status.session = .active then
    match s.x with
    | some x => k x
    | none => s.refuseBadState
  else s.refuseBadState

/-- `whenActive` for the query and transfer commands on channel `c`: stuck on a channel that is not well-formed if
ALLOW_ILL_FORMED is false (`93` U1 to U3; log 6). -/
def State.whenChannel (s : State) (c : Channel) (k : Descriptors → Descriptor → Host.Outcome State Fault Refusal) :
    Host.Outcome State Fault Refusal :=
  s.whenActive fun x =>
    if s.cfg.allowIllFormed || (x.chan c).wellFormed then k x (x.chan c) else .fault .illFormedChannel

/-- `whenActive` for RFSH and PUB, which use CB_ADDR (R30). -/
def State.whenSync (s : State) (k : Word → Descriptors → Host.Outcome State Fault Refusal) :
    Host.Outcome State Fault Refusal :=
  s.whenActive fun x =>
    match s.cbAddr with
    | some cb => k cb x
    | none => s.refuseBadState

/-- `x[5c + f] <- v`, where the registers hold values. -/
def State.setOffset (s : State) (c : Channel) (f : OffsetField) (v : Word) : State :=
  { s with x := s.x.map fun x => x.setOffset c f v }

/-! ### Taking the next input -/

/-- What an event does: the target changes memory, or the block is reset. -/
def State.environment (s : State) : EnvEvent → State
  | .target t => { s with mem := t.apply s.mem }
  | .reset => s.resetBlock

/-- The first event that is not a command, with the inputs left; commands wait in their order. -/
def takeEvent : List Input → Option (EnvEvent × List Input)
  | [] => none
  | .command c :: rest =>
    match takeEvent rest with
    | none => none
    | some (e, left) => some (e, .command c :: left)
  | .event e :: rest => some (e, rest)

/-- While a command waits in a port call that never returns, no command is accepted (R91, R213); the target goes on, and reset
recovers (R190). -/
def State.waitInCall (s : State) : State :=
  match takeEvent s.inputs with
  | none => s
  | some (e, left) => State.environment { s with inputs := left } e

/-- What the next step has to do: something without an instruction, or to run an instruction. -/
inductive Fetched where
  | settled (o : Host.Outcome State Fault Refusal)
  | run (i : Instr) (s : State)

/-- Accept a command (R91): an illegal word is refused before any other check (R163, R171). -/
def State.accept (s : State) (c : Command) : Fetched :=
  match decode c with
  | .error _ => .settled s.refuseIllegal
  | .ok i => if i.wellFormed s.cfg then .run i s else .settled (.refused .payloadAboveMax)

/-- Take the next input. With none the block waits, unchanged (R170, R181). -/
def State.fetch (s : State) : Fetched :=
  match s.inFlight with
  | some _ => .settled (.next s.waitInCall)
  | none =>
    match s.inputs with
    | [] => .settled (.next s)
    | .command c :: rest => State.accept { s with inputs := rest } c
    | .event e :: rest => .settled (.next (State.environment { s with inputs := rest } e))

end Sys2Proof.Machine
end

