-- ==== Sys2Proof/Machine/QueryCommands.lean ====
section
/-!
DEFINITION. EMPTY, OCC, FREE, FULL (`41_queries.md` R120 to R123): pure functions of the cached registers of one channel.
-/

namespace Sys2Proof.Machine

/-- EMPTY (R120). -/
def execEmpty (c : Channel) (s : State) : Host.Outcome State Fault Refusal :=
  s.whenChannel c fun _ d => s.respondOk (boolWord d.isEmpty) []

/-- OCC (R121): no clamp. -/
def execOcc (c : Channel) (s : State) : Host.Outcome State Fault Refusal :=
  s.whenChannel c fun _ d => s.respondOk d.occ []

/-- FREE (R122). -/
def execFree (c : Channel) (s : State) : Host.Outcome State Fault Refusal :=
  s.whenChannel c fun _ d => s.respondOk d.free []

/-- FULL (R123). -/
def execFull (c : Channel) (s : State) : Host.Outcome State Fault Refusal :=
  s.whenChannel c fun _ d => s.respondOk (boolWord d.isFull) []

end Sys2Proof.Machine
end

