-- ==== Sys2Proof/Machine/SessionCommands.lean ====
section
/-!
DEFINITION. OPEN, CLOSE, RDR (`40_session.md` R110 to R112).
-/

namespace Sys2Proof.Machine

/-- OPEN (R110): CB_ADDR takes the address before the port call; the tag is not read and no value is checked. -/
def execOpen (a : Word) (s : State) : Host.Outcome State Fault Refusal :=
  if s.status.session = .idle then
    (portRead (descriptorsAddr a) 40 { s with cbAddr := some a }).finish (.openSession a) fun span t =>
      State.respondOk
        { t with
          x := some (descriptorsOfSpan span)
          status := { t.status with session := .active, dvalid := true } } 0 []
  else s.refuseBadState

/-- CLOSE (R111): accepted in every state; makes no port call, publishes nothing. -/
def execClose (s : State) : Host.Outcome State Fault Refusal := s.discard.respondOk 0 []

/-- RDR (R112): the cached register, never remote memory. -/
def execRdr (r : Reg) (s : State) : Host.Outcome State Fault Refusal :=
  match s.readReg r with
  | some v => s.respondOk v []
  | none => s.refuseBadState

end Sys2Proof.Machine
end

