-- ==== Sys2Proof/Machine/SyncCommands.lean ====
section
/-!
DEFINITION. RFSH and PUB (`43_offset_sync.md` R150, R151): one offset word between its register and the control block.
-/

namespace Sys2Proof.Machine

/-- RFSH (R150): the value read replaces the register, whatever it is. -/
def execRfsh (c : Channel) (f : OffsetField) (s : State) : Host.Outcome State Fault Refusal :=
  s.whenSync fun cb _ =>
    (portReadU32 (fieldAddr cb c f.desc) s).finish (.rfsh c f) fun v t => (t.setOffset c f v).respondOk v []

/-- PUB (R151): the register's value to its word; no register is written. -/
def execPub (c : Channel) (f : OffsetField) (s : State) : Host.Outcome State Fault Refusal :=
  s.whenSync fun cb x =>
    (portWriteU32 (fieldAddr cb c f.desc) ((x.chan c).get f.desc) s).finish (.pub c f) fun _ t =>
      t.respondOk ((x.chan c).get f.desc) []

end Sys2Proof.Machine
end

