-- ==== Sys2Proof/Machine/TransferCommands.lean ====
section
/-!
DEFINITION. ENQ, PEEK, DEQ (`42_transfer.md` R131 to R133).
-/

namespace Sys2Proof.Machine

/-- How many bytes ENQ writes: truncated to the free space of the snapshot (R131). -/
def enqCount (d : Descriptor) (data : List Byte) : Nat := min data.length d.free.toNat

/-- How many bytes PEEK and DEQ return: clamped to the occupancy of the snapshot (R132). -/
def peekCount (d : Descriptor) (maxLen : Word) : Nat := min maxLen.toNat d.occ.toNat

/-- ENQ (R131): W(c) advances only after every port call has returned. -/
def execEnq (c : Channel) (data : List Byte) (s : State) : Host.Outcome State Fault Refusal :=
  s.whenChannel c fun _ d =>
    (copyIn (d.segments d.writeOffset (enqCount d data)) (data.take (enqCount d data)) s).finish (.enq c data) fun _ t =>
      State.respondOk (t.setOffset c .w (d.writeOffset + BitVec.ofNat 32 (enqCount d data)))
        (BitVec.ofNat 32 (enqCount d data)) []

/-- PEEK (R132): writes no register. -/
def execPeek (c : Channel) (maxLen : Word) (s : State) : Host.Outcome State Fault Refusal :=
  s.whenChannel c fun _ d =>
    (copyOut (d.segments d.readOffset (peekCount d maxLen)) s).finish (.peek c maxLen) fun bytes t =>
      t.respondOk (BitVec.ofNat 32 (peekCount d maxLen)) bytes

/-- DEQ (R133): the port calls of PEEK; R(c) advances after they have returned. -/
def execDeq (c : Channel) (maxLen : Word) (s : State) : Host.Outcome State Fault Refusal :=
  s.whenChannel c fun _ d =>
    (copyOut (d.segments d.readOffset (peekCount d maxLen)) s).finish (.deq c maxLen) fun bytes t =>
      State.respondOk (t.setOffset c .r (d.readOffset + BitVec.ofNat 32 (peekCount d maxLen)))
        (BitVec.ofNat 32 (peekCount d maxLen)) bytes

end Sys2Proof.Machine
end

