-- ==== Sys2Proof/Machine/Dispatch.lean ====
section
/-!
DEFINITION. One arm per command: the meaning of each.
-/

namespace Sys2Proof.Machine

/-- The meaning of an instruction: from the state in which it is accepted to the state in which it has responded. -/
def exec (i : Instr) (s : State) : Host.Outcome State Fault Refusal :=
  match i with
  | .openSession a => Sys2Proof.Machine.execOpen a s
  | .closeSession => Sys2Proof.Machine.execClose s
  | .rdr r => Sys2Proof.Machine.execRdr r s
  | .empty c => Sys2Proof.Machine.execEmpty c s
  | .occ c => Sys2Proof.Machine.execOcc c s
  | .free c => Sys2Proof.Machine.execFree c s
  | .full c => Sys2Proof.Machine.execFull c s
  | .enq c data => Sys2Proof.Machine.execEnq c data s
  | .peek c maxLen => Sys2Proof.Machine.execPeek c maxLen s
  | .deq c maxLen => Sys2Proof.Machine.execDeq c maxLen s
  | .rfsh c f => Sys2Proof.Machine.execRfsh c f s
  | .pub c f => Sys2Proof.Machine.execPub c f s

end Sys2Proof.Machine
end

