-- ==== Sys2Proof/Machine/Step.lean ====
section
/-!
DEFINITION. One step: take the next input and, if it is a command, run it to its response (`10_state.md` R34, R35).
-/

namespace Sys2Proof.Machine

/-- One step of the machine. -/
def step (s : State) : Host.Outcome State Fault Refusal :=
  match s.fetch with
  | .settled o => o
  | .run i t => exec i t

/-- `s` with the command of the bits `w` as the next input; it stands for the host's issuing it (R90; log 16), which
a command still in flight would not let it do (R91). -/
def State.withFetchWord (s : State) (nbits w : Nat) : State :=
  { s with inFlight := none, inputs := .command (commandOfBits nbits w) :: s.inputs }

end Sys2Proof.Machine
end

