-- ==== Sys2Proof/Machine/Pseudo.lean ====
section
/-!
DEFINITION. What the host's software makes of the twelve commands: the pseudo-instructions of `30_encoding.md` R104, the tick of
`70_reset_and_hazards.md` R196 to R199, and the assembler's text (R103). No block state is involved: the block has no branch, so
a condition is taken by the host on the RESULT of a response.
-/

namespace Sys2Proof.Machine

/-- One move of the host: a command, and the commands it issues next if that command answered OK with RESULT 0 (R104). -/
structure HostMove where
  ask : Instr
  ifZero : List Instr
  deriving DecidableEq, Repr

/-- A command whose answer decides nothing. -/
def HostMove.plain (i : Instr) : HostMove := { ask := i, ifZero := [] }

/-- `STAT`. -/
def pseudoStat : List HostMove := [.plain (.rdr .status)]

/-- `PEEKALL ch`. -/
def pseudoPeekAll (c : Channel) : List HostMove := [.plain (.peek c 0xFFFFFFFF)]

/-- `DRAIN ch`. -/
def pseudoDrain (c : Channel) : List HostMove := [.plain (.deq c 0xFFFFFFFF)]

/-- `REFRESH`: the two fields the target owns (R197). -/
def pseudoRefresh : List HostMove := [.plain (.rfsh .up .w), .plain (.rfsh .dn .r)]

/-- `DRAINPUB`: if the up-channel is not empty, drain, then publish (R198). -/
def pseudoDrainPub : List HostMove := [{ ask := .empty .up, ifZero := [.deq .up 0xFFFFFFFF, .pub .up .r] }]

/-- `SEND bytes`: if the down-channel is not full, enqueue, then publish; otherwise the request is rejected (R199). -/
def pseudoSend (data : List Byte) : List HostMove := [{ ask := .full .dn, ifZero := [.enq .dn data, .pub .dn .w] }]

/-- `TICK`: refresh, drain and publish, then send and publish if a send is pending (R196). -/
def pseudoTick (pending : Option (List Byte)) : List HostMove :=
  pseudoRefresh ++ pseudoDrainPub ++
    match pending with
    | none => []
    | some data => pseudoSend data

/-- The response to the command that led from `s` to `t`; none if it was cut off by reset or waits in a port call. -/
def State.answerIn (s t : State) : Option Response := (t.responses.drop s.responses.length).head?

/-- How a host's program goes on: where the program has reached, and whether it has stopped there. -/
inductive Progress where
  | goesOn (s : State)
  | stops (o : Host.Outcome State Fault Refusal)
  deriving Repr

/-- Look at the response to a command. The program stops where there is none (reset in the call, or a call that never returns),
because the host must wait for it (R91), and after TRANSPORT_ERROR, because the session is dead (R202): DEDUCED, R104 says
neither. It goes on after BAD_STATE, as the host may (R164): DESIGN CHOICE (log 22). -/
def State.lookAt (s : State) (o : Host.Outcome State Fault Refusal) : Progress :=
  match o with
  | .next t =>
    match s.answerIn t with
    | none => .stops (.next t)
    | some r => if r.code = .transportError then .stops (.next t) else .goesOn t
  | .fault r => .stops (.fault r)
  | .refused r => .stops (.refused r)

/-- Issue one command: none while another is in flight (R91), none the command port cannot carry (log 7). -/
def issue (i : Instr) (s : State) : Progress :=
  if s.inFlight.isSome then .stops (.next s)
  else if i.wellFormed s.cfg then s.lookAt (exec i s)
  else .stops (.refused .payloadAboveMax)

/-- Issue commands one after another, each after the response to the one before (R91). -/
def issueAll : List Instr → State → Progress
  | [], s => .goesOn s
  | i :: is, s =>
    match issue i s with
    | .goesOn t => issueAll is t
    | .stops o => .stops o

/-- Whether the last response is OK with RESULT 0; the code is asked for too, since BAD_STATE in Idle has RESULT 0 (DESIGN CHOICE,
log 22). -/
def State.answeredZero (s : State) : Bool :=
  match s.responses.getLast? with
  | none => false
  | some r => r.code == .ok && r.result == 0

/-- One move: the command asked, and the others if it answered OK with RESULT 0. -/
def HostMove.make (m : HostMove) (s : State) : Progress :=
  match issue m.ask s with
  | .goesOn t => if t.answeredZero then issueAll m.ifZero t else .goesOn t
  | .stops o => .stops o

/-- Make the host's moves in order, as far as the program goes on. -/
def runMoves : List HostMove → State → Host.Outcome State Fault Refusal
  | [], s => .next s
  | m :: ms, s =>
    match m.make s with
    | .goesOn t => runMoves ms t
    | .stops o => o

/-! ### The assembler's text (R103) -/

/-- A channel operand. -/
def channelText : Channel → String
  | .up => "up"
  | .dn => "dn"

/-- A field operand. -/
def offsetFieldText : OffsetField → String
  | .w => "W"
  | .r => "R"

/-- A register operand by name. -/
def regText : Reg → String
  | .desc .up .writeOffset => "UP_W"
  | .desc .up .readOffset => "UP_R"
  | .desc .up .capacityMask => "UP_M"
  | .desc .up .elementSize => "UP_E"
  | .desc .up .bufferBase => "UP_B"
  | .desc .dn .writeOffset => "DN_W"
  | .desc .dn .readOffset => "DN_R"
  | .desc .dn .capacityMask => "DN_M"
  | .desc .dn .elementSize => "DN_E"
  | .desc .dn .bufferBase => "DN_B"
  | .cbAddr => "CB_ADDR"
  | .status => "STATUS"
  | .fcmd => "FCMD"
  | .faddr => "FADDR"

/-- A byte sequence, in decimal. -/
def bytesText (data : List Byte) : String := "[" ++ String.intercalate ", " (data.map fun b => b.toNat.repr) ++ "]"

/-- The line the assembler reads for an instruction, numbers in decimal. -/
def instrText : Instr → String
  | .openSession a => "OPEN " ++ a.toNat.repr
  | .closeSession => "CLOSE"
  | .rdr r => "RDR " ++ regText r
  | .empty c => "EMPTY " ++ channelText c
  | .occ c => "OCC " ++ channelText c
  | .free c => "FREE " ++ channelText c
  | .full c => "FULL " ++ channelText c
  | .enq c data => "ENQ " ++ channelText c ++ ", " ++ bytesText data
  | .peek c n => "PEEK " ++ channelText c ++ ", " ++ n.toNat.repr
  | .deq c n => "DEQ " ++ channelText c ++ ", " ++ n.toNat.repr
  | .rfsh c f => "RFSH " ++ channelText c ++ ", " ++ offsetFieldText f
  | .pub c f => "PUB " ++ channelText c ++ ", " ++ offsetFieldText f

end Sys2Proof.Machine
end

