-- ==== Sys2Proof/Safety.lean ====
section
/-!
DEFINITION. The terms claims are stated in: the invariant of the registers (`10_state.md` R31, R33), where commands are accepted
(`60_exceptions.md` R164), which port calls a command makes and which bytes it stores (`20_memory.md` R58), the FIFO a channel
stands for (`42_transfer.md` R135), the roles of the host (`70_reset_and_hazards.md` R204) and the contract of the target
(`20_memory.md` R74 to R78), and the snapshot and the byte streams that stay safe under them (R81, `43_offset_sync.md` R152).
-/

namespace Sys2Proof.Machine

/-! ### The invariant of the machine -/

/-- The legal combinations of STATUS (R31). -/
def Status.legal : Status → Bool
  | ⟨.idle, false, none⟩ => true
  | ⟨.active, true, none⟩ => true
  | ⟨.faulted, false, some .read⟩ => true
  | ⟨.faulted, true, some _⟩ => true
  | _ => false

/-- The command in flight is an OPEN, which has already written CB_ADDR while SESSION is still Idle (R110). -/
def State.openInFlight (s : State) : Bool :=
  match s.inFlight with
  | some (.openSession _) => true
  | _ => false

/-- Which registers hold values (R30 to R33). -/
def State.registersValid (s : State) : Bool :=
  (s.x.isSome == s.status.dvalid)
    && (s.cbAddr.isSome == (s.status.session != .idle || s.openInFlight))
    && (s.fcmd.isSome == (s.status.session == .faulted))
    && (s.faddr.isSome == (s.status.session == .faulted))

/-- A command stays in flight only in a port call that never returns: never in a Faulted session (R173), an OPEN only in an Idle
one, and not at all where PORT_LIVENESS is true (R57, R213). -/
def State.inFlightLegal (s : State) : Bool :=
  match s.inFlight with
  | none => true
  | some i =>
    !s.cfg.portLiveness && (match i with
      | .openSession _ => s.status.session == .idle
      | _ => s.status.session == .active)

/-- The invariant every step keeps. -/
structure State.Inv (s : State) : Prop where
  status : s.status.legal = true
  registers : s.registersValid = true
  inFlight : s.inFlightLegal = true
  memory : s.mem.wf

/-! ### The legal command words (R97, R98) -/

/-- The 38 legal words, as the column "CMD words" of R97 lists them. -/
def legalWords : List Nat :=
  [0x001, 0x002]
    ++ [0x003, 0x103, 0x203, 0x303, 0x403, 0x503, 0x603, 0x703, 0x803, 0x903, 0xA03, 0xB03, 0xC03, 0xD03]
    ++ [0x010, 0x110, 0x011, 0x111, 0x012, 0x112, 0x013, 0x113]
    ++ [0x020, 0x120, 0x021, 0x121, 0x022, 0x122]
    ++ [0x030, 0x130, 0x230, 0x330, 0x031, 0x131, 0x231, 0x331]

/-- The commands whose format uses ARG (R94). -/
def usesArg : Instr → Bool
  | .openSession _ => true
  | .peek _ _ => true
  | .deq _ _ => true
  | .closeSession => false
  | .rdr _ => false
  | .empty _ => false
  | .occ _ => false
  | .free _ => false
  | .full _ => false
  | .enq _ _ => false
  | .rfsh _ _ => false
  | .pub _ _ => false

/-- The commands whose format uses PAYLOAD (R94). -/
def usesPayload : Instr → Bool
  | .enq _ _ => true
  | .openSession _ => false
  | .closeSession => false
  | .rdr _ => false
  | .empty _ => false
  | .occ _ => false
  | .free _ => false
  | .full _ => false
  | .peek _ _ => false
  | .deq _ _ => false
  | .rfsh _ _ => false
  | .pub _ _ => false

/-- The commands with port calls act on a channel only if the machine lets them (`93` U1 to U3). -/
def State.channelRuns (s : State) (i : Instr) : Prop :=
  s.cfg.allowIllFormed = true ∨
    match i, s.x with
    | .empty c, some x => (x.chan c).wellFormed = true
    | .occ c, some x => (x.chan c).wellFormed = true
    | .free c, some x => (x.chan c).wellFormed = true
    | .full c, some x => (x.chan c).wellFormed = true
    | .enq c _, some x => (x.chan c).wellFormed = true
    | .peek c _, some x => (x.chan c).wellFormed = true
    | .deq c _, some x => (x.chan c).wellFormed = true
    | _, _ => True

/-! ### What a session state accepts (R164) -/

/-- The table of R164. -/
def State.accepts (s : State) : Instr → Bool
  | .openSession _ => s.status.session == .idle
  | .closeSession => true
  | .rdr (.desc _ _) => s.status.dvalid
  | .rdr .cbAddr => s.status.session != .idle
  | .rdr .status => true
  | .rdr .fcmd => s.status.session == .faulted
  | .rdr .faddr => s.status.session == .faulted
  | .empty _ => s.status.session == .active
  | .occ _ => s.status.session == .active
  | .free _ => s.status.session == .active
  | .full _ => s.status.session == .active
  | .enq _ _ => s.status.session == .active
  | .peek _ _ => s.status.session == .active
  | .deq _ _ => s.status.session == .active
  | .rfsh _ _ => s.status.session == .active
  | .pub _ _ => s.status.session == .active

/-! ### Which port calls a command makes (R58) and which bytes it stores -/

/-- The write calls of a copy-in: none for a segment of length 0 (R60). -/
def Segments.writeCalls (g : Segments) (data : List Byte) : List PortCall :=
  (if 0 < g.first then [.write g.addr1 (data.take g.first)] else []) ++
    (if 0 < g.rest then [.write g.addr2 ((data.drop g.first).take g.rest)] else [])

/-- The read calls of a copy-out. -/
def Segments.readCalls (g : Segments) : List PortCall :=
  (if 0 < g.first then [.read g.addr1 g.first] else []) ++ (if 0 < g.rest then [.read g.addr2 g.rest] else [])

/-- Both segments lie below the top of the address space (R65, `93` U5). -/
def Segments.fits (g : Segments) : Prop :=
  g.addr1.toNat + g.first ≤ 2 ^ 32 ∧ g.addr2.toNat + g.rest ≤ 2 ^ 32

/-- The segments of ENQ on channel `c` (R130, R131). -/
def enqSegments (d : Descriptor) (data : List Byte) : Segments := d.segments d.writeOffset (enqCount d data)

/-- The segments of PEEK and DEQ (R130, R132). -/
def peekSegments (d : Descriptor) (maxLen : Word) : Segments := d.segments d.readOffset (peekCount d maxLen)

/-- The table of R58: the port calls of a command the state accepts, in order. -/
def State.callsOf (s : State) (i : Instr) : List PortCall :=
  match i, s.x with
  | .openSession a, _ => [.read (a + 16) 40]
  | .enq c data, some x => (enqSegments (x.chan c) data).writeCalls (data.take (enqCount (x.chan c) data))
  | .peek c n, some x => (peekSegments (x.chan c) n).readCalls
  | .deq c n, some x => (peekSegments (x.chan c) n).readCalls
  | .rfsh c f, some _ => (s.cbAddr.map fun cb => PortCall.readU32 (fieldAddr cb c f.desc)).toList
  | .pub c f, some x => (s.cbAddr.map fun cb => PortCall.writeU32 (fieldAddr cb c f.desc) ((x.chan c).get f.desc)).toList
  | _, _ => []

/-- The remote locations the calls of a command store to. -/
def State.storesTo (s : State) (i : Instr) (a : Nat) : Prop :=
  ∃ c ∈ s.callsOf i, c.addr.toNat ≤ a ∧ a < c.addr.toNat + c.stored.length

/-- The target's steps inside the next `n` port calls, in order (R66, R68). -/
def State.stepsIn (s : State) (n : Nat) : List TargetStep := (s.port.take n).flatMap PortPlan.during

/-- The target writes location `a` during the next `n` port calls. -/
def State.targetTouches (s : State) (n a : Nat) : Prop := ∃ t ∈ s.stepsIn n, ∃ c ∈ t.cells, c.1.toNat = a

/-- The next `n` port calls return. -/
def State.portReturns (s : State) (n : Nat) : Prop := ∀ p ∈ s.port.take n, p.outcome = .returns

/-- The target does nothing during the next `n` port calls. -/
def State.targetQuiet (s : State) (n : Nat) : Prop := s.stepsIn n = []

/-- Location `a` held `b` at some instant of the next `n` port calls, as far as only the target writes it (R52, R66). -/
def State.seen (s : State) (n a : Nat) (b : Byte) : Prop := ∃ k, b = (applySteps ((s.stepsIn n).take k) s.mem).read a

/-- What location `a` holds in `m` is `b`, stored at some instant of the next `n` port calls, and what the target's later steps
made of it (R53, R66). -/
def State.left (s : State) (n a : Nat) (b : Byte) (m : Memory) : Prop :=
  ∃ k, m.read a = (applySteps ((s.stepsIn n).drop k) (Memory.write s.mem a b)).read a

/-- The command `i` led from `s` to `t` and did not get past one of its own port calls, whose plan has the outcome `o`: the trace
ends in that call, without an answer. -/
def State.cutShort (s t : State) (i : Instr) (o : PortOutcome) : Prop :=
  ∃ (l : List PortEvent) (k : PortCall) (rest : List PortCall) (p : PortPlan),
    s.callsOf i = l.map PortEvent.call ++ k :: rest ∧ t.trace = s.trace ++ l ++ [{ call := k, answer := .noReturn }] ∧
      s.port[l.length]? = some p ∧ p.outcome = o

/-- The port calls made so far, in order (R82). -/
def State.callsMade (s : State) : List PortCall := s.trace.map PortEvent.call

/-- The block's registers, without what is around the block. -/
def State.registers (s : State) : Option Descriptors × Option Word × Status × Option Word × Option Word :=
  (s.x, s.cbAddr, s.status, s.fcmd, s.faddr)

/-- An open session with these registers (R31, R33). -/
structure State.Open (s : State) (cb : Word) (x : Descriptors) : Prop where
  session : s.status.session = .active
  descriptors : s.x = some x
  address : s.cbAddr = some cb

/-- A session with these registers, open or faulted (R31, R33). -/
structure State.InSession (s : State) (cb : Word) (x : Descriptors) : Prop where
  session : s.status.session ≠ .idle
  descriptors : s.x = some x
  address : s.cbAddr = some cb

/-- The queries and transfers run on channel `d`: it is well-formed, or ALLOW_ILL_FORMED is set (`93` U1 to U3). -/
def State.runsOn (s : State) (d : Descriptor) : Prop := s.cfg.allowIllFormed = true ∨ d.wellFormed = true

/-! ### The FIFO a channel stands for (R130, R135) -/

/-- The location of counter value `v` in a channel's buffer: the counter masked (R26, R130). -/
def Descriptor.location (d : Descriptor) (v : Word) : Nat := d.bufferBase.toNat + (d.phys v).toNat

/-- The `n` bytes of a channel's buffer from counter value `v` on. -/
def Descriptor.bytesFrom (d : Descriptor) (v : Word) (n : Nat) (m : Memory) : List Byte :=
  (List.range n).map fun j => m.read (d.location (v + BitVec.ofNat 32 j))

/-- The bytes a channel holds, oldest first. -/
def Descriptor.contents (d : Descriptor) (m : Memory) : List Byte := d.bytesFrom d.readOffset d.occ.toNat m

/-- The buffer lies below the top of the address space (the premise of `93` U5). -/
def Descriptor.inSpace (d : Descriptor) : Prop := d.bufferBase.toNat + d.cap.toNat ≤ 2 ^ 32

/-! ### Roles, the target's contract, the snapshot -/

/-- The commands a correct host issues in a session (R204, R211): the single-writer roles. -/
def keepsRoles : Instr → Bool
  | .openSession _ => true
  | .closeSession => true
  | .rdr _ => true
  | .empty _ => true
  | .occ _ => true
  | .free _ => true
  | .full _ => true
  | .enq c _ => c == .dn
  | .peek _ _ => true
  | .deq c _ => c == .up
  | .rfsh c f => (c == .up && f == .w) || (c == .dn && f == .r)
  | .pub c f => (c == .up && f == .r) || (c == .dn && f == .w)

/-- The remote word at an address. -/
def Memory.word (m : Memory) (a : Word) : Word :=
  le32 (m.read a.toNat) (m.read (a.toNat + 1)) (m.read (a.toNat + 2)) (m.read (a.toNat + 3))

/-- The target writes a whole word at one instant (its side of R67). -/
def TargetStep.ofWord (a v : Word) : TargetStep :=
  { cells := [(a, v.extractLsb' 0 8), (a + 1, v.extractLsb' 8 8), (a + 2, v.extractLsb' 16 8), (a + 3, v.extractLsb' 24 8)] }

/-- The remote offset word of a channel. -/
def remoteOffset (m : Memory) (cb : Word) (c : Channel) (f : OffsetField) : Word := m.word (fieldAddr cb c f.desc)

/-- The free space of the up-channel in the target's view: its own write offset, the host's published read offset (R75, R78). -/
def targetFree (x : Descriptors) (cb : Word) (m : Memory) : Nat :=
  x.up.cap.toNat - (remoteOffset m cb .up .w - remoteOffset m cb .up .r).toNat

/-- The occupancy of the down-channel in the target's view: the host's published write offset, its own read offset (R75). -/
def targetOcc (cb : Word) (m : Memory) : Nat := (remoteOffset m cb .dn .w - remoteOffset m cb .dn .r).toNat

/-- Location `a` lies in a channel's buffer. -/
def Descriptor.holds (d : Descriptor) (a : Nat) : Prop := d.bufferBase.toNat ≤ a ∧ a < d.bufferBase.toNat + d.cap.toNat

/-- Location `a` lies in the control block (R51). -/
def inControlBlock (cb : Word) (a : Nat) : Prop := cb.toNat ≤ a ∧ a < cb.toNat + 56

/-- What the target has done with the two streams (log 23): the bytes it has produced into channel 0 and published, the bytes it
has read from channel 1 below a read offset it has published, and those it has read beyond it. -/
structure Peer where
  produced : List Byte
  consumed : List Byte
  taken : List Byte
  deriving DecidableEq, Repr

/-- A step a correct target may take in memory `m` (R74 to R78), and how it moves the streams. Everything else is excluded: it
writes no host-owned offset word (R74, R78), neither the tag nor a mask, an element size or a buffer base (R77), and of its own
words it changes one at a time. That it may write RAM outside the control block and both buffers, of which R74 to R78 say
nothing, is the model's choice (DESIGN CHOICE, log 17). -/
inductive TargetStep.Correct (x : Descriptors) (cb : Word) (m : Memory) : Peer → TargetStep → Peer → Prop where
  /-- It writes channel-0 locations free in its own view, and nothing of channel 1 (R78). -/
  | produce (p : Peer) (cells : List (Word × Byte))
      (free : ∀ c ∈ cells, ∃ j < targetFree x cb m,
        c.1.toNat = x.up.location (remoteOffset m cb .up .w + BitVec.ofNat 32 j))
      (apart : ∀ c ∈ cells, ¬ x.dn.holds c.1.toNat) : TargetStep.Correct x cb m p { cells := cells } p
  /-- It advances its write offset within the free space it sees (R75), over bytes that are in the buffer (R76). -/
  | publishWrite (p : Peer) (bytes : List Byte) (bound : bytes.length ≤ targetFree x cb m)
      (inBuffer : x.up.bytesFrom (remoteOffset m cb .up .w) bytes.length m = bytes) :
      TargetStep.Correct x cb m p
        (.ofWord (fieldAddr cb .up .writeOffset) (remoteOffset m cb .up .w + BitVec.ofNat 32 bytes.length))
        { p with produced := p.produced ++ bytes }
  /-- It reads bytes of channel 1, in order, within the occupancy it sees (R74, R75); memory stays as it is (R79). -/
  | take (p : Peer) (n : Nat) (bound : p.taken.length + n ≤ targetOcc cb m) :
      TargetStep.Correct x cb m p { cells := [] }
        { p with
          taken := p.taken ++ x.dn.bytesFrom (remoteOffset m cb .dn .r + BitVec.ofNat 32 p.taken.length) n m }
  /-- It advances its read offset within the occupancy it sees (R75), over bytes it has finished reading (R76). -/
  | publishRead (p : Peer) (k : Nat) (bound : k ≤ targetOcc cb m) (finished : k ≤ p.taken.length) :
      TargetStep.Correct x cb m p
        (.ofWord (fieldAddr cb .dn .readOffset) (remoteOffset m cb .dn .r + BitVec.ofNat 32 k))
        { p with consumed := p.consumed ++ p.taken.take k, taken := p.taken.drop k }
  /-- It writes RAM outside the control block and both buffers. -/
  | elsewhere (p : Peer) (cells : List (Word × Byte))
      (outside : ∀ c ∈ cells, ¬ inControlBlock cb c.1.toNat ∧ ¬ x.up.holds c.1.toNat ∧ ¬ x.dn.holds c.1.toNat) :
      TargetStep.Correct x cb m p { cells := cells } p

/-- The target keeps the contract inside a port call that stores the bytes `ws`: each of its steps is correct in the memory it
finds, which holds the bytes stored before it (the order is that of `weave`). -/
def PeerInCall (x : Descriptors) (cb : Word) (ws : List TimedByte) : List TargetStep → Nat → Memory → Peer → Peer → Prop
  | [], _, _, p, q => q = p
  | t :: ts, k, m, p, q =>
    ∃ r, t.Correct x cb (writeTimed (ws.filter fun w => w.instant == k) m) p r ∧
      PeerInCall x cb ws ts (k + 1) (t.apply (writeTimed (ws.filter fun w => w.instant == k) m)) r q

/-- The next port call returns. -/
def State.callReturns (s : State) : Bool := s.plan.verdict s.cfg == .returns

/-- The target keeps the contract inside these port calls, up to the first that does not return. -/
def PeerInCalls (x : Descriptors) (cb : Word) : List PortCall → State → Peer → Peer → Prop
  | [], _, p, q => q = p
  | c :: cs, s, p, q =>
    ∃ r, PeerInCall x cb (s.timedWrites c s.callReturns) s.plan.during 0 s.mem p r ∧
      if s.callReturns then PeerInCalls x cb cs (s.afterCall c true .done) r q else q = r

/-- The target keeps the contract in the next step, inside the port calls of its command or between two commands. -/
def State.peerInStep (s : State) (x : Descriptors) (cb : Word) (p q : Peer) : Prop :=
  match s.inputs with
  | [] => q = p
  | .event .reset :: _ => q = p
  | .event (.target g) :: _ => g.Correct x cb s.mem p q
  | .command c :: _ =>
    match decode c with
    | .error _ => q = p
    | .ok i => if s.accepts i then PeerInCalls x cb (s.callsOf i) s p q else q = p

/-- The commands of the next step keep the roles of the host (R204). -/
def State.hostInStep (s : State) : Prop :=
  ∀ c i, s.inputs.head? = some (.command c) → decode c = .ok i → keepsRoles i = true

/-- The layout a correct target sets up (R77, R193) and `93` U5 asks for: legal masks, everything below the top of the address
space, and the two buffers and the control block apart, without which a field or a data byte would have two writers (R74, R78;
DEDUCED, log 17). -/
structure LayoutOk (x : Descriptors) (cb : Word) : Prop where
  upMask : maskLegal x.up.capacityMask = true
  dnMask : maskLegal x.dn.capacityMask = true
  upSpace : x.up.inSpace
  dnSpace : x.dn.inSpace
  block : cb.toNat + 56 ≤ 2 ^ 32
  upApart : x.up.bufferBase.toNat + x.up.cap.toNat ≤ cb.toNat ∨ cb.toNat + 56 ≤ x.up.bufferBase.toNat
  dnApart : x.dn.bufferBase.toNat + x.dn.cap.toNat ≤ cb.toNat ∨ cb.toNat + 56 ≤ x.dn.bufferBase.toNat
  buffersApart : x.up.bufferBase.toNat + x.up.cap.toNat ≤ x.dn.bufferBase.toNat
    ∨ x.dn.bufferBase.toNat + x.dn.cap.toNat ≤ x.up.bufferBase.toNat

/-- The snapshot is safe (R37, R81 (a), R152 (c)). Going round the counter circle, the up-channel meets the published R, the
host's R, the host's W, the target's W, within the capacity; the down-channel the host's R, the target's R, the published W, the
host's W. So what the host caches of the target's offsets is behind them, and what it published is behind its own. -/
structure SnapshotSafe (x : Descriptors) (cb : Word) (m : Memory) : Prop where
  layout : LayoutOk x cb
  up : (x.up.readOffset - remoteOffset m cb .up .r).toNat + x.up.occ.toNat
      + (remoteOffset m cb .up .w - x.up.writeOffset).toNat ≤ x.up.cap.toNat
  dn : (remoteOffset m cb .dn .r - x.dn.readOffset).toNat
      + (remoteOffset m cb .dn .w - remoteOffset m cb .dn .r).toNat
      + (x.dn.writeOffset - remoteOffset m cb .dn .w).toNat ≤ x.dn.cap.toNat

/-! ### The two byte streams (R81 (b), (d)) -/

/-- The two byte streams of a session (log 23): what the target did, the bytes DEQ has delivered from channel 0, and the accepted
parts of what ENQ was given for channel 1. The bytes in the buffers when the session opened count as produced and accepted. -/
structure Streams where
  peer : Peer
  delivered : List Byte
  accepted : List Byte
  deriving DecidableEq, Repr

/-- The bytes a response to `i` delivers from channel 0: those of an OK response to `DEQ up` (R133). -/
def deliveredBy (i : Instr) (r : Response) : List Byte :=
  match i with
  | .deq .up _ => if r.code = .ok then r.payload else []
  | _ => []

/-- The bytes a response to `i` accepts into channel 1: as many of the payload as RESULT says, of an OK response to `ENQ dn` (R131). -/
def acceptedBy (i : Instr) (r : Response) : List Byte :=
  match i with
  | .enq .dn data => if r.code = .ok then data.take r.result.toNat else []
  | _ => []

/-- The streams after the step from `s` to `t`, in which the target came to `q`. -/
def Streams.next (h : Streams) (s t : State) (q : Peer) : Streams :=
  match s.inputs with
  | .command c :: _ =>
    match decode c, s.answerIn t with
    | .ok i, some r =>
      { peer := q, delivered := h.delivered ++ deliveredBy i r, accepted := h.accepted ++ acceptedBy i r }
    | _, _ => { h with peer := q }
  | _ => { h with peer := q }

/-- The streams are whole (R81 (b), (d)): what the target produced is what was delivered and then what lies in the up-buffer
between the host's read offset and the target's write offset; what the host accepted is what the target consumed and then what
lies in the down-buffer between the target's read offset and the host's write offset; what the target has taken in advance is
the head of that. -/
structure StreamsSafe (x : Descriptors) (cb : Word) (m : Memory) (h : Streams) : Prop where
  up : h.peer.produced
    = h.delivered ++ x.up.bytesFrom x.up.readOffset (remoteOffset m cb .up .w - x.up.readOffset).toNat m
  dn : h.accepted = h.peer.consumed
    ++ x.dn.bytesFrom (remoteOffset m cb .dn .r) (x.dn.writeOffset - remoteOffset m cb .dn .r).toNat m
  takenBound : h.peer.taken.length ≤ targetOcc cb m
  takenBytes : h.peer.taken = x.dn.bytesFrom (remoteOffset m cb .dn .r) h.peer.taken.length m

/-- The streams when a session opens on a control block whose offsets are those read. -/
def Streams.atOpen (x : Descriptors) (m : Memory) : Streams :=
  { peer := { produced := x.up.contents m, consumed := [], taken := [] }, delivered := [], accepted := x.dn.contents m }

end Sys2Proof.Machine
end

