-- ==== Sys2Proof/Certificates/Slice0/Obligations.lean ====
section
/-!
DEFINITION. The statements for the provers, from the spec's numbered rules. All but the few about one configuration hold of every
state, reachable or not; where a premise is an invariant it is `State.Inv`, which `StepKeepsInvariant` states.
-/

open Sys2Proof Sys2Proof.Machine

/-! ### Encoding -/

/-- R94, R95, R97, R98: decoding an encoded instruction gives it back with every operand, and what decodes to an instruction is
its word, with the ARG and PAYLOAD its format uses. -/
def Obligations.DecodeEncodeAgree : Prop :=
  (∀ i : Instr, decode (encode i) = .ok i) ∧
    ∀ (c : Command) (i : Instr), decode c = .ok i →
      (encode i).cmd = c.cmd ∧ (usesArg i = true → (encode i).arg = c.arg) ∧
        (usesPayload i = true → (encode i).payload = c.payload)

/-- R98: of the 2^32 words exactly the 38 of R97 are legal, whatever ARG and PAYLOAD are. -/
def Obligations.LegalCommandWords : Prop :=
  legalWords.length = 38 ∧ legalWords.Nodup ∧
    ∀ (w a : Word) (p : List Byte), (∃ i, decode { cmd := w, arg := a, payload := p } = .ok i) ↔ w.toNat ∈ legalWords

/-- R102: a command decodes alike whatever stands in a part its format does not use. -/
def Obligations.UnusedPartsIgnored : Prop :=
  ∀ (c : Command) (i : Instr) (a : Word) (p : List Byte), decode c = .ok i →
    (usesArg i = false → decode { c with arg := a } = .ok i) ∧
      (usesPayload i = false → decode { c with payload := p } = .ok i)

/-- Words of R97 and illegal words of R99. -/
def Obligations.SampleWordsDecode : Prop :=
  decodeTableWord 32 0x00000001 = some (.openSession 0) ∧ decodeTableWord 32 0x00000002 = some .closeSession ∧
  decodeTableWord 32 0x00000403 = some (.rdr (.desc .up .bufferBase)) ∧ decodeTableWord 32 0x00000D03 = some (.rdr .faddr) ∧
  decodeTableWord 32 0x00000110 = some (.empty .dn) ∧ decodeTableWord 32 0x00000011 = some (.occ .up) ∧
  decodeTableWord 32 0x00000112 = some (.free .dn) ∧ decodeTableWord 32 0x00000013 = some (.full .up) ∧
  decodeTableWord 32 0x00000120 = some (.enq .dn []) ∧ decodeTableWord 32 0x00000021 = some (.peek .up 0) ∧
  decodeTableWord 32 0x00000122 = some (.deq .dn 0) ∧ decodeTableWord 32 0x00000230 = some (.rfsh .up .r) ∧
  decodeTableWord 32 0x00000131 = some (.pub .dn .w) ∧
  decodeTableWord 32 0x00000000 = none ∧ decodeTableWord 32 0x00000E03 = none ∧ decodeTableWord 32 0x00000102 = none ∧
  decodeTableWord 32 0x00000210 = none ∧ decodeTableWord 32 0x00000430 = none ∧ decodeTableWord 32 0x00001001 = none ∧
  decodeTableWord 32 0x000000FF = none

/-- R31: the legal combinations of STATUS are exactly those whose words the rule lists. -/
def Obligations.StatusWordsListed : Prop :=
  ∀ t : Status, t.legal = true ↔ t.word.toNat ∈ [0x00, 0x05, 0x0A, 0x0E, 0x16, 0x1E, 0x26]

/-- R59: the field address, and the four addresses RFSH and PUB use. -/
def Obligations.FieldAddresses : Prop :=
  ∀ cb : Word,
    (∀ c k, (fieldAddr cb c k).toNat = (cb.toNat + 16 + 20 * c.number + 4 * k.number) % 2 ^ 32) ∧
    fieldAddr cb .up .writeOffset = cb + 16 ∧ fieldAddr cb .up .readOffset = cb + 20 ∧
    fieldAddr cb .dn .writeOffset = cb + 36 ∧ fieldAddr cb .dn .readOffset = cb + 40

/-! ### The step -/

/-- R91, R98: when no command waits in the port and the next input is a command that decodes to a well-formed instruction, the
step is that instruction's meaning on the state with the input taken. -/
def Obligations.StepRunsDecodedCommand : Prop :=
  ∀ (s : State) (c : Command) (rest : List Input) (i : Instr), s.inFlight = none → s.inputs = .command c :: rest →
    decode c = .ok i → i.wellFormed s.cfg = true → step s = exec i { s with inputs := rest }

/-- R163: an illegal word is answered (ILLEGAL_CMD, 0, []) in every session state and nothing else changes. -/
def Obligations.IllegalWordRefused : Prop :=
  ∀ (s : State) (c : Command) (rest : List Input), s.inFlight = none → s.inputs = .command c :: rest →
    c.cmd.toNat ∉ legalWords →
    step s = .next { s with inputs := rest, responses := s.responses ++ [{ code := .illegalCmd, result := 0, payload := [] }] }

/-- R170, R181: without an input the block does nothing; R68, R170: a step of the target changes remote memory only, and there
only the cells it names. -/
def Obligations.OnlyCommandsMoveTheBlock : Prop :=
  ∀ s : State, s.inFlight = none →
    (s.inputs = [] → step s = .next s) ∧
    ∀ (g : TargetStep) (rest : List Input), s.inputs = .event (.target g) :: rest →
      ∃ t, step s = .next t ∧ t = { s with inputs := rest, mem := t.mem } ∧
        ∀ a, (∀ c ∈ g.cells, c.1.toNat ≠ a) → t.mem.read a = s.mem.read a

/-- R40, R190: after reset STATUS is 0, every other register holds no value, no command is in flight, and remote memory is
untouched; a reset step leaves exactly that, and so does CLOSE. -/
def Obligations.ResetLeavesRegistersEmpty : Prop :=
  (State.reset.status.word = 0 ∧ State.reset.status.session = .idle ∧ State.reset.x = none ∧ State.reset.cbAddr = none ∧
    State.reset.fcmd = none ∧ State.reset.faddr = none ∧ State.reset.inFlight = none) ∧
  (∀ (s : State) (rest : List Input), s.inFlight = none → s.inputs = .event .reset :: rest →
    ∃ t, step s = .next t ∧ t.registers = State.reset.registers ∧ t.inFlight = none ∧ t.mem = s.mem ∧
      t.trace = s.trace ∧ t.responses = s.responses) ∧
  ∀ s : State, s.inFlight = none →
    ∃ t, exec .closeSession s = .next t ∧ t.registers = State.reset.registers ∧ t.inFlight = State.reset.inFlight

/-- R92, R5: the parameters never change; a step only appends to the port trace and to the responses, at most one response. -/
def Obligations.LogsOnlyGrow : Prop :=
  ∀ s t : State, step s = .next t →
    t.cfg = s.cfg ∧ (∃ l, t.trace = s.trace ++ l) ∧ (∃ l, t.responses = s.responses ++ l ∧ l.length ≤ 1)

/-! ### Invariants of the whole machine -/

/-- R31, R33, R53, R57: every step keeps the invariant: STATUS legal, exactly the registers the session state gives values to
hold values, no command left in flight while PORT_LIVENESS holds, remote memory canonical. -/
def Obligations.StepKeepsInvariant : Prop := ∀ s t : State, s.Inv → step s = .next t → t.Inv

/-- R40: the invariant holds after reset. -/
def Obligations.ResetMeetsInvariant : Prop := State.reset.Inv

/-- R38: which session changes there are; the reset in a port call is in one that the command made. -/
def Obligations.SessionChangesListed : Prop :=
  ∀ s t : State, s.inFlight = none → step s = .next t → t.status.session ≠ s.status.session →
    (∃ c rest i, s.inputs = .command c :: rest ∧ decode c = .ok i ∧
      ((∃ a, i = .openSession a ∧ s.status.session = .idle ∧ (t.status.session = .active ∨ t.status.session = .faulted)) ∨
        (i = .closeSession ∧ t.status.session = .idle) ∨
        (s.status.session = .active ∧ t.status.session = .faulted ∧
          ((∃ h d, i = .enq h d) ∨ (∃ h n, i = .peek h n) ∨ (∃ h n, i = .deq h n) ∨ (∃ h f, i = .rfsh h f) ∨
            (∃ h f, i = .pub h f))) ∨
        (t.status.session = .idle ∧ s.cutShort t i .resetInCall))) ∨
    ((∃ rest, s.inputs = .event .reset :: rest) ∧ t.status.session = .idle)

/-- R28: while a session is open no step writes a capacity mask, an element size or a buffer base, and OPEN is refused. -/
def Obligations.StructureFixedInSession : Prop :=
  (∀ (s t : State) (x : Descriptors), s.status.session ≠ .idle → s.x = some x → step s = .next t →
    t.status.session ≠ .idle →
    ∃ y, t.x = some y ∧ ∀ c, (y.chan c).capacityMask = (x.chan c).capacityMask ∧
      (y.chan c).elementSize = (x.chan c).elementSize ∧ (y.chan c).bufferBase = (x.chan c).bufferBase) ∧
  ∀ (s : State) (a : Word), s.status.session ≠ .idle →
    exec (.openSession a) s
      = .next { s with responses := s.responses ++ [{ code := .badState, result := s.status.word, payload := [] }] }

/-- R164: a command the state does not accept is answered (BAD_STATE, STATUS, []) and nothing changes; one that it accepts, in
a state that meets the invariant, is never so answered. -/
def Obligations.BadStateTable : Prop :=
  ∀ (s : State) (i : Instr),
    (s.accepts i = false →
      exec i s = .next { s with responses := s.responses ++ [{ code := .badState, result := s.status.word, payload := [] }] }) ∧
    (s.Inv → s.inFlight = none → s.accepts i = true → ∀ t, exec i s = .next t →
      ∀ v p, t.responses ≠ s.responses ++ [{ code := .badState, result := v, payload := p }])

/-- R92: a command gets exactly one response, except where one of the port calls it made is cut off by reset or never returns. -/
def Obligations.OneResponsePerCommand : Prop :=
  ∀ (s t : State) (i : Instr), exec i s = .next t →
    (∃ r, t.responses = s.responses ++ [r]) ∨
      (t.responses = s.responses ∧
        (s.cutShort t i .resetInCall ∧ t.registers = State.reset.registers ∧ t.inFlight = none ∨
          (s.cfg.portLiveness = false ∧ s.cutShort t i .neverReturns ∧ t.inFlight = some i)))

/-- R58, R60, R61, R82: the port calls of a command are those of the table, in order, up to the first that does not return; all
of them if the command answers OK; none if the state does not accept it. -/
def Obligations.PortCallsListed : Prop :=
  ∀ (s t : State) (i : Instr), exec i s = .next t →
    (s.accepts i = false → t.trace = s.trace) ∧
    (s.accepts i = true →
      (∃ k, t.callsMade = s.callsMade ++ (s.callsOf i).take k) ∧
      ∀ v p, t.responses = s.responses ++ [{ code := .ok, result := v, payload := p }] →
        t.callsMade = s.callsMade ++ s.callsOf i)

/-- The frame of all twelve commands (R39): outside the bytes it stores, a command changes only what the target changes during
its port calls; only OPEN, ENQ, DEQ and RFSH write a descriptor register, and the latter three one offset of their channel; a
command writes no control register unless it opens, closes or faults. -/
def Obligations.CommandFrame : Prop :=
  ∀ (s t : State) (i : Instr), exec i s = .next t →
    (∀ a, ¬ s.storesTo i a → ¬ s.targetTouches (s.callsOf i).length a → t.mem.read a = s.mem.read a) ∧
    t.cfg = s.cfg ∧ t.inputs = s.inputs ∧
    (t.status.session ≠ .idle → (∀ a, i ≠ .openSession a) →
      t.cbAddr = s.cbAddr ∧ t.status.dvalid = s.status.dvalid ∧
      (t.status.session = s.status.session → t.status = s.status ∧ t.fcmd = s.fcmd ∧ t.faddr = s.faddr) ∧
      (t.x = s.x ∨
        ∃ x c f v, s.x = some x ∧ t.x = some (x.setOffset c f v) ∧
          ((∃ d, i = .enq c d ∧ f = .w) ∨ (∃ n, i = .deq c n ∧ f = .r) ∨ i = .rfsh c f)))

/-! ### Session commands -/

/-- R111: CLOSE is accepted in every state, answers OK, makes no port call, leaves remote memory as it is and every register as
after reset. -/
def Obligations.CloseDiscardsEverything : Prop :=
  ∀ s : State, exec .closeSession s = .next
    { s with
      x := none
      cbAddr := none
      status := State.reset.status
      fcmd := none
      faddr := none
      responses := s.responses ++ [{ code := .ok, result := 0, payload := [] }] }

/-- R112: RDR answers the selected register where it holds a value, BAD_STATE otherwise, and changes nothing else. -/
def Obligations.ReadRegister : Prop :=
  ∀ s : State, s.Inv → s.inFlight = none →
    let ok (v : Word) : Host.Outcome State Fault Refusal :=
      .next { s with responses := s.responses ++ [{ code := .ok, result := v, payload := [] }] }
    let bad : Host.Outcome State Fault Refusal :=
      .next { s with responses := s.responses ++ [{ code := .badState, result := s.status.word, payload := [] }] }
    exec (.rdr .status) s = ok s.status.word ∧
    (∀ c k, if s.status.dvalid = true then ∃ x, s.x = some x ∧ exec (.rdr (.desc c k)) s = ok ((x.chan c).get k)
      else exec (.rdr (.desc c k)) s = bad) ∧
    (if s.status.session = .idle then exec (.rdr .cbAddr) s = bad
      else ∃ a, s.cbAddr = some a ∧ exec (.rdr .cbAddr) s = ok a) ∧
    (if s.status.session = .faulted then
      (∃ k, s.fcmd = some k ∧ exec (.rdr .fcmd) s = ok k) ∧ ∃ a, s.faddr = some a ∧ exec (.rdr .faddr) s = ok a
      else exec (.rdr .fcmd) s = bad ∧ exec (.rdr .faddr) s = bad)

/-- R110, R59, R62, R66: OPEN in Idle, when its one port call returns, loads each descriptor register with the four bytes read at
that field's address, the first the least significant, whatever they are, and opens the session. Each byte read is what its
location held at some instant of the call; with a silent target the register is the word at the field's address. -/
def Obligations.OpenLoadsDescriptors : Prop :=
  ∀ (s : State) (a : Word), s.status.session = .idle → s.status.fprim = none → s.portReturns 1 →
    (a + 16).toNat + 40 ≤ 2 ^ 32 →
    ∃ (x : Descriptors) (bytes : List Byte),
      exec (.openSession a) s = .next
        { s with
          x := some x
          cbAddr := some a
          status := { session := .active, dvalid := true, fprim := none }
          mem := applySteps (s.stepsIn 1) s.mem
          port := s.port.tail
          trace := s.trace ++ [{ call := .read (a + 16) 40, answer := .bytes bytes }]
          responses := s.responses ++ [{ code := .ok, result := 0, payload := [] }] } ∧
      bytes.length = 40 ∧ (∀ j < 40, ∃ b, bytes[j]? = some b ∧ s.seen 1 ((a + 16).toNat + j) b) ∧
      (∀ c k, let n := 20 * c.number + 4 * k.number
        ∃ b0 b1 b2 b3, bytes[n]? = some b0 ∧ bytes[n + 1]? = some b1 ∧ bytes[n + 2]? = some b2 ∧ bytes[n + 3]? = some b3 ∧
          (x.chan c).get k = le32 b0 b1 b2 b3) ∧
      (s.targetQuiet 1 → ∀ c k, (x.chan c).get k = s.mem.word (fieldAddr a c k))

/-- R110, R166: OPEN whose port call fails leaves the block Faulted with DVALID 0 and FPRIM 1, CB_ADDR holding ARG, no descriptor
register written. -/
def Obligations.OpenFaultRecord : Prop :=
  ∀ (s : State) (a : Word), s.Inv → s.inFlight = none → s.status.session = .idle → s.plan.outcome = .fails →
    (a + 16).toNat + 40 ≤ 2 ^ 32 →
    ∃ t, exec (.openSession a) s = .next t ∧ t.x = none ∧ t.cbAddr = some a ∧ t.status.word = 0x0000000A ∧
      t.fcmd = some 0x00000001 ∧ t.faddr = some (a + 16) ∧
      t.trace = s.trace ++ [{ call := .read (a + 16) 40, answer := .failed }] ∧
      t.responses = s.responses ++ [{ code := .transportError, result := a + 16, payload := [] }]

/-! ### Query commands -/

/-- R120 to R123: in Active, on the cached registers of the channel, the four queries answer OK with these results and change
nothing else; outside Active they are refused. -/
def Obligations.QueryResults : Prop :=
  ∀ (s : State) (c : Channel),
    let answer (v : Word) : Host.Outcome State Fault Refusal :=
      .next { s with responses := s.responses ++ [{ code := .ok, result := v, payload := [] }] }
    let bad : Host.Outcome State Fault Refusal :=
      .next { s with responses := s.responses ++ [{ code := .badState, result := s.status.word, payload := [] }] }
    (s.status.session ≠ .active →
      exec (.empty c) s = bad ∧ exec (.occ c) s = bad ∧ exec (.free c) s = bad ∧ exec (.full c) s = bad) ∧
    ∀ x : Descriptors, s.status.session = .active → s.x = some x → s.runsOn (x.chan c) →
      let w := (x.chan c).writeOffset
      let r := (x.chan c).readOffset
      let m := (x.chan c).capacityMask
      exec (.empty c) s = answer (if w = r then 1 else 0) ∧
      exec (.occ c) s = answer (w - r) ∧
      exec (.free c) s = answer ((m + 1) - (w - r)) ∧
      exec (.full c) s = answer (if (m + 1) - (w - r) = 0 then 1 else 0)

/-- R124: the laws of the four queries' results in an Active session; (f) is the last clause. -/
def Obligations.QueryLaws : Prop :=
  ∀ (s : State) (cb : Word) (x : Descriptors) (c : Channel), s.Open cb x → s.runsOn (x.chan c) →
    ∃ e o f u : Word,
      exec (.empty c) s = s.respondOk e [] ∧ exec (.occ c) s = s.respondOk o [] ∧
      exec (.free c) s = s.respondOk f [] ∧ exec (.full c) s = s.respondOk u [] ∧
      o + f = (x.chan c).capacityMask + 1 ∧
      (e = 1 ↔ o = 0) ∧
      (u = 1 ↔ f = 0) ∧ (u = 1 ↔ o = (x.chan c).capacityMask + 1) ∧
      ((x.chan c).capacityMask ≠ 0xFFFFFFFF → ¬ (e = 1 ∧ u = 1)) ∧
      ((x.chan c).wellFormed = true → f.toNat ≤ (x.chan c).cap.toNat ∧ o.toNat + f.toNat = (x.chan c).cap.toNat) ∧
      ∀ i ∈ [Instr.empty c, .occ c, .free c, .full c], ∃ v, exec i s = s.respondOk v [] ∧
        exec i (s.respond .ok v []) = (s.respond .ok v []).respondOk v []

/-- R36, R37, R124 (f): a query or RDR changes nothing but the response, and its response does not depend on remote memory, on
the port or on what was asked before. -/
def Obligations.QueriesReadRegistersOnly : Prop :=
  ∀ (i : Instr) (s t : State) (m : Memory) (p : List PortPlan) (g : List PortEvent) (q : List Response),
    ((∃ c, i = .empty c ∨ i = .occ c ∨ i = .free c ∨ i = .full c) ∨ ∃ r, i = .rdr r) → exec i s = .next t →
    ∃ a, t = { s with responses := s.responses ++ [a] } ∧
      exec i { s with mem := m, port := p, trace := g, responses := q }
        = .next { s with mem := m, port := p, trace := g, responses := q ++ [a] }

/-! ### Transfer commands -/

/-- R131, R53, R66: ENQ in Active, when its port calls return: the count is the payload's length cut to the free space, W advances
by it, the port calls are the two segments of R130 with exactly the accepted bytes, and no other register changes. On a
well-formed channel each accepted byte is stored in its location at some instant of the calls, and stands there but for what the
target writes after that. -/
def Obligations.EnqueueCompletes : Prop :=
  ∀ (s : State) (cb : Word) (x : Descriptors) (c : Channel) (data : List Byte), s.Open cb x → s.runsOn (x.chan c) →
    s.portReturns (s.callsOf (.enq c data)).length → (enqSegments (x.chan c) data).fits →
    let d := x.chan c
    let n := min data.length ((d.capacityMask + 1) - (d.writeOffset - d.readOffset)).toNat
    let p := d.writeOffset &&& d.capacityMask
    let first := min n ((d.capacityMask + 1) - p).toNat
    let calls : List PortCall :=
      (if 0 < first then [.write (d.bufferBase + p) (data.take first)] else []) ++
        (if 0 < n - first then [.write d.bufferBase ((data.drop first).take (n - first))] else [])
    ∃ t, exec (.enq c data) s = .next t ∧
      t.x = some (x.setOffset c .w (d.writeOffset + BitVec.ofNat 32 n)) ∧
      t.responses = s.responses ++ [{ code := .ok, result := BitVec.ofNat 32 n, payload := [] }] ∧
      t.trace = s.trace ++ calls.map (fun k => { call := k, answer := .done }) ∧
      t.cbAddr = s.cbAddr ∧ t.status = s.status ∧ t.fcmd = s.fcmd ∧ t.faddr = s.faddr ∧ t.inFlight = s.inFlight ∧
      (s.mem.wf → d.wellFormed = true → ∀ j b, (data.take n)[j]? = some b →
        s.left calls.length (if j < first then (d.bufferBase + p).toNat + j else d.bufferBase.toNat + (j - first)) b t.mem)

/-- R132, R52, R66: PEEK in Active, when its port calls return: the count is `max_len` clamped to the occupancy, the bytes are those
of the two segments in order, each what its location held at some instant of the calls, no register changes, and memory only by
the target's steps. With a silent target the bytes are those of memory, which stays as it is. -/
def Obligations.PeekCompletes : Prop :=
  ∀ (s : State) (cb : Word) (x : Descriptors) (c : Channel) (maxLen : Word), s.Open cb x → s.runsOn (x.chan c) →
    s.portReturns (s.callsOf (.peek c maxLen)).length → (peekSegments (x.chan c) maxLen).fits →
    let d := x.chan c
    let n := min maxLen.toNat (d.writeOffset - d.readOffset).toNat
    let p := d.readOffset &&& d.capacityMask
    let first := min n ((d.capacityMask + 1) - p).toNat
    let location (j : Nat) : Nat := if j < first then (d.bufferBase + p).toNat + j else d.bufferBase.toNat + (j - first)
    let calls : List PortCall :=
      (if 0 < first then [.read (d.bufferBase + p) first] else []) ++
        (if 0 < n - first then [.read d.bufferBase (n - first)] else [])
    ∃ (t : State) (bytes : List Byte), exec (.peek c maxLen) s = .next t ∧
      t.registers = s.registers ∧ t.inFlight = s.inFlight ∧ t.mem = applySteps (s.stepsIn calls.length) s.mem ∧
      t.responses = s.responses ++ [{ code := .ok, result := BitVec.ofNat 32 n, payload := bytes }] ∧
      t.callsMade = s.callsMade ++ calls ∧
      bytes.length = n ∧ (∀ j < n, ∃ b, bytes[j]? = some b ∧ s.seen calls.length (location j) b) ∧
      (s.targetQuiet calls.length → bytes = (List.range n).map (fun j => s.mem.read (location j)) ∧ t.mem = s.mem)

/-- R133: DEQ answers as PEEK and makes the same port calls, and then advances R by the count; nothing else changes. -/
def Obligations.DequeueCompletes : Prop :=
  ∀ (s : State) (cb : Word) (x : Descriptors) (c : Channel) (maxLen : Word), s.Open cb x → s.runsOn (x.chan c) →
    s.portReturns (s.callsOf (.deq c maxLen)).length → (peekSegments (x.chan c) maxLen).fits →
    let n := min maxLen.toNat ((x.chan c).writeOffset - (x.chan c).readOffset).toNat
    ∃ t u, exec (.peek c maxLen) s = .next u ∧ exec (.deq c maxLen) s = .next t ∧
      (∃ bytes : List Byte, bytes.length = n ∧
        u.responses = s.responses ++ [{ code := .ok, result := BitVec.ofNat 32 n, payload := bytes }]) ∧
      t = { u with x := some (x.setOffset c .r ((x.chan c).readOffset + BitVec.ofNat 32 n)) }

/-- R133, R168: a DEQ that does not answer OK, and is not cut off by reset, advances no register and returns no bytes. -/
def Obligations.FailedDequeueConsumesNothing : Prop :=
  ∀ (s t : State) (c : Channel) (maxLen : Word), exec (.deq c maxLen) s = .next t →
    (∀ v p, t.responses ≠ s.responses ++ [{ code := .ok, result := v, payload := p }]) → t.status.session ≠ .idle →
    t.x = s.x ∧ ∀ r ∈ t.responses.drop s.responses.length, r.payload = []

/-- R135 (h): the lengths of a transfer's port calls add up to its count, in every state. -/
def Obligations.CallLengthsAreTheCount : Prop :=
  ∀ (s : State) (x : Descriptors) (c : Channel) (data : List Byte) (maxLen : Word), s.x = some x →
    ((s.callsOf (.enq c data)).map PortCall.length).sum = min data.length (x.chan c).free.toNat ∧
    ((s.callsOf (.peek c maxLen)).map PortCall.length).sum = min maxLen.toNat (x.chan c).occ.toNat ∧
    (s.callsOf (.enq c data)).length ≤ 2 ∧ (s.callsOf (.peek c maxLen)).length ≤ 2 ∧
    s.callsOf (.deq c maxLen) = s.callsOf (.peek c maxLen)

/-- R135 (a): ENQ, PEEK and DEQ keep a well-formed channel well-formed, so its occupancy within the capacity. -/
def Obligations.TransfersKeepChannelWellFormed : Prop :=
  ∀ (s t : State) (i : Instr) (x y : Descriptors) (c : Channel),
    ((∃ d, i = .enq c d) ∨ (∃ n, i = .peek c n) ∨ ∃ n, i = .deq c n) → s.x = some x → (x.chan c).wellFormed = true →
    exec i s = .next t → t.x = some y → (y.chan c).wellFormed = true ∧ (y.chan c).occ.toNat ≤ (y.chan c).cap.toNat

/-- R135 (f): a successful ENQ with RESULT n makes OCC n larger and FREE n smaller; a successful DEQ the reverse (mod 2^32). -/
def Obligations.TransfersMoveOccupancy : Prop :=
  ∀ (s t : State) (x y : Descriptors) (c : Channel) (data : List Byte) (maxLen n : Word) (p : List Byte),
    s.x = some x → t.x = some y → t.responses = s.responses ++ [{ code := .ok, result := n, payload := p }] →
    (exec (.enq c data) s = .next t → (y.chan c).occ = (x.chan c).occ + n ∧ (y.chan c).free = (x.chan c).free - n) ∧
    (exec (.deq c maxLen) s = .next t → (y.chan c).occ = (x.chan c).occ - n ∧ (y.chan c).free = (x.chan c).free + n)

/-- R130, R131, R135: on a well-formed channel with a port that returns and a silent target, ENQ is the enqueue of a FIFO: the
accepted part of the data is appended to what the channel holds. -/
def Obligations.EnqueueAppends : Prop :=
  ∀ (s : State) (cb : Word) (x : Descriptors) (c : Channel) (data : List Byte), s.Open cb x → s.mem.wf →
    (x.chan c).wellFormed = true → (x.chan c).inSpace → s.portReturns (s.callsOf (.enq c data)).length →
    s.targetQuiet (s.callsOf (.enq c data)).length →
    ∃ t y, exec (.enq c data) s = .next t ∧ t.x = some y ∧ t.mem.wf ∧
      (y.chan c).contents t.mem
        = (x.chan c).contents s.mem ++ data.take ((x.chan c).cap.toNat - ((x.chan c).contents s.mem).length)

/-- R130, R132, R133, R135: under the same premises DEQ is the dequeue of a FIFO: it answers the oldest bytes and leaves the
rest, and PEEK answers the same bytes and leaves all. -/
def Obligations.DequeueTakesOldest : Prop :=
  ∀ (s : State) (cb : Word) (x : Descriptors) (c : Channel) (maxLen : Word), s.Open cb x →
    (x.chan c).wellFormed = true → (x.chan c).inSpace → s.portReturns (s.callsOf (.deq c maxLen)).length →
    s.targetQuiet (s.callsOf (.deq c maxLen)).length →
    let oldest := ((x.chan c).contents s.mem).take maxLen.toNat
    let answer : Response := { code := .ok, result := BitVec.ofNat 32 oldest.length, payload := oldest }
    (∃ t y, exec (.deq c maxLen) s = .next t ∧ t.x = some y ∧ t.mem = s.mem ∧ t.responses = s.responses ++ [answer] ∧
      (y.chan c).contents t.mem = ((x.chan c).contents s.mem).drop maxLen.toNat) ∧
    (∃ t, exec (.peek c maxLen) s = .next t ∧ t.x = s.x ∧ t.mem = s.mem ∧ t.responses = s.responses ++ [answer])

/-- R135 (b): enqueueing bytes that fit into an empty buffer and then dequeueing as many yields exactly those bytes; the two commands
make equally many port calls. -/
def Obligations.RoundTrip : Prop :=
  ∀ (s : State) (cb : Word) (x : Descriptors) (c : Channel) (data : List Byte), s.Open cb x → s.mem.wf →
    (x.chan c).wellFormed = true → (x.chan c).inSpace → s.portReturns (2 * (s.callsOf (.enq c data)).length) →
    s.targetQuiet (2 * (s.callsOf (.enq c data)).length) →
    (x.chan c).writeOffset = (x.chan c).readOffset → data.length ≤ (x.chan c).cap.toNat →
    ∃ t u, exec (.enq c data) s = .next t ∧ exec (.deq c (BitVec.ofNat 32 data.length)) t = .next u ∧
      u.responses = s.responses ++
        [{ code := .ok, result := BitVec.ofNat 32 data.length, payload := [] },
          { code := .ok, result := BitVec.ofNat 32 data.length, payload := data }] ∧
      exec (.empty c) u = u.respondOk 1 []

/-- R132 (e), R135 (d): a PEEK repeated while nobody writes memory returns identical bytes; with a smaller `max_len` first, the
first result is a prefix of the second. -/
def Obligations.PeekRepeats : Prop :=
  ∀ (s t u : State) (c : Channel) (m n : Word),
    s.targetQuiet ((s.callsOf (.peek c m)).length + (s.callsOf (.peek c n)).length) → m.toNat ≤ n.toNat →
    exec (.peek c m) s = .next t → exec (.peek c n) t = .next u → ∀ v w a b,
    t.responses = s.responses ++ [{ code := .ok, result := v, payload := a }] →
    u.responses = t.responses ++ [{ code := .ok, result := w, payload := b }] →
    a = b.take a.length ∧ (m = n → a = b)

/-- R133 (b), R104: `DRAIN` empties the snapshot: after it R = W and EMPTY answers 1. -/
def Obligations.DrainEmptiesSnapshot : Prop :=
  ∀ (s : State) (cb : Word) (x : Descriptors) (c : Channel), s.Open cb x → (x.chan c).wellFormed = true →
    (x.chan c).inSpace → s.inFlight = none → s.portReturns (s.callsOf (.deq c 0xFFFFFFFF)).length →
    ∃ t y, runMoves (pseudoDrain c) s = .next t ∧ t.x = some y ∧
      (y.chan c).readOffset = (x.chan c).writeOffset ∧ (y.chan c).writeOffset = (x.chan c).writeOffset ∧
      exec (.empty c) t = t.respondOk 1 []

/-! ### Offset synchronisation -/

/-- R150: RFSH in Active, when its port call returns and the target is silent: one `read_u32` at `CB + 16 + 20c + 4f`; the value
replaces the one register and is the RESULT; no other register and no byte of memory changes. -/
def Obligations.RefreshCompletes : Prop :=
  ∀ (s : State) (cb : Word) (x : Descriptors) (c : Channel) (f : OffsetField), s.Open cb x → s.portReturns 1 → s.targetQuiet 1 →
    let addr := cb + BitVec.ofNat 32 (16 + 20 * c.number + 4 * f.bit.toNat)
    addr.toNat + 4 ≤ 2 ^ 32 →
    let v := s.mem.word addr
    exec (.rfsh c f) s = .next
      { s with
        x := some (x.setOffset c f v)
        port := s.port.tail
        trace := s.trace ++ [{ call := .readU32 addr, answer := .word v }]
        responses := s.responses ++ [{ code := .ok, result := v, payload := [] }] }

/-- R151: PUB in Active, when its port call returns and the target is silent: one `write_u32` of the register's value at the
field's address; the word holds it, every other byte is unchanged, no register changes. -/
def Obligations.PublishCompletes : Prop :=
  ∀ (s : State) (cb : Word) (x : Descriptors) (c : Channel) (f : OffsetField), s.Open cb x → s.mem.wf →
    s.portReturns 1 → s.targetQuiet 1 →
    let addr := cb + BitVec.ofNat 32 (16 + 20 * c.number + 4 * f.bit.toNat)
    addr.toNat + 4 ≤ 2 ^ 32 →
    let v := (x.chan c).get f.desc
    ∃ m : Memory, exec (.pub c f) s = .next
      { s with
        mem := m
        port := s.port.tail
        trace := s.trace ++ [{ call := .writeU32 addr v, answer := .done }]
        responses := s.responses ++ [{ code := .ok, result := v, payload := [] }] } ∧
      m.wf ∧ m.word addr = v ∧ ∀ a, (a < addr.toNat ∨ addr.toNat + 4 ≤ a) → m.read a = s.mem.read a

/-- R150, R80, R67: with the target at work during the call, an atomic RFSH still loads and returns a value the remote word held at
some instant of the call: after the first `k` of the target's steps. -/
def Obligations.RefreshReadsOneInstant : Prop :=
  ∀ (s : State) (cb : Word) (x : Descriptors) (c : Channel) (f : OffsetField), s.Open cb x → s.portReturns 1 →
    s.cfg.portU32Atomic = true → (fieldAddr cb c f.desc).toNat + 4 ≤ 2 ^ 32 →
    ∃ (t : State) (k : Nat), exec (.rfsh c f) s = .next t ∧
      let v := Memory.word (applySteps ((s.stepsIn 1).take k) s.mem) (fieldAddr cb c f.desc)
      t.x = some (x.setOffset c f v) ∧ t.responses = s.responses ++ [{ code := .ok, result := v, payload := [] }] ∧
        t.mem = applySteps (s.stepsIn 1) s.mem ∧ t.callsMade = s.callsMade ++ [.readU32 (fieldAddr cb c f.desc)]

/-- R52, R53, R66, `93` U9: with the target at work during a call, each byte a span read returns is what its location held at some
instant of the call, and each byte a span write that returned stored stands in its location but for what the target writes after
that; every other location holds what the target's steps leave. -/
def Obligations.SpansGoByteByByte : Prop :=
  (∀ (s t : State) (a : Word) (n : Nat) (bytes : List Byte), portRead a n s = .returned bytes t →
    bytes.length = n ∧ t.mem = applySteps (s.stepsIn 1) s.mem ∧
      ∀ j < n, ∃ b, bytes[j]? = some b ∧ s.seen 1 (a.toNat + j) b) ∧
  ∀ (s t : State) (a : Word) (data : List Byte), s.mem.wf → portWrite a data s = .returned () t →
    (∀ j b, data[j]? = some b → s.left 1 (a.toNat + j) b t.mem) ∧
      ∀ l, (l < a.toNat ∨ a.toNat + data.length ≤ l) → t.mem.read l = (applySteps (s.stepsIn 1) s.mem).read l

/-- R62: a span read of four bytes and a word read at the same instant see the same bytes, the least significant one at the
lowest address. -/
def Obligations.WordReadIsLittleEndian : Prop :=
  ∀ (s t u : State) (a : Word) (bytes : List Byte) (v : Word), s.targetQuiet 1 → portRead a 4 s = .returned bytes t →
    portReadU32 a s = .returned v u →
    bytes = bytesLe32 v ∧
      v.toNat = (s.mem.read a.toNat).toNat + 256 * (s.mem.read (a.toNat + 1)).toNat
        + 65536 * (s.mem.read (a.toNat + 2)).toNat + 16777216 * (s.mem.read (a.toNat + 3)).toNat

/-- R104, R199, S7: `SEND` on a down-channel that is not full makes exactly one `write_u32` call, its last call, with the
post-advance write offset, after ENQ's writes; on a full one it makes no port call. -/
def Obligations.SendPublishesOnce : Prop :=
  ∀ (s : State) (cb : Word) (x : Descriptors) (data : List Byte), s.Open cb x → s.inFlight = none →
    s.cfg.carries data = true → x.dn.wellFormed = true → x.dn.inSpace → cb.toNat + 56 ≤ 2 ^ 32 →
    (x.dn.free = 0 → ∃ t, runMoves (pseudoSend data) s = .next t ∧ t.trace = s.trace) ∧
    (x.dn.free ≠ 0 → s.portReturns ((s.callsOf (.enq .dn data)).length + 1) →
      ∃ t, runMoves (pseudoSend data) s = .next t ∧ ∃ l : List PortCall, (∀ k ∈ l, k.prim = .write) ∧
        t.callsMade = s.callsMade ++ l ++
          [.writeU32 (cb + 36) (x.dn.writeOffset + BitVec.ofNat 32 (min data.length x.dn.free.toNat))])

/-- R104, R198: `DRAINPUB` on an up-channel that is not empty makes, after DEQ's reads, exactly one `write_u32` call with the
read offset after the drain; on an empty one it makes no port call. -/
def Obligations.DrainPubPublishesOnce : Prop :=
  ∀ (s : State) (cb : Word) (x : Descriptors), s.Open cb x → s.inFlight = none → x.up.wellFormed = true → x.up.inSpace →
    cb.toNat + 56 ≤ 2 ^ 32 →
    (x.up.writeOffset = x.up.readOffset → ∃ t, runMoves pseudoDrainPub s = .next t ∧ t.trace = s.trace) ∧
    (x.up.writeOffset ≠ x.up.readOffset → s.portReturns ((s.callsOf (.deq .up 0xFFFFFFFF)).length + 1) →
      ∃ t, runMoves pseudoDrainPub s = .next t ∧ ∃ l : List PortCall, (∀ k ∈ l, k.prim = .read) ∧
        t.callsMade = s.callsMade ++ l ++ [.writeU32 (cb + 20) x.up.writeOffset])

/-- R65, R130, `93` U5: with a well-formed channel and a control block that lie below the top of the address space, no port call
runs past it. -/
def Obligations.NoCallCrossesInSpace : Prop :=
  ∀ (s : State) (i : Instr) (cb : Word) (x : Descriptors), s.x = some x → s.cbAddr = some cb → cb.toNat + 56 ≤ 2 ^ 32 →
    (∀ c, (x.chan c).wellFormed = true ∧ (x.chan c).inSpace) → (∀ a, i = .openSession a → a = cb) →
    ∀ k ∈ s.callsOf i, k.addr.toNat + k.length ≤ 2 ^ 32

/-! ### TransportError -/

/-- R166: when a port call of an accepted command fails, after those before it have returned, the command ends in the entry of a
TransportError: no further call, FPRIM, FCMD and FADDR of that call, Faulted, DVALID as it was, one response, and no register
written that the command writes after its calls (CB_ADDR is written by OPEN before). -/
def Obligations.FailedCallEntersFault : Prop :=
  ∀ (s : State) (i : Instr) (before : List PortCall) (k : PortCall) (rest : List PortCall) (p : PortPlan),
    s.accepts i = true → s.channelRuns i → s.callsOf i = before ++ k :: rest →
    (∀ q ∈ before ++ [k], q.addr.toNat + q.length ≤ 2 ^ 32) →
    (∀ q ∈ s.port.take before.length, q.outcome = .returns) → s.port[before.length]? = some p → p.outcome = .fails →
    ∃ t, exec i s = .next t ∧
      t.callsMade = s.callsMade ++ before ++ [k] ∧ t.trace.getLast? = some { call := k, answer := .failed } ∧
      t.status = { session := .faulted, dvalid := s.status.dvalid, fprim := some k.prim } ∧
      t.fcmd = some (encode i).cmd ∧ t.faddr = some k.addr ∧ t.x = s.x ∧
      ((∀ a, i ≠ .openSession a) → t.cbAddr = s.cbAddr) ∧ (∀ a, i = .openSession a → t.cbAddr = some a) ∧
      t.inFlight = s.inFlight ∧ t.cfg = s.cfg ∧ t.inputs = s.inputs ∧
      t.responses = s.responses ++ [{ code := .transportError, result := k.addr, payload := [] }]

/-- R165, R167, R168: a command that leaves the block Faulted did so because one of its port calls failed; the record names that
call and the command, and every descriptor register holds what it held before. -/
def Obligations.FaultIsPrecise : Prop :=
  ∀ (s t : State) (i : Instr), exec i s = .next t → s.status.session ≠ .faulted → t.status.session = .faulted →
    ∃ k ∈ s.callsOf i, (∃ l, t.trace = s.trace ++ l ++ [{ call := k, answer := .failed }]) ∧
      t.status.fprim = some k.prim ∧ t.status.dvalid = s.status.dvalid ∧ t.fcmd = some (encode i).cmd ∧
      t.faddr = some k.addr ∧ t.x = s.x ∧
      t.responses = s.responses ++ [{ code := .transportError, result := k.addr, payload := [] }]

/-- R173, R172: while Faulted no command makes a port call or touches the fault record, and only CLOSE leaves the state. -/
def Obligations.FaultedNeverNests : Prop :=
  ∀ (s t : State) (i : Instr), s.status.session = .faulted → exec i s = .next t →
    t.trace = s.trace ∧ t.mem = s.mem ∧
      if i = .closeSession then t.registers = State.reset.registers
      else t.registers = s.registers

/-- R53, `93` U4: after a `write` that failed, each addressed location holds what it would hold without the call, or the new byte
stored at some instant of it (but for what the target writes after that), and every other location what it would hold without the
call. With a silent target that is the old value or the new byte, and elsewhere the old value. -/
def Obligations.FailedWriteOldOrNew : Prop :=
  ∀ (s t : State) (a k : Word) (data : List Byte) (p : Prim), s.mem.wf → portWrite a data s = .failed p k t →
    let without := applySteps (s.stepsIn 1) s.mem
    p = .write ∧ k = a ∧
    (∀ j b, data[j]? = some b → t.mem.read (a.toNat + j) = Memory.read without (a.toNat + j) ∨ s.left 1 (a.toNat + j) b t.mem) ∧
    (∀ l, (l < a.toNat ∨ a.toNat + data.length ≤ l) → t.mem.read l = Memory.read without l) ∧
    (s.targetQuiet 1 →
      (∀ j b, data[j]? = some b → t.mem.read (a.toNat + j) = s.mem.read (a.toNat + j) ∨ t.mem.read (a.toNat + j) = b) ∧
      ∀ l, (l < a.toNat ∨ a.toNat + data.length ≤ l) → t.mem.read l = s.mem.read l)

/-- R55: after a `write_u32` that failed on an atomic port, with a silent target, the word is wholly old or wholly new, and every
other location is unchanged. -/
def Obligations.FailedWordWriteAllOrNone : Prop :=
  ∀ (s t : State) (a k v : Word) (p : Prim), s.mem.wf → s.targetQuiet 1 → s.cfg.portU32Atomic = true →
    portWriteU32 a v s = .failed p k t →
    p = .writeU32 ∧ k = a ∧ (t.mem = s.mem ∨ t.mem.word a = v) ∧
    ∀ l, (l < a.toNat ∨ a.toNat + 4 ≤ l) → t.mem.read l = s.mem.read l

/-! ### Calls that do not come back, and stops -/

/-- R57, R213, R91: a command one of whose port calls never returns, after those before it have returned, makes no further call, has
no response and stays in flight; from then on a step accepts no command, and only reset clears it. -/
def Obligations.HungCallBlocksCommands : Prop :=
  (∀ (s : State) (i : Instr) (before : List PortCall) (k : PortCall) (rest : List PortCall) (p : PortPlan),
    s.accepts i = true → s.channelRuns i → s.callsOf i = before ++ k :: rest →
    (∀ q ∈ before ++ [k], q.addr.toNat + q.length ≤ 2 ^ 32) →
    (∀ q ∈ s.port.take before.length, q.outcome = .returns) → s.port[before.length]? = some p →
    p.outcome = .neverReturns → s.cfg.portLiveness = false →
    ∃ t, exec i s = .next t ∧ t.inFlight = some i ∧ t.responses = s.responses ∧ t.status = s.status ∧ t.x = s.x ∧
      t.callsMade = s.callsMade ++ before ++ [k] ∧ t.trace.getLast? = some { call := k, answer := .noReturn }) ∧
  ∀ (s : State) (i : Instr), s.inFlight = some i → ∃ t, step s = .next t ∧ t.responses = s.responses ∧ t.trace = s.trace ∧
    (t.inFlight = some i ∧ t.registers = s.registers ∨
      t.inFlight = none ∧ t.registers = State.reset.registers ∧ t.mem = s.mem ∧ .event .reset ∈ s.inputs)

/-- R190, `93` U8: reset during a port call of a command, after those before it have returned, abandons the command: the registers
take their reset values, no response is given, no further call is made. -/
def Obligations.ResetInCallAbandons : Prop :=
  ∀ (s : State) (i : Instr) (before : List PortCall) (k : PortCall) (rest : List PortCall) (p : PortPlan),
    s.accepts i = true → s.channelRuns i → s.callsOf i = before ++ k :: rest →
    (∀ q ∈ before ++ [k], q.addr.toNat + q.length ≤ 2 ^ 32) →
    (∀ q ∈ s.port.take before.length, q.outcome = .returns) → s.port[before.length]? = some p →
    p.outcome = .resetInCall →
    ∃ t, exec i s = .next t ∧ t.registers = State.reset.registers ∧ t.inFlight = none ∧ t.responses = s.responses ∧
      t.callsMade = s.callsMade ++ before ++ [k] ∧ t.trace.getLast? = some { call := k, answer := .noReturn }

/-- `93` U5, R65 (log 8): a command one of whose port calls runs past the top of the address space, after those before it have
returned, is stuck. -/
def Obligations.CrossingSpanStops : Prop :=
  ∀ (s : State) (i : Instr) (before : List PortCall) (k : PortCall) (rest : List PortCall), s.accepts i = true →
    s.channelRuns i → s.callsOf i = before ++ k :: rest → (∀ q ∈ before, q.addr.toNat + q.length ≤ 2 ^ 32) →
    (∀ q ∈ s.port.take before.length, q.outcome = .returns) → 2 ^ 32 < k.addr.toNat + k.length →
    exec i s = .fault .spanCrossesTop

/-- `93` U1 to U3 (log 6): in a machine with ALLOW_ILL_FORMED false the query and transfer commands are stuck, in Active, on a
channel that is not well-formed. -/
def Obligations.IllFormedChannelStops : Prop :=
  ∀ (s : State) (x : Descriptors) (c : Channel) (data : List Byte) (n : Word), s.status.session = .active → s.x = some x →
    s.cfg.allowIllFormed = false → (x.chan c).wellFormed = false →
    ∀ i ∈ [Instr.empty c, .occ c, .free c, .full c, .enq c data, .peek c n, .deq c n], exec i s = .fault .illFormedChannel

/-- `93` U1 to U3 (log 6), U5 (log 8), R5 (log 7): no command stops but on an ill-formed channel, where the parameter
ALLOW_ILL_FORMED is false, or on a crossing span; and no step refuses but an ENQ payload above the parameter MAX_PAYLOAD, which it
does refuse. -/
def Obligations.StopsListed : Prop :=
  (∀ (s : State) (i : Instr) (r : Fault), exec i s = .fault r →
    (r = .illFormedChannel ∧ s.cfg.allowIllFormed = false ∧ s.status.session = .active ∧
      ∃ x c, s.x = some x ∧ (x.chan c).wellFormed = false) ∨
    (r = .spanCrossesTop ∧ ∃ k ∈ s.callsOf i, 2 ^ 32 < k.addr.toNat + k.length)) ∧
  (∀ (s : State) (i : Instr) (r : Refusal), exec i s ≠ .refused r) ∧
  ∀ (s : State) (r : Refusal), step s = .refused r ↔
    r = .payloadAboveMax ∧ s.inFlight = none ∧
      ∃ (m : Command) (rest : List Input) (c : Channel) (data : List Byte) (n : Nat), s.inputs = .command m :: rest ∧
        decode m = .ok (.enq c data) ∧ s.cfg.maxPayload = some n ∧ n < data.length

/-! ### The snapshot and the streams -/

/-- R81 (a), (c), R152 (c): under the roles of the host and the target's contract, between commands and inside port calls, with
atomic word accesses, every step keeps the snapshot safe as long as the session is not closed, whether the port fails or not. -/
def Obligations.SnapshotStaysSafe : Prop :=
  ∀ (s t : State) (cb : Word) (x : Descriptors) (p q : Peer), s.InSession cb x → s.inFlight = none → s.mem.wf →
    s.cfg.portU32Atomic = true → SnapshotSafe x cb s.mem → s.hostInStep → s.peerInStep x cb p q →
    step s = .next t → t.status.session ≠ .idle → t.inFlight = none →
    ∃ y, t.InSession cb y ∧ SnapshotSafe y cb t.mem

/-- R81 (b), (d), R76: under the same premises every step keeps the two byte streams whole: what DEQ delivers from channel 0 is
what the target produced, in order, none lost or repeated, and what the target consumes from channel 1 is what ENQ accepted. -/
def Obligations.StreamsStayWhole : Prop :=
  ∀ (s t : State) (cb : Word) (x : Descriptors) (h : Streams) (q : Peer), s.InSession cb x → s.inFlight = none → s.mem.wf →
    s.cfg.portU32Atomic = true → SnapshotSafe x cb s.mem → StreamsSafe x cb s.mem h → s.hostInStep →
    s.peerInStep x cb h.peer q → step s = .next t → t.status.session ≠ .idle → t.inFlight = none →
    ∃ y, t.InSession cb y ∧ StreamsSafe y cb t.mem (h.next s t q)

/-- R81, R193, R110 (log 23): OPEN on a control block a correct target has set up, while the target is silent, leaves the snapshot
safe and the streams whole, the bytes in the buffers counting as produced and accepted. -/
def Obligations.OpenStartsStreams : Prop :=
  ∀ (s t : State) (a : Word) (x : Descriptors), s.status.session = .idle → s.targetQuiet 1 →
    exec (.openSession a) s = .next t → t.status.session = .active → t.x = some x → LayoutOk x a →
    x.up.wellFormed = true → x.dn.wellFormed = true →
    t.InSession a x ∧ SnapshotSafe x a t.mem ∧ StreamsSafe x a t.mem (Streams.atOpen x t.mem)

/-- R81 (a), (d): with a safe snapshot the occupancy of the up-channel and the free space of the down-channel, computed from the
registers, are at most the true ones, and both channels are well-formed; with whole streams the bytes delivered are a prefix of
the bytes produced, and the bytes the target has read are a prefix of the bytes accepted. -/
def Obligations.SafeSnapshotIsConservative : Prop :=
  ∀ (x : Descriptors) (cb : Word) (m : Memory), SnapshotSafe x cb m →
    (x.up.occ.toNat ≤ (remoteOffset m cb .up .w - x.up.readOffset).toNat ∧
      x.dn.free.toNat ≤ x.dn.cap.toNat - (x.dn.writeOffset - remoteOffset m cb .dn .r).toNat ∧
      x.up.wellFormed = true ∧ x.dn.wellFormed = true) ∧
    ∀ h : Streams, StreamsSafe x cb m h →
      h.delivered <+: h.peer.produced ∧ h.peer.consumed ++ h.peer.taken <+: h.accepted
end

