-- ==== Sys2Proof/Laws/Memory.lean ====
section
/-!
SUPPORT. Remote memory: read after write, the canonical form is kept by every operation, equal reads make equal memories.
-/

namespace Sys2Proof.Machine

@[simp] theorem Memory.read_nil (a : Nat) : Memory.read [] a = Memory.unlisted := rfl

theorem Memory.wf_nil : Memory.wf [] := by simp [Memory.wf]

theorem Memory.wf_tail {c : Host.Cell} {m : Memory} (h : Memory.wf (c :: m)) : Memory.wf m :=
  ⟨(List.pairwise_cons.mp h.1).2, fun d hd => h.2 d (List.mem_cons_of_mem c hd)⟩

/-- An address below every listed one is not listed. -/
theorem Memory.read_of_lt (m : Memory) (a : Nat) (h : ∀ c ∈ m, a < c.1) : Memory.read m a = Memory.unlisted := by
  induction m with
  | nil => rfl
  | cons c m ih =>
    have hc := h c (List.mem_cons_self ..)
    have : a ≠ c.1 := by omega
    obtain ⟨k, v⟩ := c
    simp only [Memory.read]
    rw [if_neg this]
    exact ih fun d hd => h d (List.mem_cons_of_mem _ hd)

/-- Reading back what was written. -/
theorem Memory.read_write_same (m : Memory) (a : Nat) (b : Byte) (h : Memory.wf m) :
    Memory.read (Memory.write m a b) a = b := by
  induction m with
  | nil => unfold Memory.write; split <;> simp_all [Memory.read]
  | cons c m ih =>
    obtain ⟨k, v⟩ := c
    have hp := (List.pairwise_cons.mp h.1).1
    have later : ∀ c ∈ m, k < c.1 := fun c hc => hp c hc
    simp only [Memory.write]
    split
    · rename_i hlt
      split
      · rename_i hb
        rw [hb]
        apply Memory.read_of_lt
        intro c hc
        rcases List.mem_cons.mp hc with rfl | hc
        · exact hlt
        · have := later c hc; omega
      · simp [Memory.read]
    · split
      · rename_i heq
        split
        · rename_i hb
          rw [hb]
          apply Memory.read_of_lt
          intro c hc
          have := later c hc; omega
        · simp [Memory.read]
      · rename_i hne
        simp only [Memory.read, if_neg hne]
        exact ih (Memory.wf_tail h)

/-- A write leaves every other address alone. -/
theorem Memory.read_write_other (m : Memory) {a a' : Nat} (b : Byte) (h : a' ≠ a) :
    Memory.read (Memory.write m a b) a' = Memory.read m a' := by
  induction m with
  | nil => unfold Memory.write; split <;> simp [Memory.read, h]
  | cons c m ih =>
    obtain ⟨k, v⟩ := c
    simp only [Memory.write]
    split
    · split
      · rfl
      · simp [Memory.read, h]
    · split
      · rename_i heq
        subst heq
        split <;> simp [Memory.read, h]
      · simp only [Memory.read]
        split
        · rfl
        · exact ih

theorem Memory.write_mem (m : Memory) (a : Nat) (b : Byte) (c : Host.Cell) (h : c ∈ Memory.write m a b) :
    c ∈ m ∨ (c = (a, b) ∧ b ≠ Memory.unlisted) := by
  induction m with
  | nil =>
    unfold Memory.write at h
    split at h
    · exact absurd h (List.not_mem_nil)
    · exact .inr ⟨List.mem_singleton.mp h, ‹_›⟩
  | cons d m ih =>
    obtain ⟨k, v⟩ := d
    simp only [Memory.write] at h
    split at h
    · split at h
      · exact .inl h
      · rcases List.mem_cons.mp h with rfl | h
        · exact .inr ⟨rfl, ‹_›⟩
        · exact .inl h
    · split at h
      · split at h
        · exact .inl (List.mem_cons_of_mem _ h)
        · rcases List.mem_cons.mp h with rfl | h
          · exact .inr ⟨rfl, ‹_›⟩
          · exact .inl (List.mem_cons_of_mem _ h)
      · rcases List.mem_cons.mp h with rfl | h
        · exact .inl (List.mem_cons_self ..)
        · exact (ih h).imp (List.mem_cons_of_mem _) id

/-- A write keeps the canonical form. -/
theorem Memory.wf_write (m : Memory) (a : Nat) (b : Byte) (ha : a < 2 ^ 32) (h : Memory.wf m) :
    Memory.wf (Memory.write m a b) := by
  refine ⟨?_, fun c hc => ?_⟩
  · induction m with
    | nil => unfold Memory.write; split <;> simp
    | cons d m ih =>
      obtain ⟨k, v⟩ := d
      have hp := (List.pairwise_cons.mp h.1).1
      simp only [Memory.write]
      split
      · rename_i hlt
        split
        · exact h.1
        · refine List.pairwise_cons.mpr ⟨fun c hc => ?_, h.1⟩
          rcases List.mem_cons.mp hc with rfl | hc
          · exact hlt
          · have := hp c hc; simp only at this; simp only; omega
      · split
        · rename_i heq
          subst heq
          split
          · exact (Memory.wf_tail h).1
          · exact List.pairwise_cons.mpr ⟨fun c hc => hp c hc, (Memory.wf_tail h).1⟩
        · refine List.pairwise_cons.mpr ⟨fun c hc => ?_, ih (Memory.wf_tail h)⟩
          rcases Memory.write_mem m a b c hc with hc | ⟨rfl, -⟩
          · exact hp c hc
          · simp only; omega
  · rcases Memory.write_mem m a b c hc with hc | ⟨rfl, hb⟩
    · exact h.2 c hc
    · exact ⟨ha, hb⟩

/-- In canonical form, a listed address does not read as an unlisted one. -/
theorem Memory.read_head_ne {c : Host.Cell} {m : Memory} (h : Memory.wf (c :: m)) :
    Memory.read (c :: m) c.1 ≠ Memory.unlisted := by
  obtain ⟨k, v⟩ := c
  simpa [Memory.read] using (h.2 (k, v) (List.mem_cons_self ..)).2

/-- Memories in canonical form that read alike are equal. -/
theorem Memory.eq_of_read_eq (m n : Memory) (hm : Memory.wf m) (hn : Memory.wf n)
    (h : ∀ a, Memory.read m a = Memory.read n a) : m = n := by
  induction m generalizing n with
  | nil =>
    cases n with
    | nil => rfl
    | cons c n => exact absurd (h c.1).symm (Memory.read_head_ne hn)
  | cons c m ih =>
    cases n with
    | nil => exact absurd (h c.1) (Memory.read_head_ne hm)
    | cons d n =>
      have below (e : Host.Cell) (l : Memory) (hl : Memory.wf (e :: l)) (a : Nat) (ha : a < e.1) :
          Memory.read (e :: l) a = Memory.unlisted := by
        refine Memory.read_of_lt _ _ fun f hf => ?_
        rcases List.mem_cons.mp hf with rfl | hf
        · exact ha
        · exact Nat.lt_trans ha ((List.pairwise_cons.mp hl.1).1 f hf)
      have hk : c.1 = d.1 := by
        rcases Nat.lt_trichotomy c.1 d.1 with hlt | heq | hgt
        · exact absurd ((h c.1).trans (below d n hn c.1 hlt)) (Memory.read_head_ne hm)
        · exact heq
        · exact absurd ((h d.1).symm.trans (below c m hm d.1 hgt)) (Memory.read_head_ne hn)
      obtain ⟨k, v⟩ := c
      obtain ⟨k', w⟩ := d
      obtain rfl : k = k' := hk
      have hv : v = w := by simpa [Memory.read] using h k
      subst hv
      congr 1
      refine ih n (Memory.wf_tail hm) (Memory.wf_tail hn) fun a => ?_
      by_cases ha : a = k
      · subst ha
        rw [Memory.read_of_lt m a fun c hc => (List.pairwise_cons.mp hm.1).1 c hc,
          Memory.read_of_lt n a fun c hc => (List.pairwise_cons.mp hn.1).1 c hc]
      · simpa [Memory.read, ha] using h a

/-! ### The target's steps -/

theorem foldl_write_wf {α : Type} (f : α → Nat) (g : α → Byte) (l : List α) (m : Memory) (hl : ∀ c ∈ l, f c < 2 ^ 32)
    (h : Memory.wf m) : Memory.wf (l.foldl (fun m c => Memory.write m (f c) (g c)) m) := by
  induction l generalizing m with
  | nil => exact h
  | cons c l ih =>
    exact ih _ (fun d hd => hl d (List.mem_cons_of_mem c hd)) (Memory.wf_write m _ _ (hl c (List.mem_cons_self ..)) h)

theorem foldl_write_read_other {α : Type} (f : α → Nat) (g : α → Byte) (l : List α) (m : Memory) (a : Nat)
    (hl : ∀ c ∈ l, f c ≠ a) : Memory.read (l.foldl (fun m c => Memory.write m (f c) (g c)) m) a = Memory.read m a := by
  induction l generalizing m with
  | nil => rfl
  | cons c l ih =>
    rw [List.foldl_cons, ih _ fun d hd => hl d (List.mem_cons_of_mem c hd),
      Memory.read_write_other _ _ (hl c (List.mem_cons_self ..)).symm]

theorem TargetStep.apply_wf (t : TargetStep) (m : Memory) (h : m.wf) : (t.apply m).wf :=
  foldl_write_wf _ _ _ _ (fun c _ => c.1.isLt) h

theorem TargetStep.apply_read_other (t : TargetStep) (m : Memory) (a : Nat) (h : ∀ c ∈ t.cells, c.1.toNat ≠ a) :
    (t.apply m).read a = m.read a := foldl_write_read_other _ _ _ _ _ h

theorem applySteps_wf (ts : List TargetStep) (m : Memory) (h : m.wf) : (applySteps ts m).wf := by
  induction ts generalizing m with
  | nil => exact h
  | cons t ts ih => exact ih _ (t.apply_wf m h)

theorem applySteps_read_other (ts : List TargetStep) (m : Memory) (a : Nat)
    (h : ∀ t ∈ ts, ∀ c ∈ t.cells, c.1.toNat ≠ a) : (applySteps ts m).read a = m.read a := by
  induction ts generalizing m with
  | nil => rfl
  | cons t ts ih =>
    exact (ih _ fun u hu => h u (List.mem_cons_of_mem t hu)).trans
      (t.apply_read_other m a (h t (List.mem_cons_self ..)))

/-! ### The bytes of a port call, among the target's steps -/

theorem writeTimed_wf (ws : List TimedByte) (m : Memory) (hw : ∀ w ∈ ws, w.addr < 2 ^ 32) (h : m.wf) :
    (writeTimed ws m).wf := foldl_write_wf _ _ _ _ hw h

theorem writeTimed_read_other (ws : List TimedByte) (m : Memory) (a : Nat) (hw : ∀ w ∈ ws, w.addr ≠ a) :
    (writeTimed ws m).read a = m.read a := foldl_write_read_other _ _ _ _ _ hw

theorem weave_wf (ws : List TimedByte) (ts : List TargetStep) (k : Nat) (m : Memory) (hw : ∀ w ∈ ws, w.addr < 2 ^ 32)
    (h : m.wf) : (weave ws ts k m).wf := by
  induction ts generalizing k m with
  | nil => exact writeTimed_wf _ _ (fun w h => hw w (List.mem_of_mem_filter h)) h
  | cons t ts ih =>
    exact ih _ _ (t.apply_wf _ (writeTimed_wf _ _ (fun w h => hw w (List.mem_of_mem_filter h)) h))

theorem weave_read_other (ws : List TimedByte) (ts : List TargetStep) (k : Nat) (m : Memory) (a : Nat)
    (hw : ∀ w ∈ ws, w.addr ≠ a) (ht : ∀ t ∈ ts, ∀ c ∈ t.cells, c.1.toNat ≠ a) :
    (weave ws ts k m).read a = m.read a := by
  induction ts generalizing k m with
  | nil => exact writeTimed_read_other _ _ _ fun w h => hw w (List.mem_of_mem_filter h)
  | cons t ts ih =>
    refine (ih _ _ fun u hu => ht u (List.mem_cons_of_mem t hu)).trans
      ((t.apply_read_other _ a (ht t (List.mem_cons_self ..))).trans ?_)
    exact writeTimed_read_other _ _ _ fun w h => hw w (List.mem_of_mem_filter h)

/-- A call that stores nothing leaves what the target leaves. -/
theorem weave_nil (ts : List TargetStep) (k : Nat) (m : Memory) : weave [] ts k m = applySteps ts m := by
  induction ts generalizing k m with
  | nil => rfl
  | cons t ts ih => exact ih _ _

/-- With a silent target all bytes of a call are written, in order. -/
theorem weave_quiet (ws : List TimedByte) (m : Memory) : weave ws [] 0 m = writeTimed ws m := by
  simp [weave]

/-- The addresses of a call's bytes are those of its span. -/
theorem timedBytes_addr (f : Nat → Nat) (g : Nat → Bool) (bs : List Byte) (a i : Nat) (w : TimedByte)
    (h : w ∈ timedBytes f g a i bs) : a ≤ w.addr ∧ w.addr < a + bs.length := by
  induction bs generalizing a i with
  | nil => exact absurd h (List.not_mem_nil)
  | cons b bs ih =>
    simp only [timedBytes] at h
    have step (h : w ∈ timedBytes f g (a + 1) (i + 1) bs) : a ≤ w.addr ∧ w.addr < a + (b :: bs).length := by
      have := ih _ _ h
      simp only [List.length_cons]
      omega
    split at h
    · rcases List.mem_cons.mp h with rfl | h
      · simp
      · exact step h
    · exact step h

/-- A span written whole by a silent port: byte `j` is at its address. -/
theorem writeTimed_read_span (f : Nat → Nat) (g : Nat → Bool) (hg : ∀ i, g i = true) (bs : List Byte) (a i : Nat) (m : Memory)
    (hm : m.wf) (ha : a + bs.length ≤ 2 ^ 32) (j : Nat) (hj : j < bs.length) :
    (writeTimed (timedBytes f g a i bs) m).read (a + j) = bs[j] := by
  induction bs generalizing a i m j with
  | nil => exact absurd hj (Nat.not_lt_zero j)
  | cons b bs ih =>
    simp only [List.length_cons] at ha hj
    have hw : Memory.wf (Memory.write m a b) := Memory.wf_write m a b (by omega) hm
    have e : writeTimed (timedBytes f g a i (b :: bs)) m
        = writeTimed (timedBytes f g (a + 1) (i + 1) bs) (Memory.write m a b) := by
      simp [timedBytes, hg, writeTimed]
    rw [e]
    cases j with
    | zero =>
      rw [writeTimed_read_other]
      · exact Memory.read_write_same m a b hm
      · intro w h
        have := timedBytes_addr _ _ _ _ _ _ h
        omega
    | succ j =>
      have := ih (a + 1) (i + 1) _ hw (by omega) j (by omega)
      rw [show a + (j + 1) = a + 1 + j by omega, this]
      rfl

end Sys2Proof.Machine
end

