-- ==== Sys2Proof/Laws/State.lean ====
section
/-!
SUPPORT. What each update of the state does to each field, and the small lemmas of the descriptor accessors.
-/

namespace Sys2Proof.Machine

/-! ### `respond` writes only the responses. -/

@[simp] theorem State.respond_cfg (s : State) (code : StatusCode) (v : Word) (p : List Byte) :
    (s.respond code v p).cfg = s.cfg := rfl
@[simp] theorem State.respond_x (s : State) (code : StatusCode) (v : Word) (p : List Byte) :
    (s.respond code v p).x = s.x := rfl
@[simp] theorem State.respond_cbAddr (s : State) (code : StatusCode) (v : Word) (p : List Byte) :
    (s.respond code v p).cbAddr = s.cbAddr := rfl
@[simp] theorem State.respond_status (s : State) (code : StatusCode) (v : Word) (p : List Byte) :
    (s.respond code v p).status = s.status := rfl
@[simp] theorem State.respond_fcmd (s : State) (code : StatusCode) (v : Word) (p : List Byte) :
    (s.respond code v p).fcmd = s.fcmd := rfl
@[simp] theorem State.respond_faddr (s : State) (code : StatusCode) (v : Word) (p : List Byte) :
    (s.respond code v p).faddr = s.faddr := rfl
@[simp] theorem State.respond_inFlight (s : State) (code : StatusCode) (v : Word) (p : List Byte) :
    (s.respond code v p).inFlight = s.inFlight := rfl
@[simp] theorem State.respond_mem (s : State) (code : StatusCode) (v : Word) (p : List Byte) :
    (s.respond code v p).mem = s.mem := rfl
@[simp] theorem State.respond_inputs (s : State) (code : StatusCode) (v : Word) (p : List Byte) :
    (s.respond code v p).inputs = s.inputs := rfl
@[simp] theorem State.respond_port (s : State) (code : StatusCode) (v : Word) (p : List Byte) :
    (s.respond code v p).port = s.port := rfl
@[simp] theorem State.respond_trace (s : State) (code : StatusCode) (v : Word) (p : List Byte) :
    (s.respond code v p).trace = s.trace := rfl
@[simp] theorem State.respond_responses (s : State) (code : StatusCode) (v : Word) (p : List Byte) :
    (s.respond code v p).responses = s.responses ++ [{ code := code, result := v, payload := p }] := rfl

/-! ### A port call writes memory, the plans and the trace; no register. -/

@[simp] theorem State.afterCall_cfg (s : State) (c : PortCall) (w : Bool) (ans : PortAnswer) :
    (s.afterCall c w ans).cfg = s.cfg := rfl
@[simp] theorem State.afterCall_x (s : State) (c : PortCall) (w : Bool) (ans : PortAnswer) :
    (s.afterCall c w ans).x = s.x := rfl
@[simp] theorem State.afterCall_cbAddr (s : State) (c : PortCall) (w : Bool) (ans : PortAnswer) :
    (s.afterCall c w ans).cbAddr = s.cbAddr := rfl
@[simp] theorem State.afterCall_status (s : State) (c : PortCall) (w : Bool) (ans : PortAnswer) :
    (s.afterCall c w ans).status = s.status := rfl
@[simp] theorem State.afterCall_fcmd (s : State) (c : PortCall) (w : Bool) (ans : PortAnswer) :
    (s.afterCall c w ans).fcmd = s.fcmd := rfl
@[simp] theorem State.afterCall_faddr (s : State) (c : PortCall) (w : Bool) (ans : PortAnswer) :
    (s.afterCall c w ans).faddr = s.faddr := rfl
@[simp] theorem State.afterCall_inFlight (s : State) (c : PortCall) (w : Bool) (ans : PortAnswer) :
    (s.afterCall c w ans).inFlight = s.inFlight := rfl
@[simp] theorem State.afterCall_mem (s : State) (c : PortCall) (w : Bool) (ans : PortAnswer) :
    (s.afterCall c w ans).mem = s.memAfter c w := rfl
@[simp] theorem State.afterCall_inputs (s : State) (c : PortCall) (w : Bool) (ans : PortAnswer) :
    (s.afterCall c w ans).inputs = s.inputs := rfl
@[simp] theorem State.afterCall_port (s : State) (c : PortCall) (w : Bool) (ans : PortAnswer) :
    (s.afterCall c w ans).port = s.port.tail := rfl
@[simp] theorem State.afterCall_trace (s : State) (c : PortCall) (w : Bool) (ans : PortAnswer) :
    (s.afterCall c w ans).trace = s.trace ++ [{ call := c, answer := ans }] := rfl
@[simp] theorem State.afterCall_responses (s : State) (c : PortCall) (w : Bool) (ans : PortAnswer) :
    (s.afterCall c w ans).responses = s.responses := rfl

/-! ### CLOSE discards the registers. -/

@[simp] theorem State.discard_cfg (s : State) :
    s.discard.cfg = s.cfg := rfl
@[simp] theorem State.discard_x (s : State) :
    s.discard.x = none := rfl
@[simp] theorem State.discard_cbAddr (s : State) :
    s.discard.cbAddr = none := rfl
@[simp] theorem State.discard_status (s : State) :
    s.discard.status = { session := .idle, dvalid := false, fprim := none } := rfl
@[simp] theorem State.discard_fcmd (s : State) :
    s.discard.fcmd = none := rfl
@[simp] theorem State.discard_faddr (s : State) :
    s.discard.faddr = none := rfl
@[simp] theorem State.discard_inFlight (s : State) :
    s.discard.inFlight = s.inFlight := rfl
@[simp] theorem State.discard_mem (s : State) :
    s.discard.mem = s.mem := rfl
@[simp] theorem State.discard_inputs (s : State) :
    s.discard.inputs = s.inputs := rfl
@[simp] theorem State.discard_port (s : State) :
    s.discard.port = s.port := rfl
@[simp] theorem State.discard_trace (s : State) :
    s.discard.trace = s.trace := rfl
@[simp] theorem State.discard_responses (s : State) :
    s.discard.responses = s.responses := rfl

/-! ### Reset discards the registers and the command in flight. -/

@[simp] theorem State.resetBlock_cfg (s : State) :
    s.resetBlock.cfg = s.cfg := rfl
@[simp] theorem State.resetBlock_x (s : State) :
    s.resetBlock.x = none := rfl
@[simp] theorem State.resetBlock_cbAddr (s : State) :
    s.resetBlock.cbAddr = none := rfl
@[simp] theorem State.resetBlock_status (s : State) :
    s.resetBlock.status = { session := .idle, dvalid := false, fprim := none } := rfl
@[simp] theorem State.resetBlock_fcmd (s : State) :
    s.resetBlock.fcmd = none := rfl
@[simp] theorem State.resetBlock_faddr (s : State) :
    s.resetBlock.faddr = none := rfl
@[simp] theorem State.resetBlock_inFlight (s : State) :
    s.resetBlock.inFlight = none := rfl
@[simp] theorem State.resetBlock_mem (s : State) :
    s.resetBlock.mem = s.mem := rfl
@[simp] theorem State.resetBlock_inputs (s : State) :
    s.resetBlock.inputs = s.inputs := rfl
@[simp] theorem State.resetBlock_port (s : State) :
    s.resetBlock.port = s.port := rfl
@[simp] theorem State.resetBlock_trace (s : State) :
    s.resetBlock.trace = s.trace := rfl
@[simp] theorem State.resetBlock_responses (s : State) :
    s.resetBlock.responses = s.responses := rfl

/-! ### The entry of a TransportError keeps the descriptor registers, CB_ADDR and memory. -/

@[simp] theorem State.raise_cfg (s : State) (k : Word) (prim : Prim) (addr : Word) :
    (s.raiseTransportError k prim addr).cfg = s.cfg := rfl
@[simp] theorem State.raise_x (s : State) (k : Word) (prim : Prim) (addr : Word) :
    (s.raiseTransportError k prim addr).x = s.x := rfl
@[simp] theorem State.raise_cbAddr (s : State) (k : Word) (prim : Prim) (addr : Word) :
    (s.raiseTransportError k prim addr).cbAddr = s.cbAddr := rfl
@[simp] theorem State.raise_status (s : State) (k : Word) (prim : Prim) (addr : Word) :
    (s.raiseTransportError k prim addr).status = { s.status with session := .faulted, fprim := some prim } := rfl
@[simp] theorem State.raise_fcmd (s : State) (k : Word) (prim : Prim) (addr : Word) :
    (s.raiseTransportError k prim addr).fcmd = some k := rfl
@[simp] theorem State.raise_faddr (s : State) (k : Word) (prim : Prim) (addr : Word) :
    (s.raiseTransportError k prim addr).faddr = some addr := rfl
@[simp] theorem State.raise_inFlight (s : State) (k : Word) (prim : Prim) (addr : Word) :
    (s.raiseTransportError k prim addr).inFlight = s.inFlight := rfl
@[simp] theorem State.raise_mem (s : State) (k : Word) (prim : Prim) (addr : Word) :
    (s.raiseTransportError k prim addr).mem = s.mem := rfl
@[simp] theorem State.raise_inputs (s : State) (k : Word) (prim : Prim) (addr : Word) :
    (s.raiseTransportError k prim addr).inputs = s.inputs := rfl
@[simp] theorem State.raise_port (s : State) (k : Word) (prim : Prim) (addr : Word) :
    (s.raiseTransportError k prim addr).port = s.port := rfl
@[simp] theorem State.raise_trace (s : State) (k : Word) (prim : Prim) (addr : Word) :
    (s.raiseTransportError k prim addr).trace = s.trace := rfl
@[simp] theorem State.raise_responses (s : State) (k : Word) (prim : Prim) (addr : Word) :
    (s.raiseTransportError k prim addr).responses = s.responses ++ [{ code := .transportError, result := addr, payload := [] }] := rfl

/-! ### One offset register. -/

@[simp] theorem State.setOffset_cfg (s : State) (c : Channel) (f : OffsetField) (v : Word) :
    (s.setOffset c f v).cfg = s.cfg := rfl
@[simp] theorem State.setOffset_x (s : State) (c : Channel) (f : OffsetField) (v : Word) :
    (s.setOffset c f v).x = s.x.map fun x => x.setOffset c f v := rfl
@[simp] theorem State.setOffset_cbAddr (s : State) (c : Channel) (f : OffsetField) (v : Word) :
    (s.setOffset c f v).cbAddr = s.cbAddr := rfl
@[simp] theorem State.setOffset_status (s : State) (c : Channel) (f : OffsetField) (v : Word) :
    (s.setOffset c f v).status = s.status := rfl
@[simp] theorem State.setOffset_fcmd (s : State) (c : Channel) (f : OffsetField) (v : Word) :
    (s.setOffset c f v).fcmd = s.fcmd := rfl
@[simp] theorem State.setOffset_faddr (s : State) (c : Channel) (f : OffsetField) (v : Word) :
    (s.setOffset c f v).faddr = s.faddr := rfl
@[simp] theorem State.setOffset_inFlight (s : State) (c : Channel) (f : OffsetField) (v : Word) :
    (s.setOffset c f v).inFlight = s.inFlight := rfl
@[simp] theorem State.setOffset_mem (s : State) (c : Channel) (f : OffsetField) (v : Word) :
    (s.setOffset c f v).mem = s.mem := rfl
@[simp] theorem State.setOffset_inputs (s : State) (c : Channel) (f : OffsetField) (v : Word) :
    (s.setOffset c f v).inputs = s.inputs := rfl
@[simp] theorem State.setOffset_port (s : State) (c : Channel) (f : OffsetField) (v : Word) :
    (s.setOffset c f v).port = s.port := rfl
@[simp] theorem State.setOffset_trace (s : State) (c : Channel) (f : OffsetField) (v : Word) :
    (s.setOffset c f v).trace = s.trace := rfl
@[simp] theorem State.setOffset_responses (s : State) (c : Channel) (f : OffsetField) (v : Word) :
    (s.setOffset c f v).responses = s.responses := rfl

/-! ### A step of the target writes memory only. -/

@[simp] theorem State.environment_target_cfg (s : State) (t : TargetStep) :
    (s.environment (.target t)).cfg = s.cfg := rfl
@[simp] theorem State.environment_target_x (s : State) (t : TargetStep) :
    (s.environment (.target t)).x = s.x := rfl
@[simp] theorem State.environment_target_cbAddr (s : State) (t : TargetStep) :
    (s.environment (.target t)).cbAddr = s.cbAddr := rfl
@[simp] theorem State.environment_target_status (s : State) (t : TargetStep) :
    (s.environment (.target t)).status = s.status := rfl
@[simp] theorem State.environment_target_fcmd (s : State) (t : TargetStep) :
    (s.environment (.target t)).fcmd = s.fcmd := rfl
@[simp] theorem State.environment_target_faddr (s : State) (t : TargetStep) :
    (s.environment (.target t)).faddr = s.faddr := rfl
@[simp] theorem State.environment_target_inFlight (s : State) (t : TargetStep) :
    (s.environment (.target t)).inFlight = s.inFlight := rfl
@[simp] theorem State.environment_target_mem (s : State) (t : TargetStep) :
    (s.environment (.target t)).mem = t.apply s.mem := rfl
@[simp] theorem State.environment_target_inputs (s : State) (t : TargetStep) :
    (s.environment (.target t)).inputs = s.inputs := rfl
@[simp] theorem State.environment_target_port (s : State) (t : TargetStep) :
    (s.environment (.target t)).port = s.port := rfl
@[simp] theorem State.environment_target_trace (s : State) (t : TargetStep) :
    (s.environment (.target t)).trace = s.trace := rfl
@[simp] theorem State.environment_target_responses (s : State) (t : TargetStep) :
    (s.environment (.target t)).responses = s.responses := rfl

@[simp] theorem State.environment_reset (s : State) : s.environment .reset = s.resetBlock := rfl

/-! ### Descriptor accessors -/

@[simp] theorem Descriptors.chan_setChan_same (x : Descriptors) (d : Descriptor) (c : Channel) :
    (x.setChan d c).chan c = d := by cases c <;> rfl

theorem Descriptors.chan_setChan_other (x : Descriptors) (d : Descriptor) {c c' : Channel} (h : c' ≠ c) :
    (x.setChan d c).chan c' = x.chan c' := by cases c <;> cases c' <;> first | rfl | exact absurd rfl h

@[simp] theorem Descriptors.setChan_chan (x : Descriptors) (c : Channel) : x.setChan (x.chan c) c = x := by
  cases c <;> rfl

@[simp] theorem Descriptors.chan_setOffset_same (x : Descriptors) (c : Channel) (f : OffsetField) (v : Word) :
    (x.setOffset c f v).chan c = (x.chan c).setOffset v f := by
  simp [Descriptors.setOffset]

theorem Descriptors.chan_setOffset_other (x : Descriptors) {c c' : Channel} (f : OffsetField) (v : Word) (h : c' ≠ c) :
    (x.setOffset c f v).chan c' = x.chan c' := Descriptors.chan_setChan_other x _ h

@[simp] theorem Descriptor.setOffset_capacityMask (d : Descriptor) (v : Word) (f : OffsetField) :
    (d.setOffset v f).capacityMask = d.capacityMask := by cases f <;> rfl

@[simp] theorem Descriptor.setOffset_elementSize (d : Descriptor) (v : Word) (f : OffsetField) :
    (d.setOffset v f).elementSize = d.elementSize := by cases f <;> rfl

@[simp] theorem Descriptor.setOffset_bufferBase (d : Descriptor) (v : Word) (f : OffsetField) :
    (d.setOffset v f).bufferBase = d.bufferBase := by cases f <;> rfl

@[simp] theorem Descriptor.get_setOffset_same (d : Descriptor) (v : Word) (f : OffsetField) :
    (d.setOffset v f).get f.desc = v := by cases f <;> rfl

end Sys2Proof.Machine
end

