-- ==== Sys2Proof/Laws/Port.lean ====
section
/-!
SUPPORT. Port calls: how each can end, what it leaves unchanged, and how the command it belongs to ends.
-/

namespace Sys2Proof.Machine

/-! ### What a port call leaves unchanged -/

/-- `t` differs from `s` at most in memory, plans and trace. -/
structure SameBlock (s t : State) : Prop where
  cfg : t.cfg = s.cfg
  x : t.x = s.x
  cbAddr : t.cbAddr = s.cbAddr
  status : t.status = s.status
  fcmd : t.fcmd = s.fcmd
  faddr : t.faddr = s.faddr
  inFlight : t.inFlight = s.inFlight
  inputs : t.inputs = s.inputs
  responses : t.responses = s.responses

theorem SameBlock.refl (s : State) : SameBlock s s := ⟨rfl, rfl, rfl, rfl, rfl, rfl, rfl, rfl, rfl⟩

theorem SameBlock.trans {s t u : State} (h : SameBlock s t) (k : SameBlock t u) : SameBlock s u :=
  ⟨k.cfg.trans h.cfg, k.x.trans h.x, k.cbAddr.trans h.cbAddr, k.status.trans h.status, k.fcmd.trans h.fcmd,
    k.faddr.trans h.faddr, k.inFlight.trans h.inFlight, k.inputs.trans h.inputs, k.responses.trans h.responses⟩

theorem afterCall_sameBlock (s : State) (c : PortCall) (w : Bool) (ans : PortAnswer) : SameBlock s (s.afterCall c w ans) :=
  ⟨rfl, rfl, rfl, rfl, rfl, rfl, rfl, rfl, rfl⟩

theorem PortCall.stored_length_le (c : PortCall) : c.stored.length ≤ c.length := by
  cases c <;> simp [PortCall.stored, PortCall.length, bytesLe32]

/-- A call below the top of the address space keeps memory canonical. -/
theorem memAfter_wf (s : State) (c : PortCall) (w : Bool) (hc : c.crossesTop = false) (h : s.mem.wf) :
    (s.memAfter c w).wf := by
  refine weave_wf _ _ _ _ (fun b hb => ?_) h
  have := timedBytes_addr _ _ _ _ _ _ hb
  have := c.stored_length_le
  simp only [PortCall.crossesTop, decide_eq_false_iff_not, Nat.not_lt] at hc
  omega

/-- Outside the bytes it stores, a call changes only what the target changes during it. -/
theorem memAfter_read_other (s : State) (c : PortCall) (w : Bool) (a : Nat)
    (ha : ¬ (c.addr.toNat ≤ a ∧ a < c.addr.toNat + c.stored.length))
    (ht : ∀ t ∈ s.plan.during, ∀ d ∈ t.cells, d.1.toNat ≠ a) : (s.memAfter c w).read a = s.mem.read a := by
  refine weave_read_other _ _ _ _ _ (fun b hb => ?_) ht
  have := timedBytes_addr _ _ _ _ _ _ hb
  omega

/-- With a silent target a reading call leaves memory as it is (R79). -/
theorem memAfter_read_call (s : State) (c : PortCall) (w : Bool) (hc : c.stored = []) (hq : s.plan.during = []) :
    s.memAfter c w = s.mem := by
  simp [State.memAfter, State.timedWrites, hc, hq, timedBytes, weave, writeTimed]

/-! ### How a call ends -/

/-- `P` holds of the state a call ends in, whatever way it ends (nothing is said of a stuck one). -/
def Call.holds {α : Type} (P : State → Prop) : Call α → Prop
  | .returned _ s => P s
  | .failed _ _ s => P s
  | .cutByReset s => P s
  | .hung s => P s
  | .stuck _ => True

theorem Call.holds_mono {α : Type} {P Q : State → Prop} (c : Call α) (h : c.holds P) (hpq : ∀ s, P s → Q s) :
    c.holds Q := by
  cases c <;> first | exact hpq _ h | trivial

theorem Call.bind_holds {α β : Type} {P : State → Prop} (c : Call α) (k : α → State → Call β) (h : c.holds P)
    (hk : ∀ a s, P s → (k a s).holds P) : (c.bind k).holds P := by
  cases c <;> first | exact hk _ _ h | exact h

theorem portCall_holds {α : Type} (P : State → Prop) (c : PortCall) (ans : PortAnswer) (v : α) (s : State)
    (h : ∀ w b, c.crossesTop = false → P (s.afterCall c w b)) : (portCall c ans v s).holds P := by
  unfold portCall
  split
  · trivial
  · have hc : c.crossesTop = false := Bool.eq_false_iff.mpr ‹_›
    split <;> exact h _ _ hc

/-- A call below the top of the address space whose plan says so returns. -/
theorem portCall_returned {α : Type} (c : PortCall) (ans : PortAnswer) (v : α) (s : State) (hc : c.crossesTop = false)
    (h : s.plan.outcome = .returns) : portCall c ans v s = .returned v (s.afterCall c true ans) := by
  simp [portCall, hc, PortPlan.verdict, h]

/-- A call below the top of the address space whose plan says so fails. -/
theorem portCall_failed {α : Type} (c : PortCall) (ans : PortAnswer) (v : α) (s : State) (hc : c.crossesTop = false)
    (h : s.plan.outcome = .fails) :
    portCall c ans v s = .failed c.prim c.addr (s.afterCall c false .failed) := by
  simp [portCall, hc, PortPlan.verdict, h]

theorem State.plan_of_port {s : State} {p : PortPlan} (h : s.port[0]? = some p) : s.plan = p := by
  cases hp : s.port with
  | nil => simp [hp] at h
  | cons q qs => simpa [State.plan, hp] using h

/-- A plan that does not return stands in the list. -/
theorem State.port_of_plan {s : State} (h : s.plan.outcome ≠ .returns) : s.port[0]? = some s.plan := by
  cases hp : s.port with
  | nil => exact absurd (by simp [State.plan, hp, PortPlan.quiet]) h
  | cons q qs => simp [State.plan, hp]

/-- A call is cut by reset, or hangs, only by its own plan's outcome. -/
theorem PortPlan.verdict_reset {p : PortPlan} {cfg : Config} (h : p.verdict cfg = .resetInCall) : p.outcome = .resetInCall := by
  unfold PortPlan.verdict at h
  split at h <;> first | assumption | (split at h <;> simp at h) | simp at h

theorem PortPlan.verdict_hung {p : PortPlan} {cfg : Config} (h : p.verdict cfg = .neverReturns) :
    p.outcome = .neverReturns ∧ cfg.portLiveness = false := by
  unfold PortPlan.verdict at h
  split at h <;> try (simp at h; done)
  split at h
  · simp at h
  · exact ⟨‹_›, Bool.eq_false_iff.mpr ‹_›⟩

@[simp] theorem applySteps_nil (m : Memory) : applySteps [] m = m := rfl

@[simp] theorem applySteps_cons (t : TargetStep) (ts : List TargetStep) (m : Memory) :
    applySteps (t :: ts) m = applySteps ts (t.apply m) := rfl

@[simp] theorem applySteps_append (ts us : List TargetStep) (m : Memory) :
    applySteps (ts ++ us) m = applySteps us (applySteps ts m) := List.foldl_append

@[simp] theorem Descriptor.bytesFrom_length (d : Descriptor) (v : Word) (n : Nat) (m : Memory) :
    (d.bytesFrom v n m).length = n := by simp [Descriptor.bytesFrom]

@[simp] theorem Descriptor.contents_length (d : Descriptor) (m : Memory) : (d.contents m).length = d.occ.toNat := by
  simp [Descriptor.contents]

/-- What the target does in the next `n + 1` calls: what the next plan says, and then the plans after it. -/
theorem State.stepsIn_succ (s : State) (n : Nat) (c : PortCall) (w : Bool) (ans : PortAnswer) :
    s.stepsIn (n + 1) = s.plan.during ++ (s.afterCall c w ans).stepsIn n := by
  cases hp : s.port with
  | nil => simp [State.stepsIn, State.plan, State.afterCall, hp, PortPlan.quiet]
  | cons q qs => simp [State.stepsIn, State.plan, State.afterCall, hp]

@[simp] theorem State.stepsIn_zero (s : State) : s.stepsIn 0 = [] := rfl

theorem portReturns_plan (s : State) (n : Nat) (h : s.portReturns (n + 1)) : s.plan.outcome = .returns := by
  cases hp : s.port with
  | nil => simp [State.plan, hp, PortPlan.quiet]
  | cons p ps => simpa [State.plan, hp] using h p (by simp [hp])

theorem portReturns_afterCall (s : State) (n : Nat) (c : PortCall) (w : Bool) (ans : PortAnswer) (h : s.portReturns (n + 1)) :
    (s.afterCall c w ans).portReturns n := by
  intro p hp
  cases hs : s.port with
  | nil => simp [State.afterCall, hs] at hp
  | cons q qs =>
    refine h p ?_
    simp only [hs, List.take_succ_cons]
    exact List.mem_cons_of_mem _ (by simpa [State.afterCall, hs] using hp)

theorem targetQuiet_succ (s : State) (n : Nat) (c : PortCall) (w : Bool) (ans : PortAnswer) :
    s.targetQuiet (n + 1) ↔ s.plan.during = [] ∧ (s.afterCall c w ans).targetQuiet n := by
  simp [State.targetQuiet, s.stepsIn_succ n c w ans]

theorem targetTouches_succ (s : State) (n a : Nat) (c : PortCall) (w : Bool) (ans : PortAnswer) :
    s.targetTouches (n + 1) a ↔
      (∃ t ∈ s.plan.during, ∃ d ∈ t.cells, d.1.toNat = a) ∨ (s.afterCall c w ans).targetTouches n a := by
  simp only [State.targetTouches, s.stepsIn_succ n c w ans, List.mem_append, or_and_right, exists_or]

/-! ### Copies -/

/-- What holds along every sequence of port calls holds of a copy-in. -/
theorem copyIn_holds (R : State → State → Prop) (hr : ∀ s, R s s) (ht : ∀ s t u, R s t → R t u → R s u)
    (hc : ∀ s c w b, c.crossesTop = false → R s (s.afterCall c w b)) (g : Segments) (data : List Byte) (s : State) :
    (copyIn g data s).holds (R s) := by
  have seg (addr : Word) (bs : List Byte) (t : State) : (memWrite addr bs t).holds (R t) := by
    unfold memWrite portWrite
    split
    · exact hr t
    · exact portCall_holds _ _ _ _ _ fun w b h => hc t _ w b h
  exact Call.bind_holds _ _ (seg _ _ s) fun _ t h => Call.holds_mono _ (seg _ _ t) fun u hu => ht _ _ _ h hu

/-- What holds along every sequence of port calls holds of a copy-out. -/
theorem copyOut_holds (R : State → State → Prop) (hr : ∀ s, R s s) (ht : ∀ s t u, R s t → R t u → R s u)
    (hc : ∀ s c w b, c.crossesTop = false → R s (s.afterCall c w b)) (g : Segments) (s : State) :
    (copyOut g s).holds (R s) := by
  have seg (addr : Word) (n : Nat) (t : State) : (memRead addr n t).holds (R t) := by
    unfold memRead portRead
    split
    · exact hr t
    · exact portCall_holds _ _ _ _ _ fun w b h => hc t _ w b h
  refine Call.bind_holds _ _ (seg _ _ s) fun _ t h => ?_
  exact Call.bind_holds _ _ (Call.holds_mono _ (seg _ _ t) fun u hu => ht _ _ _ h hu) fun _ u hu => hu

/-! ### How the command ends -/

/-- The five ways a command with port calls ends, as far as it has a next state. -/
theorem Call.finish_next {α : Type} {i : Instr} {c : Call α} {k : α → State → Host.Outcome State Fault Refusal} {t : State}
    (h : c.finish i k = .next t) :
    (∃ a s, c = .returned a s ∧ k a s = .next t)
      ∨ (∃ prim addr s, c = .failed prim addr s ∧ t = s.raiseTransportError i.cmdWord prim addr)
      ∨ (∃ s, c = .cutByReset s ∧ t = s.resetBlock)
      ∨ (∃ s, c = .hung s ∧ t = { s with inFlight := some i }) := by
  cases c with
  | returned a s => exact .inl ⟨a, s, rfl, h⟩
  | failed prim addr s => exact .inr (.inl ⟨prim, addr, s, rfl, (Host.Outcome.next.inj h).symm⟩)
  | cutByReset s => exact .inr (.inr (.inl ⟨s, rfl, (Host.Outcome.next.inj h).symm⟩))
  | hung s => exact .inr (.inr (.inr ⟨s, rfl, (Host.Outcome.next.inj h).symm⟩))
  | stuck r => exact absurd h (by simp [Call.finish])

/-- A command that needs Active, as far as it has a next state: refused, or run on the registers. -/
theorem State.whenActive_next {s t : State} {k : Descriptors → Host.Outcome State Fault Refusal}
    (h : s.whenActive k = .next t) :
    ((s.status.session ≠ .active ∨ s.x = none) ∧ t = s.respond .badState s.status.word [])
      ∨ (s.status.session = .active ∧ ∃ x, s.x = some x ∧ k x = .next t) := by
  unfold State.whenActive at h
  split at h
  · rename_i ha
    split at h
    · rename_i x hx
      exact .inr ⟨ha, x, hx, h⟩
    · rename_i hx
      exact .inl ⟨.inr hx, (Host.Outcome.next.inj h).symm⟩
  · exact .inl ⟨.inl ‹_›, (Host.Outcome.next.inj h).symm⟩

theorem State.whenActive_eq {s : State} {x : Descriptors} (ha : s.status.session = .active) (hx : s.x = some x)
    (k : Descriptors → Host.Outcome State Fault Refusal) : s.whenActive k = k x := by
  simp [State.whenActive, ha, hx]

/-- `whenActive_next` for the queries and transfers. -/
theorem State.whenChannel_next {s t : State} {c : Channel}
    {k : Descriptors → Descriptor → Host.Outcome State Fault Refusal} (h : s.whenChannel c k = .next t) :
    ((s.status.session ≠ .active ∨ s.x = none) ∧ t = s.respond .badState s.status.word [])
      ∨ (s.status.session = .active ∧ ∃ x, s.x = some x ∧ k x (x.chan c) = .next t) := by
  rcases State.whenActive_next h with h | ⟨ha, x, hx, h⟩
  · exact .inl h
  · split at h
    · exact .inr ⟨ha, x, hx, h⟩
    · exact absurd h (by simp)

theorem State.whenChannel_eq {s : State} {x : Descriptors} {c : Channel} (ha : s.status.session = .active)
    (hx : s.x = some x) (hr : s.runsOn (x.chan c)) (k : Descriptors → Descriptor → Host.Outcome State Fault Refusal) :
    s.whenChannel c k = k x (x.chan c) := by
  have hr : (s.cfg.allowIllFormed || (x.chan c).wellFormed) = true := by
    rcases hr with h | h <;> simp [h]
  rw [State.whenChannel, State.whenActive_eq ha hx, if_pos hr]

/-- `whenActive_next` for RFSH and PUB. -/
theorem State.whenSync_next {s t : State} {k : Word → Descriptors → Host.Outcome State Fault Refusal}
    (h : s.whenSync k = .next t) :
    ((s.status.session ≠ .active ∨ s.x = none ∨ s.cbAddr = none) ∧ t = s.respond .badState s.status.word [])
      ∨ (s.status.session = .active ∧ ∃ x cb, s.x = some x ∧ s.cbAddr = some cb ∧ k cb x = .next t) := by
  rcases State.whenActive_next h with ⟨h, e⟩ | ⟨ha, x, hx, h⟩
  · exact .inl ⟨h.imp id .inl, e⟩
  · split at h
    · rename_i cb hcb
      exact .inr ⟨ha, x, cb, hx, hcb, h⟩
    · rename_i hcb
      exact .inl ⟨.inr (.inr hcb), (Host.Outcome.next.inj h).symm⟩

theorem State.whenSync_eq {s : State} {x : Descriptors} {cb : Word} (ha : s.status.session = .active)
    (hx : s.x = some x) (hc : s.cbAddr = some cb) (k : Word → Descriptors → Host.Outcome State Fault Refusal) :
    s.whenSync k = k cb x := by
  simp [State.whenSync, State.whenActive_eq ha hx, hc]

end Sys2Proof.Machine
end

