-- ==== Sys2Proof/Laws/Exec.lean ====
section
/-!
SUPPORT. What a sequence of port calls can do, and, once for all twelve commands, what a command can do (`execEnd_of_next`):
every claim about a command starts from it.
-/

namespace Sys2Proof.Machine

/-! ### Sequences of port calls -/

/-- `t` is reached from `s` by the port calls recorded in the list, each of which returned with the answer recorded. -/
inductive CallsMade : State → List PortEvent → State → Prop where
  | nil (s : State) : CallsMade s [] s
  | cons (s : State) (c : PortCall) (ans : PortAnswer) (es : List PortEvent) (t : State)
      (hc : c.crossesTop = false) (hv : s.plan.verdict s.cfg = .returns) (h : CallsMade (s.afterCall c true ans) es t) :
      CallsMade s ({ call := c, answer := ans } :: es) t

theorem CallsMade.append {s t u : State} {es fs : List PortEvent} (h : CallsMade s es t) (k : CallsMade t fs u) :
    CallsMade s (es ++ fs) u := by
  induction h with
  | nil s => exact k
  | cons s c ans es t hc hv _ ih => exact .cons s c ans _ u hc hv (ih k)

theorem CallsMade.one (s : State) (c : PortCall) (ans : PortAnswer) (hc : c.crossesTop = false)
    (hv : s.plan.verdict s.cfg = .returns) : CallsMade s [{ call := c, answer := ans }] (s.afterCall c true ans) :=
  .cons s c ans [] _ hc hv (.nil _)

theorem CallsMade.sameBlock {s t : State} {es : List PortEvent} (h : CallsMade s es t) : SameBlock s t := by
  induction h with
  | nil s => exact .refl s
  | cons s c ans es t hc _ _ ih => exact (afterCall_sameBlock s c true ans).trans ih

theorem CallsMade.trace {s t : State} {es : List PortEvent} (h : CallsMade s es t) : t.trace = s.trace ++ es := by
  induction h with
  | nil s => simp
  | cons s c ans es t hc _ _ ih => simp [ih]

theorem CallsMade.wf {s t : State} {es : List PortEvent} (h : CallsMade s es t) (hs : s.mem.wf) : t.mem.wf := by
  induction h with
  | nil s => exact hs
  | cons s c ans es t hc _ _ ih => exact ih (memAfter_wf s c true hc hs)

/-- Port calls use plans up, one each, from the front. -/
theorem CallsMade.port {s t : State} {es : List PortEvent} (h : CallsMade s es t) : t.port = s.port.drop es.length := by
  induction h with
  | nil s => rfl
  | cons s c ans es t hc _ _ ih => rw [ih]; simp [State.afterCall]

/-- The plan of the call that follows, where it does not return. -/
theorem CallsMade.port_next {s t : State} {es : List PortEvent} (h : CallsMade s es t) (ht : t.plan.outcome ≠ .returns) :
    s.port[es.length]? = some t.plan := by
  have := State.port_of_plan ht
  rw [h.port, List.getElem?_drop] at this
  simpa using this

/-- Outside the bytes they store, port calls change only what the target changes during them. -/
theorem CallsMade.read_other {s t : State} {es : List PortEvent} (h : CallsMade s es t) (n a : Nat) (hl : es.length ≤ n)
    (ha : ∀ e ∈ es, ¬ (e.call.addr.toNat ≤ a ∧ a < e.call.addr.toNat + e.call.stored.length))
    (hn : ¬ s.targetTouches n a) : t.mem.read a = s.mem.read a := by
  induction h generalizing n with
  | nil s => rfl
  | cons s c ans es t hc _ _ ih =>
    obtain ⟨n, rfl⟩ : ∃ m, n = m + 1 := ⟨n - 1, by simp at hl; omega⟩
    rw [targetTouches_succ s n a c true ans, not_or] at hn
    refine (ih n (by simpa using hl) (fun e he => ha e (List.mem_cons_of_mem _ he)) hn.2).trans ?_
    exact memAfter_read_other s c true a (ha _ (List.mem_cons_self ..)) fun t ht d hd e => hn.1 ⟨t, ht, d, hd, e⟩

/-! ### How a sequence of calls ends -/

/-- The calls of the list are made in order from `s` on; all of them if the result is returned, and up to the one that did not
return otherwise. -/
def Call.Runs {α : Type} (s : State) (calls : List PortCall) : Call α → Prop
  | .returned _ u => ∃ es, es.map PortEvent.call = calls ∧ CallsMade s es u
  | .failed p a u => ∃ es k rest v, es.map PortEvent.call ++ k :: rest = calls ∧ p = k.prim ∧ a = k.addr ∧
      CallsMade s es v ∧ k.crossesTop = false ∧ v.plan.verdict v.cfg = .fails ∧ u = v.afterCall k false .failed
  | .cutByReset u => ∃ es k rest v, es.map PortEvent.call ++ k :: rest = calls ∧
      CallsMade s es v ∧ k.crossesTop = false ∧ v.plan.outcome = .resetInCall ∧ u = v.afterCall k false .noReturn
  | .hung u => s.cfg.portLiveness = false ∧ ∃ es k rest v, es.map PortEvent.call ++ k :: rest = calls ∧
      CallsMade s es v ∧ k.crossesTop = false ∧ v.plan.outcome = .neverReturns ∧ u = v.afterCall k false .noReturn
  | .stuck r => r = .spanCrossesTop ∧ ∃ k ∈ calls, k.crossesTop = true

theorem portCall_runs {α : Type} (c : PortCall) (ans : PortAnswer) (v : α) (s : State) :
    (portCall c ans v s).Runs s [c] := by
  unfold portCall
  split
  · exact ⟨rfl, c, List.mem_singleton.mpr rfl, ‹_›⟩
  · have hc : c.crossesTop = false := Bool.eq_false_iff.mpr ‹_›
    split <;> rename_i hv
    · exact ⟨_, rfl, .one s c ans hc hv⟩
    · exact ⟨[], c, [], s, rfl, rfl, rfl, .nil s, hc, hv, rfl⟩
    · exact ⟨[], c, [], s, rfl, .nil s, hc, PortPlan.verdict_reset hv, rfl⟩
    · exact ⟨(PortPlan.verdict_hung hv).2, [], c, [], s, rfl, .nil s, hc, (PortPlan.verdict_hung hv).1, rfl⟩

theorem Call.bind_runs {α β : Type} {s : State} {l1 l2 : List PortCall} (c : Call α) (k : α → State → Call β)
    (h : c.Runs s l1) (hk : ∀ a u, (k a u).Runs u l2) : (c.bind k).Runs s (l1 ++ l2) := by
  cases c with
  | returned a u =>
    obtain ⟨es, rfl, hm⟩ := h
    have := hk a u
    have hcfg := hm.sameBlock.cfg
    simp only [Call.bind]
    cases hr : k a u with
    | returned b w =>
      rw [hr] at this
      obtain ⟨fs, rfl, hn⟩ := this
      exact ⟨es ++ fs, by simp, hm.append hn⟩
    | failed p a' w =>
      rw [hr] at this
      obtain ⟨fs, q, rest, v, rfl, hp, ha, hn, hc, e⟩ := this
      exact ⟨es ++ fs, q, rest, v, by simp, hp, ha, hm.append hn, hc, e⟩
    | cutByReset w =>
      rw [hr] at this
      obtain ⟨fs, q, rest, v, rfl, hn, hc, e⟩ := this
      exact ⟨es ++ fs, q, rest, v, by simp, hm.append hn, hc, e⟩
    | hung w =>
      rw [hr] at this
      obtain ⟨hl, fs, q, rest, v, rfl, hn, hc, e⟩ := this
      exact ⟨hcfg ▸ hl, es ++ fs, q, rest, v, by simp, hm.append hn, hc, e⟩
    | stuck r =>
      rw [hr] at this
      obtain ⟨e, q, hq, hc⟩ := this
      exact ⟨e, q, List.mem_append_right _ hq, hc⟩
  | failed p a u =>
    obtain ⟨es, q, rest, v, rfl, hp, ha, hn, hc, e⟩ := h
    exact ⟨es, q, rest ++ l2, v, by simp, hp, ha, hn, hc, e⟩
  | cutByReset u =>
    obtain ⟨es, q, rest, v, rfl, hn, hc, e⟩ := h
    exact ⟨es, q, rest ++ l2, v, by simp, hn, hc, e⟩
  | hung u =>
    obtain ⟨hl, es, q, rest, v, rfl, hn, hc, e⟩ := h
    exact ⟨hl, es, q, rest ++ l2, v, by simp, hn, hc, e⟩
  | stuck r =>
    obtain ⟨e, q, hq, hc⟩ := h
    exact ⟨e, q, List.mem_append_left _ hq, hc⟩

theorem memRead_runs (addr : Word) (n : Nat) (s : State) :
    (memRead addr n s).Runs s (if 0 < n then [.read addr n] else []) := by
  cases n with
  | zero => exact ⟨[], rfl, .nil s⟩
  | succ n => exact portCall_runs _ _ _ _

theorem memWrite_runs (addr : Word) (data : List Byte) (n : Nat) (hn : data.length = n) (s : State) :
    (memWrite addr data s).Runs s (if 0 < n then [.write addr data] else []) := by
  subst hn
  cases data with
  | nil => exact ⟨[], rfl, .nil s⟩
  | cons b bs => exact portCall_runs _ _ _ _

/-- A copy-out makes the reads of its segments. -/
theorem copyOut_runs (g : Segments) (s : State) : (copyOut g s).Runs s g.readCalls := by
  refine Call.bind_runs _ _ (memRead_runs _ _ s) fun s1 t => ?_
  have := Call.bind_runs (memRead g.addr2 g.rest t) (fun s2 u => Call.returned (s1 ++ s2) u) (memRead_runs _ _ t)
    (l2 := []) fun a u => ⟨[], rfl, .nil u⟩
  simpa using this

/-- A copy-in of exactly the bytes of its segments makes their writes. -/
theorem copyIn_runs (g : Segments) (data : List Byte) (hl : data.length = g.first + g.rest) (s : State) :
    (copyIn g data s).Runs s (g.writeCalls data) := by
  refine Call.bind_runs _ _ (memWrite_runs _ _ g.first ?_ s) fun _ t => memWrite_runs _ _ g.rest ?_ t
  · simp [hl]
  · simp [hl]

theorem Descriptor.segments_first_le (d : Descriptor) (v : Word) (n : Nat) : (d.segments v n).first ≤ n := by
  simp [Descriptor.segments]

/-- The two segments together are the whole copy (R130). -/
theorem Descriptor.segments_total (d : Descriptor) (v : Word) (n : Nat) :
    (d.segments v n).first + (d.segments v n).rest = n := by
  have := d.segments_first_le v n
  simp only [Descriptor.segments] at this ⊢
  omega

/-- A copy-out that returns gives as many bytes as its segments have. -/
theorem copyOut_length (g : Segments) (s u : State) (bytes : List Byte) (h : copyOut g s = .returned bytes u) :
    bytes.length = g.first + g.rest := by
  have seg (addr : Word) (n : Nat) (t w : State) (b : List Byte) (h : memRead addr n t = .returned b w) : b.length = n := by
    unfold memRead at h
    split at h
    · cases h; subst_vars; rfl
    · unfold portRead portCall at h
      split at h
      · exact absurd h (by simp)
      · split at h <;> cases h
        simp [State.bytesSeen]
  unfold copyOut at h
  cases h1 : memRead g.addr1 g.first s with
  | returned b1 t =>
    rw [h1] at h
    simp only [Call.bind] at h
    cases h2 : memRead g.addr2 g.rest t with
    | returned b2 w =>
      rw [h2] at h
      cases h
      rw [List.length_append, seg _ _ _ _ _ h1, seg _ _ _ _ _ h2]
    | failed _ _ _ => rw [h2] at h; cases h
    | cutByReset _ => rw [h2] at h; cases h
    | hung _ => rw [h2] at h; cases h
    | stuck _ => rw [h2] at h; cases h
  | failed _ _ _ => rw [h1] at h; cases h
  | cutByReset _ => rw [h1] at h; cases h
  | hung _ => rw [h1] at h; cases h
  | stuck _ => rw [h1] at h; cases h

/-! ### What a command can do -/

/-- The state in which a command's port calls begin: OPEN has written CB_ADDR (R110). -/
def State.begun (s : State) : Instr → State
  | .openSession a => { s with cbAddr := some a }
  | _ => s

@[simp] theorem State.begun_x (s : State) (i : Instr) : (s.begun i).x = s.x := by cases i <;> rfl
@[simp] theorem State.begun_cfg (s : State) (i : Instr) : (s.begun i).cfg = s.cfg := by cases i <;> rfl
@[simp] theorem State.begun_status (s : State) (i : Instr) : (s.begun i).status = s.status := by cases i <;> rfl
@[simp] theorem State.begun_fcmd (s : State) (i : Instr) : (s.begun i).fcmd = s.fcmd := by cases i <;> rfl
@[simp] theorem State.begun_faddr (s : State) (i : Instr) : (s.begun i).faddr = s.faddr := by cases i <;> rfl
@[simp] theorem State.begun_inFlight (s : State) (i : Instr) : (s.begun i).inFlight = s.inFlight := by cases i <;> rfl
@[simp] theorem State.begun_mem (s : State) (i : Instr) : (s.begun i).mem = s.mem := by cases i <;> rfl
@[simp] theorem State.begun_inputs (s : State) (i : Instr) : (s.begun i).inputs = s.inputs := by cases i <;> rfl
@[simp] theorem State.begun_port (s : State) (i : Instr) : (s.begun i).port = s.port := by cases i <;> rfl
@[simp] theorem State.begun_trace (s : State) (i : Instr) : (s.begun i).trace = s.trace := by cases i <;> rfl
@[simp] theorem State.begun_responses (s : State) (i : Instr) : (s.begun i).responses = s.responses := by cases i <;> rfl

/-- CB_ADDR before a command's port calls, but for OPEN. -/
theorem State.begun_cbAddr (s : State) (i : Instr) (h : ∀ a, i ≠ .openSession a) : (s.begun i).cbAddr = s.cbAddr := by
  cases i <;> first | rfl | exact absurd rfl (h _)

/-- What a transfer or synchronisation command does to the descriptor registers and answers when its port calls have returned. -/
def Completes (i : Instr) (x y : Descriptors) (v : Word) (p : List Byte) : Prop :=
  match i with
  | .enq c data => v = BitVec.ofNat 32 (enqCount (x.chan c) data) ∧ p = [] ∧
      y = x.setOffset c .w ((x.chan c).writeOffset + v)
  | .peek c n => v = BitVec.ofNat 32 (peekCount (x.chan c) n) ∧ p.length = peekCount (x.chan c) n ∧ y = x
  | .deq c n => v = BitVec.ofNat 32 (peekCount (x.chan c) n) ∧ p.length = peekCount (x.chan c) n ∧
      y = x.setOffset c .r ((x.chan c).readOffset + v)
  | .rfsh c f => p = [] ∧ y = x.setOffset c f v
  | .pub c f => v = (x.chan c).get f.desc ∧ p = [] ∧ y = x
  | _ => False

/-- The commands that answer from the registers alone. -/
def isRegisterRead : Instr → Bool
  | .rdr _ => true
  | .empty _ => true
  | .occ _ => true
  | .free _ => true
  | .full _ => true
  | _ => false

/-- Everything a command can do, as far as it has a next state. -/
inductive ExecEnd (i : Instr) (s : State) : State → Prop where
  /-- BAD_STATE (R164), in a state that meets the invariant only where the table of R164 says so -/
  | refused (h : s.Inv → s.inFlight = none → s.accepts i = false) : ExecEnd i s (s.respond .badState s.status.word [])
  /-- a query or RDR -/
  | answered (v : Word) (h : isRegisterRead i = true) (ha : s.accepts i = true) : ExecEnd i s (s.respond .ok v [])
  /-- CLOSE -/
  | closed (h : i = .closeSession) : ExecEnd i s (s.discard.respond .ok 0 [])
  /-- OPEN whose read returned -/
  | opened (a : Word) (bytes : List Byte) (u : State) (h : i = .openSession a) (ha : s.accepts i = true)
      (hu : CallsMade (s.begun i) [{ call := .read (a + 16) 40, answer := .bytes bytes }] u) :
      ExecEnd i s (State.respond
        { u with
          x := some (descriptorsOfSpan bytes)
          status := { u.status with session := .active, dvalid := true } } .ok 0 [])
  /-- a transfer or synchronisation command all of whose calls returned -/
  | completed (x y : Descriptors) (v : Word) (p : List Byte) (es : List PortEvent) (u : State)
      (ha : s.status.session = .active) (hx : s.x = some x) (hc : Completes i x y v p)
      (he : es.map PortEvent.call = s.callsOf i) (hu : CallsMade s es u) :
      ExecEnd i s (State.respond { u with x := some y } .ok v p)
  /-- a port call failed -/
  | faulted (es : List PortEvent) (k : PortCall) (rest : List PortCall) (v : State) (ha : s.accepts i = true)
      (hi : s.status.session = .active ∨ ∃ a, i = .openSession a)
      (he : es.map PortEvent.call ++ k :: rest = s.callsOf i) (hv : CallsMade (s.begun i) es v) (hc : k.crossesTop = false)
      (hp : v.plan.verdict v.cfg = .fails) :
      ExecEnd i s ((v.afterCall k false .failed).raiseTransportError i.cmdWord k.prim k.addr)
  /-- the block was reset in a port call -/
  | cut (es : List PortEvent) (k : PortCall) (rest : List PortCall) (v : State) (ha : s.accepts i = true)
      (he : es.map PortEvent.call ++ k :: rest = s.callsOf i) (hv : CallsMade (s.begun i) es v) (hc : k.crossesTop = false)
      (hp : v.plan.outcome = .resetInCall) :
      ExecEnd i s (v.afterCall k false .noReturn).resetBlock
  /-- a port call does not return -/
  | hung (es : List PortEvent) (k : PortCall) (rest : List PortCall) (v : State) (ha : s.accepts i = true)
      (hi : s.status.session = .active ∨ ∃ a, i = .openSession a)
      (hl : s.cfg.portLiveness = false)
      (he : es.map PortEvent.call ++ k :: rest = s.callsOf i) (hv : CallsMade (s.begun i) es v) (hc : k.crossesTop = false)
      (hp : v.plan.outcome = .neverReturns) :
      ExecEnd i s { v.afterCall k false .noReturn with inFlight := some i }

theorem Inv_active {s : State} (h : s.Inv) (ha : s.status.session = .active) :
    s.status.dvalid = true ∧ (∃ x, s.x = some x) ∧ ∃ cb, s.cbAddr = some cb := by
  obtain ⟨hs, hr, -, -⟩ := h
  have hd : s.status.dvalid = true := by
    cases hst : s.status with
    | mk a b c =>
      rw [hst] at hs ha
      simp only at ha
      subst ha
      revert hs
      cases b <;> cases c <;> simp [Status.legal]
  simp only [State.registersValid, ha, hd, Bool.and_eq_true, beq_iff_eq] at hr
  refine ⟨hd, Option.isSome_iff_exists.mp (by simpa using hr.1.1.1), Option.isSome_iff_exists.mp ?_⟩
  rw [hr.1.1.2]
  rfl

/-- The end of a command with port calls. -/
theorem execEnd_of_runs {α : Type} {i : Instr} {s t : State} {c : Call α} {k : α → State → Host.Outcome State Fault Refusal}
    (hr : c.Runs (s.begun i) (s.callsOf i)) (ha : s.accepts i = true)
    (hi : s.status.session = .active ∨ ∃ a, i = .openSession a) (h : c.finish i k = .next t)
    (hd : ∀ a u, c = .returned a u → k a u = .next t → ExecEnd i s t) : ExecEnd i s t := by
  have hcfg := s.begun_cfg i
  rcases Call.finish_next h with ⟨a, u, rfl, hk⟩ | ⟨p, a, u, rfl, rfl⟩ | ⟨u, rfl, rfl⟩ | ⟨u, rfl, rfl⟩
  · exact hd a u rfl hk
  · obtain ⟨es, q, rest, v, he, rfl, rfl, hm, hc, hp, rfl⟩ := hr
    exact .faulted es q rest v ha hi he hm hc hp
  · obtain ⟨es, q, rest, v, he, hm, hc, hp, rfl⟩ := hr
    exact .cut es q rest v ha he hm hc hp
  · obtain ⟨hl, es, q, rest, v, he, hm, hc, hp, rfl⟩ := hr
    exact .hung es q rest v ha hi (hcfg ▸ hl) he hm hc hp

theorem execOpen_end (a : Word) {s t : State} (h : execOpen a s = .next t) : ExecEnd (.openSession a) s t := by
  unfold execOpen at h
  split at h
  · rename_i hs
    have ha : s.accepts (.openSession a) = true := by simp [State.accepts, hs]
    refine execEnd_of_runs (portCall_runs _ _ _ _) ha (.inr ⟨a, rfl⟩) h fun bytes u e hk => ?_
    have hb : u = (s.begun (.openSession a)).afterCall (.read (a + 16) 40) true (.bytes bytes)
        ∧ (PortCall.read (a + 16) 40).crossesTop = false ∧ (s.begun (.openSession a)).plan.verdict s.cfg = .returns := by
      unfold portRead portCall at e
      split at e
      · cases e
      · rename_i hc
        split at e <;> cases e
        exact ⟨rfl, Bool.eq_false_iff.mpr hc, ‹_›⟩
    cases hk
    exact .opened a bytes u rfl ha (hb.1 ▸ .one _ _ _ hb.2.1 hb.2.2)
  · rename_i hs
    cases h
    exact .refused fun _ _ => by simp [State.accepts, hs]

theorem execRdr_end (r : Reg) {s t : State} (h : execRdr r s = .next t) : ExecEnd (.rdr r) s t := by
  unfold execRdr at h
  split at h
  · rename_i v hv
    cases h
    refine .answered v rfl ?_
    cases r <;> simp_all [State.readReg, State.accepts]
  · rename_i hv
    cases h
    refine .refused fun hi hf => ?_
    have hr := hi.registers
    simp only [State.registersValid, State.openInFlight, hf, Bool.and_eq_true, beq_iff_eq] at hr
    cases r with
    | desc c k =>
      by_cases hd : s.status.dvalid = true
      · simp only [State.readReg, hd, if_true, Option.map_eq_none_iff] at hv
        simp [hv, hd] at hr
      · simpa [State.accepts] using hd
    | cbAddr =>
      by_cases hd : s.status.session = .idle
      · simp [State.accepts, hd]
      · simp only [State.readReg, hd, if_false] at hv
        simp [hv, hd] at hr
    | status => simp [State.readReg] at hv
    | fcmd =>
      by_cases hd : s.status.session = .faulted
      · simp only [State.readReg, hd, if_true] at hv
        simp [hv, hd] at hr
      · simp [State.accepts, hd]
    | faddr =>
      by_cases hd : s.status.session = .faulted
      · simp only [State.readReg, hd, if_true] at hv
        simp [hv, hd] at hr
      · simp [State.accepts, hd]

theorem whenChannel_refused {s : State} {i : Instr} (hi : ∀ s : State, s.accepts i = (s.status.session == .active))
    (h : s.status.session ≠ .active ∨ s.x = none) : s.Inv → s.inFlight = none → s.accepts i = false := by
  intro hv _
  by_cases ha : s.status.session = .active
  · obtain ⟨-, ⟨x, hx⟩, -⟩ := Inv_active hv ha
    exact absurd (h.resolve_left (not_not_intro ha)) (by simp [hx])
  · simp [hi, ha]

theorem query_end {i : Instr} {c : Channel} {s t : State} {f : Descriptor → Word}
    (hi : ∀ s : State, s.accepts i = (s.status.session == .active)) (hr : isRegisterRead i = true)
    (h : s.whenChannel c (fun _ d => s.respondOk (f d) []) = .next t) : ExecEnd i s t := by
  rcases State.whenChannel_next h with ⟨hs, rfl⟩ | ⟨ha, x, -, hk⟩
  · exact .refused (whenChannel_refused hi hs)
  · cases hk
    exact .answered _ hr (by simp [hi, ha])

theorem execEnq_end (c : Channel) (data : List Byte) {s t : State} (h : execEnq c data s = .next t) :
    ExecEnd (.enq c data) s t := by
  unfold execEnq at h
  rcases State.whenChannel_next h with ⟨hs, rfl⟩ | ⟨ha, x, hx, hk⟩
  · exact .refused (whenChannel_refused (fun _ => rfl) hs)
  · have hl : (data.take (enqCount (x.chan c) data)).length
        = (enqSegments (x.chan c) data).first + (enqSegments (x.chan c) data).rest := by
      rw [enqSegments, Descriptor.segments_total, List.length_take]
      exact Nat.min_eq_left (Nat.min_le_left ..)
    have hr := copyIn_runs _ _ hl s
    have hcalls : s.callsOf (.enq c data)
        = (enqSegments (x.chan c) data).writeCalls (data.take (enqCount (x.chan c) data)) := by
      simp [State.callsOf, hx]
    rw [← hcalls] at hr
    refine execEnd_of_runs hr (by simp [State.accepts, ha]) (.inl ha) hk fun _ u e hk => ?_
    obtain ⟨es, he, hm⟩ : ∃ es, es.map PortEvent.call = s.callsOf (.enq c data) ∧ CallsMade s es u := by
      simpa [Call.Runs, e] using (show (copyIn _ _ s).Runs s _ from hr)
    cases hk
    have := hm.sameBlock.x
    rw [State.setOffset, this, hx]
    exact .completed x _ _ _ es u ha hx ⟨rfl, rfl, rfl⟩ he hm

theorem execPeek_end (c : Channel) (n : Word) {s t : State} (h : execPeek c n s = .next t) : ExecEnd (.peek c n) s t := by
  unfold execPeek at h
  rcases State.whenChannel_next h with ⟨hs, rfl⟩ | ⟨ha, x, hx, hk⟩
  · exact .refused (whenChannel_refused (fun _ => rfl) hs)
  · have hr := copyOut_runs (peekSegments (x.chan c) n) s
    have hcalls : s.callsOf (.peek c n) = (peekSegments (x.chan c) n).readCalls := by simp [State.callsOf, hx]
    rw [← hcalls] at hr
    refine execEnd_of_runs hr (by simp [State.accepts, ha]) (.inl ha) hk fun bytes u e hk => ?_
    obtain ⟨es, he, hm⟩ : ∃ es, es.map PortEvent.call = s.callsOf (.peek c n) ∧ CallsMade s es u := by
      simpa [Call.Runs, e] using (show (copyOut _ s).Runs s _ from hr)
    cases hk
    have hx' : { u with x := some x } = u := by rw [← hx, ← hm.sameBlock.x]
    have := ExecEnd.completed (i := .peek c n) x x _ bytes es u ha hx
      ⟨rfl, by rw [copyOut_length _ _ _ _ e, peekSegments, Descriptor.segments_total], rfl⟩ he hm
    rwa [hx'] at this

theorem execDeq_end (c : Channel) (n : Word) {s t : State} (h : execDeq c n s = .next t) : ExecEnd (.deq c n) s t := by
  unfold execDeq at h
  rcases State.whenChannel_next h with ⟨hs, rfl⟩ | ⟨ha, x, hx, hk⟩
  · exact .refused (whenChannel_refused (fun _ => rfl) hs)
  · have hr := copyOut_runs (peekSegments (x.chan c) n) s
    have hcalls : s.callsOf (.deq c n) = (peekSegments (x.chan c) n).readCalls := by simp [State.callsOf, hx]
    rw [← hcalls] at hr
    refine execEnd_of_runs hr (by simp [State.accepts, ha]) (.inl ha) hk fun bytes u e hk => ?_
    obtain ⟨es, he, hm⟩ : ∃ es, es.map PortEvent.call = s.callsOf (.deq c n) ∧ CallsMade s es u := by
      simpa [Call.Runs, e] using (show (copyOut _ s).Runs s _ from hr)
    cases hk
    rw [State.setOffset, hm.sameBlock.x, hx]
    exact .completed x _ _ bytes es u ha hx ⟨rfl, by rw [copyOut_length _ _ _ _ e, peekSegments, Descriptor.segments_total], rfl⟩ he hm

theorem whenSync_refused {s : State} {i : Instr} (hi : ∀ s : State, s.accepts i = (s.status.session == .active))
    (h : s.status.session ≠ .active ∨ s.x = none ∨ s.cbAddr = none) : s.Inv → s.inFlight = none → s.accepts i = false := by
  intro hv _
  by_cases ha : s.status.session = .active
  · obtain ⟨-, ⟨x, hx⟩, cb, hcb⟩ := Inv_active hv ha
    rcases h.resolve_left (not_not_intro ha) with h | h
    · exact absurd h (by simp [hx])
    · exact absurd h (by simp [hcb])
  · simp [hi, ha]

theorem execRfsh_end (c : Channel) (f : OffsetField) {s t : State} (h : execRfsh c f s = .next t) :
    ExecEnd (.rfsh c f) s t := by
  unfold execRfsh at h
  rcases State.whenSync_next h with ⟨hs, rfl⟩ | ⟨ha, x, cb, hx, hcb, hk⟩
  · exact .refused (whenSync_refused (fun _ => rfl) hs)
  · have hcalls : s.callsOf (.rfsh c f) = [.readU32 (fieldAddr cb c f.desc)] := by simp [State.callsOf, hx, hcb]
    have hr : (portReadU32 (fieldAddr cb c f.desc) s).Runs s (s.callsOf (.rfsh c f)) := hcalls ▸ portCall_runs _ _ _ _
    refine execEnd_of_runs hr (by simp [State.accepts, ha]) (.inl ha) hk fun v u e hk => ?_
    obtain ⟨es, he, hm⟩ : ∃ es, es.map PortEvent.call = s.callsOf (.rfsh c f) ∧ CallsMade s es u := by
      simpa [Call.Runs, e] using hr
    cases hk
    rw [State.setOffset, hm.sameBlock.x, hx]
    exact .completed x _ _ [] es u ha hx ⟨rfl, rfl⟩ he hm

theorem execPub_end (c : Channel) (f : OffsetField) {s t : State} (h : execPub c f s = .next t) :
    ExecEnd (.pub c f) s t := by
  unfold execPub at h
  rcases State.whenSync_next h with ⟨hs, rfl⟩ | ⟨ha, x, cb, hx, hcb, hk⟩
  · exact .refused (whenSync_refused (fun _ => rfl) hs)
  · have hcalls : s.callsOf (.pub c f) = [.writeU32 (fieldAddr cb c f.desc) ((x.chan c).get f.desc)] := by
      simp [State.callsOf, hx, hcb]
    have hr : (portWriteU32 (fieldAddr cb c f.desc) ((x.chan c).get f.desc) s).Runs s (s.callsOf (.pub c f)) :=
      hcalls ▸ portCall_runs _ _ _ _
    refine execEnd_of_runs hr (by simp [State.accepts, ha]) (.inl ha) hk fun v u e hk => ?_
    obtain ⟨es, he, hm⟩ : ∃ es, es.map PortEvent.call = s.callsOf (.pub c f) ∧ CallsMade s es u := by
      simpa [Call.Runs, e] using hr
    cases hk
    have hx' : { u with x := some x } = u := by rw [← hx, ← hm.sameBlock.x]
    have := ExecEnd.completed (i := .pub c f) x x _ [] es u ha hx ⟨rfl, rfl, rfl⟩ he hm
    rwa [hx'] at this

/-- Everything a command can do: the one inversion of `exec`. -/
theorem execEnd_of_next {i : Instr} {s t : State} (h : exec i s = .next t) : ExecEnd i s t := by
  cases i with
  | openSession a => exact execOpen_end a h
  | closeSession => cases h; exact .closed rfl
  | rdr r => exact execRdr_end r h
  | empty c => exact query_end (f := fun d => boolWord d.isEmpty) (fun _ => rfl) rfl h
  | occ c => exact query_end (f := Descriptor.occ) (fun _ => rfl) rfl h
  | free c => exact query_end (f := Descriptor.free) (fun _ => rfl) rfl h
  | full c => exact query_end (f := fun d => boolWord d.isFull) (fun _ => rfl) rfl h
  | enq c data => exact execEnq_end c data h
  | peek c n => exact execPeek_end c n h
  | deq c n => exact execDeq_end c n h
  | rfsh c f => exact execRfsh_end c f h
  | pub c f => exact execPub_end c f h

/-- The two ends of a command without a response are cut short in the call they made last. -/
theorem CallsMade.cutShort {s t v : State} {i : Instr} {es : List PortEvent} {k : PortCall} {rest : List PortCall}
    {o : PortOutcome} (he : es.map PortEvent.call ++ k :: rest = s.callsOf i) (hv : CallsMade (s.begun i) es v)
    (hp : v.plan.outcome = o) (ho : o ≠ .returns) (ht : t.trace = v.trace ++ [{ call := k, answer := .noReturn }]) :
    s.cutShort t i o := by
  refine ⟨es, k, rest, v.plan, he.symm, ?_, ?_, hp⟩
  · rw [ht, hv.trace, State.begun_trace]
  · have := hv.port_next (hp ▸ ho)
    rwa [State.begun_port] at this

/-! ### What the host's programs can do -/

/-- The response by which a command ended. -/
theorem State.answerIn_eq {s t : State} {r : Response} (h : t.responses = s.responses ++ [r]) : s.answerIn t = some r := by
  simp [State.answerIn, h]

/-- A program goes on after a command that got a response other than TRANSPORT_ERROR. -/
theorem issue_goesOn {i : Instr} {s t : State} {r : Response} (hf : s.inFlight = none) (hw : i.wellFormed s.cfg = true)
    (he : exec i s = .next t) (hr : t.responses = s.responses ++ [r]) (hc : r.code ≠ .transportError) :
    issue i s = .goesOn t := by
  simp [issue, hf, hw, State.lookAt, he, State.answerIn_eq hr, hc]

/-! ### What a step can do -/

/-- The ways a step that has a next state gets there. -/
theorem step_cases {s t : State} (h : step s = .next t) :
    (∃ i, s.inFlight = some i ∧ t = s.waitInCall) ∨
    (s.inFlight = none ∧
      ((s.inputs = [] ∧ t = s) ∨
        (∃ e rest, s.inputs = .event e :: rest ∧ t = State.environment { s with inputs := rest } e) ∨
        ∃ c rest, s.inputs = .command c :: rest ∧
          ((∃ r, decode c = .error r ∧ t = State.respond { s with inputs := rest } .illegalCmd 0 []) ∨
            ∃ i, decode c = .ok i ∧ i.wellFormed s.cfg = true ∧ exec i { s with inputs := rest } = .next t))) := by
  unfold step State.fetch at h
  cases hf : s.inFlight with
  | some i => rw [hf] at h; cases h; exact .inl ⟨i, rfl, rfl⟩
  | none =>
    rw [hf] at h
    refine .inr ⟨rfl, ?_⟩
    cases hi : s.inputs with
    | nil => rw [hi] at h; cases h; exact .inl ⟨rfl, rfl⟩
    | cons inp rest =>
      rw [hi] at h
      cases inp with
      | event e => cases h; exact .inr (.inl ⟨e, rest, rfl, rfl⟩)
      | command c =>
        refine .inr (.inr ⟨c, rest, rfl, ?_⟩)
        simp only [State.accept] at h
        cases hd : decode c with
        | error r => rw [hd] at h; cases h; exact .inl ⟨r, rfl, rfl⟩
        | ok i =>
          rw [hd] at h
          simp only at h
          by_cases hw : i.wellFormed s.cfg = true
          · rw [if_pos hw] at h; exact .inr ⟨i, rfl, hw, h⟩
          · rw [if_neg hw] at h; cases h

/-- Waiting in a port call: nothing, a step of the target, or reset. -/
theorem waitInCall_cases (s : State) :
    s.waitInCall = s ∨ ∃ e left, .event e ∈ s.inputs ∧ s.waitInCall = State.environment { s with inputs := left } e := by
  have key : ∀ l e left, takeEvent l = some (e, left) → .event e ∈ l := by
    intro l
    induction l with
    | nil => intro e left h; cases h
    | cons inp rest ih =>
      intro e left h
      cases inp with
      | event e' => cases h; exact List.mem_cons_self ..
      | command c =>
        simp only [takeEvent] at h
        cases hr : takeEvent rest with
        | none => rw [hr] at h; cases h
        | some p =>
          obtain ⟨e', l'⟩ := p
          rw [hr] at h
          cases h
          exact List.mem_cons_of_mem _ (ih _ _ hr)
  unfold State.waitInCall
  cases h : takeEvent s.inputs with
  | none => exact .inl rfl
  | some p =>
    obtain ⟨e, left⟩ := p
    exact .inr ⟨e, left, key _ _ _ h, rfl⟩

end Sys2Proof.Machine
end

