-- ==== Sys2Proof/Laws/PerInstr.lean ====
section
/-!
SUPPORT. Per instruction: the word the encoder writes passes the three checks of `30_encoding.md` R98.
-/

namespace Sys2Proof.Laws.EncodedLegal

/-- The encoder's word has RSV zero, the instruction's OP, and a SEL its format allows (R93, R94, R97). -/
def Statement (i : Instr) : Prop :=
  rsvField i.cmdWord = 0 ∧ opcodeOf (opField i.cmdWord) = some i.opcode
    ∧ i.opcode.format.selectorLegal (selField i.cmdWord) = true

theorem openSession (a : Word) : Statement (.openSession a) := by
  simp only [Statement, Instr.cmdWord, Instr.opcode, Instr.selector]; decide
theorem closeSession : Statement .closeSession := by unfold Statement; decide
theorem rdr (r : Reg) : Statement (.rdr r) := by
  cases r with
  | desc c k => cases c <;> cases k <;> (unfold Statement; decide)
  | cbAddr => unfold Statement; decide
  | status => unfold Statement; decide
  | fcmd => unfold Statement; decide
  | faddr => unfold Statement; decide
theorem empty (c : Channel) : Statement (.empty c) := by cases c <;> (unfold Statement; decide)
theorem occ (c : Channel) : Statement (.occ c) := by cases c <;> (unfold Statement; decide)
theorem free (c : Channel) : Statement (.free c) := by cases c <;> (unfold Statement; decide)
theorem full (c : Channel) : Statement (.full c) := by cases c <;> (unfold Statement; decide)
theorem enq (c : Channel) (data : List Byte) : Statement (.enq c data) := by
  cases c <;> (simp only [Statement, Instr.cmdWord, Instr.opcode, Instr.selector]; decide)
theorem peek (c : Channel) (maxLen : Word) : Statement (.peek c maxLen) := by
  cases c <;> (simp only [Statement, Instr.cmdWord, Instr.opcode, Instr.selector]; decide)
theorem deq (c : Channel) (maxLen : Word) : Statement (.deq c maxLen) := by
  cases c <;> (simp only [Statement, Instr.cmdWord, Instr.opcode, Instr.selector]; decide)
theorem rfsh (c : Channel) (f : OffsetField) : Statement (.rfsh c f) := by
  cases c <;> cases f <;> (unfold Statement; decide)
theorem pub (c : Channel) (f : OffsetField) : Statement (.pub c f) := by
  cases c <;> cases f <;> (unfold Statement; decide)

end Sys2Proof.Laws.EncodedLegal
end

