-- ==== Sys2Proof/Tests/Slice0.lean ====
section
/-!
SUPPORT. Tests against the spec's own vectors (`95_test_vectors.md`, T0 to T5), the WellFormed smoke test, one decoded word for
every constructor, and for every obligation with hypotheses a witness that meets them.
-/

open Sys2Proof Sys2Proof.Machine

namespace Sys2Proof.Tests

/-! ### Helpers -/

/-- The next state, if there is one. -/
def after (o : Host.Outcome State Fault Refusal) : Option State :=
  match o with
  | .next t => some t
  | .fault _ => none
  | .refused _ => none

/-- The stop, if there is one. -/
def stop (o : Host.Outcome State Fault Refusal) : Option Fault :=
  match o with
  | .next _ => none
  | .fault r => some r
  | .refused _ => none

/-- The image of `95_test_vectors.md` section 1: CB = 0x20000000, up W = R = 6, down W = R = 0. -/
def image : Memory :=
  [(0x20000010, 6), (0x20000014, 6), (0x20000018, 7), (0x2000001C, 1), (0x20000021, 1), (0x20000023, 0x20),
    (0x2000002C, 0xF), (0x20000030, 1), (0x20000035, 2), (0x20000037, 0x20)]

def upChan (w r : Word) : Descriptor :=
  { writeOffset := w, readOffset := r, capacityMask := 7, elementSize := 1, bufferBase := 0x20000100 }

def dnChan (w r : Word) : Descriptor :=
  { writeOffset := w, readOffset := r, capacityMask := 0xF, elementSize := 1, bufferBase := 0x20000200 }

def chans (uw ur dw dr : Word) : Descriptors := { up := upChan uw ur, dn := dnChan dw dr }

/-- An open session on that layout. -/
def opened (x : Descriptors) (m : Memory) : State :=
  { State.reset with
    x := some x
    cbAddr := some 0x20000000
    status := { session := .active, dvalid := true, fprim := none }
    mem := m }

/-- The state of T5.2 after the fault. -/
def faulted : State :=
  { State.reset with
    x := some (chans 6 6 0 0)
    cbAddr := some 0x20000000
    status := { session := .faulted, dvalid := true, fprim := some .write }
    fcmd := some 0x20
    faddr := some 0x20000100 }

def plan (o : PortOutcome) : PortPlan := { outcome := o, during := [], instants := [], landed := [] }

/-- A machine without PORT_LIVENESS. -/
def mayHang (s : State) : State := { s with cfg := { s.cfg with portLiveness := false } }

def withPlans (s : State) (l : List PortPlan) : State := { s with port := l }

def withInputs (s : State) (l : List Input) : State := { s with inputs := l }

/-! ### WellFormed -/

theorem test_wellFormed_payload_too_long :
    Instr.wellFormed { Config.initial with maxPayload := some 2 } (.enq .dn [1, 2, 3]) = false := by decide
theorem test_wellFormed_payload_fits :
    Instr.wellFormed { Config.initial with maxPayload := some 3 } (.enq .dn [1, 2, 3]) = true := by decide

/-! ### Decode: words written field by field, RSV ++ SEL ++ OP (R93, R97); illegal words (T0) -/

def word (sel : BitVec 4) (op : BitVec 8) : Command := { cmd := 0#20 ++ sel ++ op, arg := 0x1234, payload := [9] }

theorem test_decode_open : decode (word 0b0000 0b00000001) = .ok (.openSession 0x1234) := by decide
theorem test_decode_close : decode (word 0b0000 0b00000010) = .ok .closeSession := by decide
theorem test_decode_rdr : decode (word 0b1001 0b00000011) = .ok (.rdr (.desc .dn .bufferBase)) := by decide
theorem test_decode_empty : decode (word 0b0001 0b00010000) = .ok (.empty .dn) := by decide
theorem test_decode_occ : decode (word 0b0000 0b00010001) = .ok (.occ .up) := by decide
theorem test_decode_free : decode (word 0b0001 0b00010010) = .ok (.free .dn) := by decide
theorem test_decode_full : decode (word 0b0000 0b00010011) = .ok (.full .up) := by decide
theorem test_decode_enq : decode (word 0b0001 0b00100000) = .ok (.enq .dn [9]) := by decide
theorem test_decode_peek : decode (word 0b0000 0b00100001) = .ok (.peek .up 0x1234) := by decide
theorem test_decode_deq : decode (word 0b0001 0b00100010) = .ok (.deq .dn 0x1234) := by decide
theorem test_decode_rfsh : decode (word 0b0011 0b00110000) = .ok (.rfsh .dn .r) := by decide
theorem test_decode_pub : decode (word 0b0010 0b00110001) = .ok (.pub .up .r) := by decide
theorem test_decode_all_legal : (legalWords.filter fun w => (decodeTableWord 32 w).isSome).length = 38 := by decide
theorem test_decode_illegal :
    ([0x00000000, 0x00001001, 0x80000010, 0x00000101, 0x00000102, 0x00000210, 0x00000310, 0x00000220, 0x00000221,
      0x00000430, 0x00000E03, 0x00000F03, 0x00000004, 0x00000014, 0x00000023, 0x00000032, 0x000000FF].filter
      fun w => (decodeTableWord 32 w).isSome) = [] := by decide
theorem test_encode_pub : (encode (.pub .dn .w)).cmd = 0x00000131 := by decide
theorem test_text : instrText (.enq .dn [0x68, 0x69, 0x0D]) = "ENQ dn, [104, 105, 13]" := by decide

/-! ### The step from reset -/

/-- T0.10: an illegal word after reset. -/
theorem test_step_illegal :
    (after (step (State.reset.withFetchWord 32 0xFF))).map State.responses = some [⟨.illegalCmd, 0, []⟩] := by decide
/-- Section 3.2: `EMPTY up` in Idle. -/
theorem test_step_bad_state :
    (after (step (State.reset.withFetchWord 32 0x10))).map State.responses = some [⟨.badState, 0, []⟩] := by decide

/-! ### Session commands -/

/-- T1.1. -/
theorem test_open :
    (after (exec (.openSession 0x20000000) { State.reset with mem := image })).map
        (fun t => (t.x, t.cbAddr, t.status.word, t.callsMade))
      = some (some (chans 6 6 0 0), some 0x20000000, 5, [.read 0x20000010 40]) := by decide
/-- T5.1. -/
theorem test_open_fails :
    (after (exec (.openSession 0x20000000) (withPlans State.reset [plan .fails]))).map
        (fun t => (t.cbAddr, t.status.word, t.fcmd, t.faddr, t.responses))
      = some (some 0x20000000, 0xA, some 1, some 0x20000010, [⟨.transportError, 0x20000010, []⟩]) := by decide
/-- T5.8. -/
theorem test_close : (after (exec .closeSession faulted)).map State.registers = some State.reset.registers := by decide
/-- T1.6. -/
theorem test_rdr_up_b :
    (after (exec (.rdr (.desc .up .bufferBase)) (opened (chans 6 6 0 0) []))).map State.responses
      = some [⟨.ok, 0x20000100, []⟩] := by decide
/-- T1.10. -/
theorem test_rdr_fcmd :
    (after (exec (.rdr .fcmd) (opened (chans 6 6 0 0) []))).map State.responses = some [⟨.badState, 5, []⟩] := by decide

/-! ### Query commands -/

/-- T2.3 and T2.8. -/
theorem test_empty :
    (after (exec (.empty .up) (opened (chans 0x18 0x10 0 0) []))).map State.responses = some [⟨.ok, 0, []⟩] := by decide
/-- T2.4. -/
theorem test_occ :
    (after (exec (.occ .up) (opened (chans 2 0xFFFFFFFD 0 0) []))).map State.responses = some [⟨.ok, 5, []⟩] := by decide
/-- T2.7, an ill-formed channel. -/
theorem test_free :
    (after (exec (.free .up) (opened (chans 12 0 0 0) []))).map State.responses = some [⟨.ok, 0xFFFFFFFC, []⟩] := by decide
/-- T2.3. -/
theorem test_full :
    (after (exec (.full .up) (opened (chans 0x18 0x10 0 0) []))).map State.responses = some [⟨.ok, 1, []⟩] := by decide

/-! ### Transfer commands -/

/-- T3.9: truncated and split. -/
theorem test_enq :
    (after (exec (.enq .dn [0xB1, 0xB2, 0xB3, 0xB4, 0xB5, 0xB6]) (opened (chans 0 0 0x1E 0x12) []))).map
        (fun t => (t.x, t.callsMade, t.responses))
      = some (some (chans 0 0 0x22 0x12), [.write 0x2000020E [0xB1, 0xB2], .write 0x20000200 [0xB3, 0xB4]],
          [⟨.ok, 4, []⟩]) := by decide
/-- T5.2 with one byte of the failed segment landed. -/
theorem test_enq_fails :
    (after (exec (.enq .up [1, 2, 3, 4, 5]) (withPlans (opened (chans 6 6 0 0) [])
        [plan .returns, { outcome := .fails, during := [], instants := [], landed := [false, true] }]))).map
        (fun t => (t.x, t.status.word, t.fcmd, t.mem))
      = some (some (chans 6 6 0 0), 0x16, some 0x20, [(0x20000101, 4), (0x20000106, 1), (0x20000107, 2)]) := by decide
/-- T3.10. -/
theorem test_peek :
    (after (exec (.peek .up 5) (opened (chans 0xB 6 0 0)
        [(0x20000100, 3), (0x20000101, 4), (0x20000102, 5), (0x20000106, 1), (0x20000107, 2)]))).map
        (fun t => (t.callsMade, t.responses))
      = some ([.read 0x20000106 2, .read 0x20000100 3], [⟨.ok, 5, [1, 2, 3, 4, 5]⟩]) := by decide
/-- T3.14, an ill-formed channel: the wrap segment re-reads. -/
theorem test_peek_above_capacity :
    (after (exec (.peek .up 0xFFFFFFFF) (opened (chans 12 0 0 0) []))).map State.callsMade
      = some [.read 0x20000100 8, .read 0x20000100 4] := by decide
/-- T3.12, second half. -/
theorem test_deq :
    (after (exec (.deq .up 0xFFFFFFFF) (opened (chans 3 0 0 0) [(0x20000100, 3), (0x20000101, 4), (0x20000102, 5)]))).map
        (fun t => (t.x, t.responses))
      = some (some (chans 3 3 0 0), [⟨.ok, 3, [3, 4, 5]⟩]) := by decide
/-- T5.3: no bytes, nothing consumed. -/
theorem test_deq_fails :
    (after (exec (.deq .up 5) (withPlans (opened (chans 0xB 6 0 0) []) [plan .returns, plan .fails]))).map
        (fun t => (t.x, t.status.word, t.faddr, t.responses))
      = some (some (chans 0xB 6 0 0), 0xE, some 0x20000100, [⟨.transportError, 0x20000100, []⟩]) := by decide

/-! ### Offset synchronisation -/

/-- T4.1. -/
theorem test_rfsh :
    (after (exec (.rfsh .up .w) (opened (chans 0xFFFFFFFD 0xFFFFFFFD 0 0) [(0x20000010, 2)]))).map
        (fun t => (t.x, t.callsMade, t.responses))
      = some (some (chans 2 0xFFFFFFFD 0 0), [.readU32 0x20000010], [⟨.ok, 2, []⟩]) := by decide
/-- R66, R67: the target advances the word 0xFF to 0x100 in mid-call; an atomic word read is not torn, a span read may be. -/
theorem test_torn_only_in_span :
    let s := withPlans (opened (chans 0 0 0 0) [(0x20000010, 0xFF)])
      [{ outcome := .returns, during := [.ofWord 0x20000010 0x100], instants := [0, 1, 1, 1], landed := [] }]
    (s.wordSeen 0x20000010, s.bytesSeen 0x20000010 4) = (0xFF, [0xFF, 1, 0, 0]) := by decide
/-- T4.4. -/
theorem test_pub :
    (after (exec (.pub .dn .w) (opened (chans 0 0 3 0) []))).map (fun t => (t.mem, t.callsMade, t.responses))
      = some ([(0x20000024, 3)], [.writeU32 0x20000024 3], [⟨.ok, 3, []⟩]) := by decide
/-- T5.5, the word left old. -/
theorem test_pub_fails :
    (after (exec (.pub .dn .w) (withPlans (opened (chans 0 0 3 0) []) [plan .fails]))).map
        (fun t => (t.status.word, t.fcmd, t.faddr, t.mem))
      = some (0x26, some 0x131, some 0x20000024, []) := by decide

/-! ### Witnesses: for every obligation with hypotheses, something that meets them -/

def idleAt (l : List Input) : State := withInputs State.reset l

def openState : State := opened (chans 6 6 0 0) []

theorem openState_open : openState.Open 0x20000000 (chans 6 6 0 0) := ⟨rfl, rfl, rfl⟩

theorem openState_inv : openState.Inv := ⟨by decide, by decide, by decide, by decide⟩

theorem faulted_inv : faulted.Inv := ⟨by decide, by decide, by decide, by decide⟩

theorem openState_returns (n : Nat) : openState.portReturns n := by intro p h; simp [openState, opened, State.reset] at h

theorem openState_quiet (n : Nat) : openState.targetQuiet n := by simp [State.targetQuiet, State.stepsIn, openState, opened, State.reset]

theorem witness_DecodeEncodeAgree : decode (word 1 0x20) = .ok (.enq .dn [9]) ∧ usesPayload (.enq .dn [9]) = true
    ∧ decode (word 0 1) = .ok (.openSession 0x1234) ∧ usesArg (.openSession 0x1234) = true := by decide
theorem witness_UnusedPartsIgnored :
    decode (word 1 0x10) = .ok (.empty .dn) ∧ usesArg (.empty .dn) = false ∧ usesPayload (.empty .dn) = false := by decide
theorem witness_StepRunsDecodedCommand :
    let s := idleAt [.command (word 1 0x20)]
    s.inFlight = none ∧ s.inputs = [.command (word 1 0x20)] ∧ decode (word 1 0x20) = .ok (.enq .dn [9])
      ∧ Instr.wellFormed s.cfg (.enq .dn [9]) = true := by decide
theorem witness_IllegalWordRefused :
    let c : Command := { cmd := 0x39, arg := 0, payload := [] }
    (idleAt [.command c]).inFlight = none ∧ (idleAt [.command c]).inputs = [.command c] ∧ c.cmd.toNat ∉ legalWords := by
  decide
theorem witness_OnlyCommandsMoveTheBlock :
    State.reset.inFlight = none ∧ State.reset.inputs = []
      ∧ (idleAt [.event (.target (.ofWord 0x10 1))]).inputs = [.event (.target (.ofWord 0x10 1))] := by decide
theorem witness_ResetLeavesRegistersEmpty :
    (withInputs openState [.event .reset]).inFlight = none
      ∧ (withInputs openState [.event .reset]).inputs = [.event .reset] := by decide
theorem witness_StepKeepsInvariant :
    openState.Inv ∧ (after (step (openState.withFetchWord 32 0x20))).isSome = true := ⟨openState_inv, by decide⟩
theorem witness_LogsOnlyGrow : (after (step (openState.withFetchWord 32 0x30))).isSome = true := by decide
/-- One witness for each way the session changes: OPEN, CLOSE, a failed call, reset in a call, reset between commands. -/
theorem witness_SessionChangesListed :
    (after (step (State.reset.withFetchWord 32 0x1))).map (fun t => t.status.session) = some .active
      ∧ (after (step (faulted.withFetchWord 32 0x2))).map (fun t => t.status.session) = some .idle
      ∧ (after (step ((withPlans openState [plan .fails]).withFetchWord 32 0x30))).map (fun t => t.status.session)
        = some .faulted
      ∧ (after (step ((withPlans openState [plan .resetInCall]).withFetchWord 32 0x30))).map
          (fun t => (t.status.session, t.trace)) = some (.idle, [⟨.readU32 0x20000010, .noReturn⟩])
      ∧ (after (step (withInputs openState [.event .reset]))).map (fun t => t.status.session) = some .idle := by decide
theorem witness_StructureFixedInSession :
    openState.status.session ≠ .idle ∧ openState.x = some (chans 6 6 0 0)
      ∧ (after (step (openState.withFetchWord 32 0x30))).map (fun t => t.status.session) = some .active := by decide
theorem witness_BadStateTable :
    faulted.accepts (.occ .up) = false ∧ State.reset.accepts (.rdr .cbAddr) = false
      ∧ openState.accepts (.rdr .faddr) = false ∧ openState.accepts (.openSession 0) = false
      ∧ openState.Inv ∧ openState.inFlight = none ∧ openState.accepts (.pub .up .r) = true
      ∧ (after (exec (.pub .up .r) openState)).isSome = true :=
  ⟨by decide, by decide, by decide, by decide, openState_inv, rfl, by decide, by decide⟩
/-- A response, with a later plan left alone; a call cut off by reset; a call that never returns. -/
theorem witness_OneResponsePerCommand :
    (after (exec (.rfsh .up .w) (withPlans openState [plan .returns, plan .resetInCall]))).map (fun t => t.responses.length)
        = some 1
      ∧ (after (exec (.rfsh .up .w) (withPlans openState [plan .resetInCall]))).map (fun t => t.responses) = some []
      ∧ (after (exec (.rfsh .up .w) (withPlans (mayHang openState) [plan .neverReturns]))).map
          (fun t => (t.responses, t.inFlight)) = some ([], some (.rfsh .up .w)) := by decide
theorem witness_PortCallsListed :
    (after (exec (.enq .up [1, 2, 3]) openState)).isSome = true ∧ openState.accepts (.enq .up [1, 2, 3]) = true
      ∧ (after (exec (.enq .up [1, 2, 3]) openState)).map (fun t => t.responses) = some [⟨.ok, 3, []⟩]
      ∧ (after (exec (.occ .up) faulted)).isSome = true ∧ faulted.accepts (.occ .up) = false := by decide
/-- ENQ stores; a location it does not store to exists, no plan touches it, and the session stays open. -/
theorem witness_CommandFrame :
    (after (exec (.enq .up [1]) openState)).map (fun t => t.status.session) = some .active
      ∧ ¬ openState.storesTo (.enq .up [1]) 0
      ∧ ¬ openState.targetTouches (openState.callsOf (.enq .up [1])).length 0 := by
  refine ⟨by decide, ?_, ?_⟩
  · rintro ⟨c, hc, h⟩
    have e : openState.callsOf (.enq .up [1]) = [.write 0x20000106 [1]] := by decide
    rw [e, List.mem_singleton] at hc
    subst hc
    exact absurd h.1 (by decide)
  · rintro ⟨t, ht, -⟩
    rw [openState_quiet] at ht
    cases ht
/-- Both halves of every clause: an open session, and a faulted one. -/
theorem witness_ReadRegister :
    openState.Inv ∧ openState.inFlight = none ∧ openState.status.dvalid = true ∧ openState.status.session ≠ .faulted
      ∧ faulted.Inv ∧ faulted.inFlight = none ∧ faulted.status.session = .faulted
      ∧ State.reset.Inv ∧ State.reset.status.session = .idle ∧ State.reset.status.dvalid = false :=
  ⟨openState_inv, rfl, rfl, by decide, faulted_inv, rfl, rfl, ⟨by decide, by decide, by decide, by decide⟩, rfl, rfl⟩
/-- The highest control block whose span still lies in the address space, and a wrapped one (T1.4); a later plan may fail. -/
theorem witness_OpenLoadsDescriptors :
    let s := withPlans State.reset [plan .returns, plan .fails]
    s.status.session = .idle ∧ s.status.fprim = none ∧ s.portReturns 1 ∧ s.targetQuiet 1
      ∧ ((0xFFFFFFC8 : Word) + 16).toNat + 40 ≤ 2 ^ 32 ∧ ((0xFFFFFFF8 : Word) + 16).toNat + 40 ≤ 2 ^ 32 :=
  ⟨rfl, rfl, (by intro p h; obtain rfl := List.mem_singleton.mp h; rfl), rfl, by decide, by decide⟩
theorem witness_OpenFaultRecord :
    let s := withPlans State.reset [plan .fails]
    s.Inv ∧ s.inFlight = none ∧ s.status.session = .idle ∧ s.plan.outcome = .fails
      ∧ ((0 : Word) + 16).toNat + 40 ≤ 2 ^ 32 :=
  ⟨⟨by decide, by decide, by decide, by decide⟩, rfl, rfl, rfl, by decide⟩
/-- Also for `QueryLaws`: with the parameter set, and on a well-formed channel. -/
theorem witness_QueryResults :
    openState.status.session = .active ∧ openState.x = some (chans 6 6 0 0) ∧ openState.runsOn (upChan 6 6)
      ∧ (upChan 6 6).wellFormed = true ∧ faulted.status.session ≠ .active ∧ (upChan 6 6).capacityMask ≠ 0xFFFFFFFF :=
  ⟨rfl, rfl, .inl rfl, by decide, by decide, by decide⟩
theorem witness_QueryLaws : openState.Open 0x20000000 (chans 6 6 0 0) ∧ openState.runsOn ((chans 6 6 0 0).chan .up) :=
  ⟨openState_open, .inl rfl⟩
theorem witness_QueriesReadRegistersOnly :
    (after (exec (.full .dn) openState)).isSome = true ∧ (after (exec (.rdr .status) openState)).isSome = true := by decide
/-- A copy in two segments, and one that exactly reaches the physical end. -/
theorem witness_EnqueueCompletes :
    openState.Open 0x20000000 (chans 6 6 0 0) ∧ openState.runsOn ((chans 6 6 0 0).chan .up) ∧ (∀ n, openState.portReturns n)
      ∧ openState.mem.wf ∧ ((chans 6 6 0 0).chan .up).wellFormed = true
      ∧ (enqSegments (upChan 6 6) [1, 2, 3, 4, 5]).fits ∧ (enqSegments (upChan 4 4) [9, 8, 7, 6]).fits :=
  ⟨openState_open, .inl rfl, openState_returns, by decide, by decide, by unfold Segments.fits; decide,
    by unfold Segments.fits; decide⟩
/-- For `PeekCompletes`, `DequeueCompletes`. -/
theorem witness_PeekCompletes :
    openState.Open 0x20000000 (chans 6 6 0 0) ∧ openState.runsOn ((chans 6 6 0 0).chan .up) ∧ (∀ n, openState.portReturns n)
      ∧ (∀ n, openState.targetQuiet n) ∧ (peekSegments (upChan 6 6) 0xFFFFFFFF).fits ∧ (peekSegments (upChan 0xB 6) 5).fits :=
  ⟨openState_open, .inl rfl, openState_returns, openState_quiet, by unfold Segments.fits; decide,
    by unfold Segments.fits; decide⟩
theorem witness_DequeueCompletes :
    openState.Open 0x20000000 (chans 6 6 0 0) ∧ openState.runsOn ((chans 6 6 0 0).chan .dn) ∧ (∀ n, openState.portReturns n)
      ∧ (peekSegments (dnChan 0 0) 0).fits :=
  ⟨openState_open, .inl rfl, openState_returns, by unfold Segments.fits; decide⟩
theorem witness_FailedDequeueConsumesNothing :
    (after (exec (.deq .up 5) (withPlans (opened (chans 0xB 6 0 0) []) [plan .fails]))).map
      (fun t => (t.status.session, t.responses)) = some (.faulted, [⟨.transportError, 0x20000106, []⟩]) := by decide
theorem witness_CallLengthsAreTheCount : openState.x = some (chans 6 6 0 0) := rfl
theorem witness_TransfersKeepChannelWellFormed :
    openState.x = some (chans 6 6 0 0) ∧ ((chans 6 6 0 0).chan .up).wellFormed = true
      ∧ (after (exec (.enq .up [1]) openState)).map State.x = some (some (chans 7 6 0 0)) := by decide
theorem witness_TransfersMoveOccupancy :
    (after (exec (.enq .up [1]) openState)).map (fun t => (t.x, t.responses)) = some (some (chans 7 6 0 0), [⟨.ok, 1, []⟩])
      ∧ (after (exec (.deq .up 1) (opened (chans 7 6 0 0) []))).map (fun t => (t.x, t.responses))
        = some (some (chans 7 7 0 0), [⟨.ok, 1, [0]⟩]) := by decide
/-- For `EnqueueAppends`, `DequeueTakesOldest`, `RoundTrip`, `DrainEmptiesSnapshot`. -/
theorem witness_EnqueueAppends :
    openState.Open 0x20000000 (chans 6 6 0 0) ∧ openState.mem.wf ∧ ((chans 6 6 0 0).chan .up).wellFormed = true
      ∧ ((chans 6 6 0 0).chan .up).inSpace ∧ (∀ n, openState.portReturns n) ∧ ∀ n, openState.targetQuiet n :=
  ⟨openState_open, by decide, by decide, by unfold Descriptor.inSpace; decide, openState_returns, openState_quiet⟩
/-- Five bytes, of which segment 1 holds two. -/
def filled : State := opened (chans 0xB 6 0 0) [(0x20000106, 1)]

theorem filled_returns (n : Nat) : filled.portReturns n := by intro p h; simp [filled, opened, State.reset] at h

theorem filled_quiet (n : Nat) : filled.targetQuiet n := by
  simp [State.targetQuiet, State.stepsIn, filled, opened, State.reset]

theorem filled_open : filled.Open 0x20000000 (chans 0xB 6 0 0) := ⟨rfl, rfl, rfl⟩

theorem witness_DequeueTakesOldest :
    filled.Open 0x20000000 (chans 0xB 6 0 0) ∧ ((chans 0xB 6 0 0).chan .up).wellFormed = true
      ∧ ((chans 0xB 6 0 0).chan .up).inSpace ∧ (∀ n, filled.portReturns n) ∧ ∀ n, filled.targetQuiet n :=
  ⟨filled_open, by decide, by unfold Descriptor.inSpace; decide, filled_returns, filled_quiet⟩
theorem witness_RoundTrip :
    (openState.Open 0x20000000 (chans 6 6 0 0) ∧ openState.mem.wf ∧ ((chans 6 6 0 0).chan .up).wellFormed = true
      ∧ ((chans 6 6 0 0).chan .up).inSpace ∧ (∀ n, openState.portReturns n) ∧ ∀ n, openState.targetQuiet n)
      ∧ ((chans 6 6 0 0).chan .up).writeOffset = ((chans 6 6 0 0).chan .up).readOffset
      ∧ [1, 2, 3, 4, 5, 6, 7, (8 : Byte)].length ≤ ((chans 6 6 0 0).chan .up).cap.toNat :=
  ⟨witness_EnqueueAppends, by decide, by decide⟩
theorem witness_PeekRepeats :
    (∀ n, filled.targetQuiet n) ∧ (2 : Word).toNat ≤ (5 : Word).toNat
      ∧ ((after (exec (.peek .up 2) filled)).bind fun t => after (exec (.peek .up 5) t)).map State.responses
        = some [⟨.ok, 2, [1, 0]⟩, ⟨.ok, 5, [1, 0, 0, 0, 0]⟩] :=
  ⟨filled_quiet, by decide, by decide⟩
theorem witness_DrainEmptiesSnapshot :
    openState.Open 0x20000000 (chans 6 6 0 0) ∧ ((chans 6 6 0 0).chan .dn).wellFormed = true
      ∧ ((chans 6 6 0 0).chan .dn).inSpace ∧ openState.inFlight = none ∧ ∀ n, openState.portReturns n :=
  ⟨openState_open, by decide, by unfold Descriptor.inSpace; decide, rfl, openState_returns⟩
/-- For `RefreshCompletes`, `PublishCompletes`, `RefreshReadsOneInstant`: the first and the last of the four field addresses. -/
theorem witness_RefreshCompletes :
    openState.Open 0x20000000 (chans 6 6 0 0) ∧ openState.portReturns 1 ∧ openState.targetQuiet 1 ∧ openState.mem.wf
      ∧ openState.cfg.portU32Atomic = true ∧ ((0x20000000 : Word) + BitVec.ofNat 32 16).toNat + 4 ≤ 2 ^ 32
      ∧ ((0x20000000 : Word) + BitVec.ofNat 32 40).toNat + 4 ≤ 2 ^ 32
      ∧ (fieldAddr 0x20000000 .dn .readOffset).toNat + 4 ≤ 2 ^ 32 :=
  ⟨openState_open, openState_returns 1, openState_quiet 1, by decide, rfl, by decide, by decide, by decide⟩
theorem witness_PublishCompletes :
    openState.Open 0x20000000 (chans 6 6 0 0) ∧ openState.mem.wf ∧ openState.portReturns 1 ∧ openState.targetQuiet 1
      ∧ ((0x20000000 : Word) + BitVec.ofNat 32 (16 + 20 * Channel.dn.number + 4 * OffsetField.r.bit.toNat)).toNat + 4 ≤ 2 ^ 32 :=
  ⟨openState_open, by decide, openState_returns 1, openState_quiet 1, by decide⟩
/-- With a target that advances the word in mid-call. -/
theorem witness_RefreshReadsOneInstant :
    let s := withPlans openState
      [{ outcome := .returns, during := [.ofWord 0x20000010 7], instants := [1], landed := [] }]
    s.Open 0x20000000 (chans 6 6 0 0) ∧ s.portReturns 1 ∧ s.cfg.portU32Atomic = true
      ∧ (fieldAddr 0x20000000 .up OffsetField.w.desc).toNat + 4 ≤ 2 ^ 32 :=
  ⟨⟨rfl, rfl, rfl⟩, (by intro p h; obtain rfl := List.mem_singleton.mp h; rfl), rfl, by decide⟩
/-- Two reads at the top of the address space that still lie in it. -/
theorem witness_WordReadIsLittleEndian :
    openState.targetQuiet 1 ∧ (∃ b t, portRead 0xFFFFFFFC 4 openState = .returned b t)
      ∧ ∃ v t, portReadU32 0xFFFFFFFC openState = .returned v t :=
  ⟨openState_quiet 1, ⟨_, _, portCall_returned _ _ _ _ (by decide) rfl⟩, ⟨_, _, portCall_returned _ _ _ _ (by decide) rfl⟩⟩
/-- A down-channel that is not full, and one that is. -/
theorem witness_SendPublishesOnce :
    (openState.Open 0x20000000 (chans 6 6 0 0) ∧ openState.inFlight = none ∧ openState.cfg.carries [1] = true
      ∧ (chans 6 6 0 0).dn.wellFormed = true ∧ (chans 6 6 0 0).dn.inSpace ∧ (0x20000000 : Word).toNat + 56 ≤ 2 ^ 32
      ∧ (chans 6 6 0 0).dn.free ≠ 0 ∧ ∀ n, openState.portReturns n)
      ∧ (opened (chans 6 6 0x20 0x10) []).Open 0x20000000 (chans 6 6 0x20 0x10)
      ∧ (chans 6 6 0x20 0x10).dn.free = 0 ∧ (chans 6 6 0x20 0x10).dn.wellFormed = true :=
  ⟨⟨openState_open, rfl, by decide, by decide, by unfold Descriptor.inSpace; decide, by decide, by decide, openState_returns⟩,
    ⟨rfl, rfl, rfl⟩, by decide, by decide⟩
/-- An up-channel that is not empty, and one that is. -/
theorem witness_DrainPubPublishesOnce :
    (filled.Open 0x20000000 (chans 0xB 6 0 0) ∧ filled.inFlight = none ∧ (chans 0xB 6 0 0).up.wellFormed = true
      ∧ (chans 0xB 6 0 0).up.inSpace ∧ (chans 0xB 6 0 0).up.writeOffset ≠ (chans 0xB 6 0 0).up.readOffset
      ∧ ∀ n, filled.portReturns n)
      ∧ openState.Open 0x20000000 (chans 6 6 0 0) ∧ openState.inFlight = none
      ∧ (chans 6 6 0 0).up.writeOffset = (chans 6 6 0 0).up.readOffset ∧ (chans 6 6 0 0).up.wellFormed = true :=
  ⟨⟨filled_open, rfl, by decide, by unfold Descriptor.inSpace; decide, by decide, filled_returns⟩, openState_open, rfl, rfl,
    by decide⟩
theorem witness_NoCallCrossesInSpace :
    openState.x = some (chans 6 6 0 0) ∧ openState.cbAddr = some 0x20000000
      ∧ ∀ c, ((chans 6 6 0 0).chan c).wellFormed = true ∧ ((chans 6 6 0 0).chan c).inSpace :=
  ⟨rfl, rfl, by
    intro c
    unfold Descriptor.inSpace
    cases c <;> decide⟩
/-- P5: the second call of an ENQ fails; the first of an OPEN. -/
theorem witness_FailedCallEntersFault :
    let s := withPlans openState [plan .returns, plan .fails]
    let i := Instr.enq .up [1, 2, 3, 4, 5]
    s.accepts i = true ∧ s.channelRuns i
      ∧ s.callsOf i = [.write 0x20000106 [1, 2]] ++ .write 0x20000100 [3, 4, 5] :: []
      ∧ (∀ q ∈ [PortCall.write 0x20000106 [1, 2]] ++ [.write 0x20000100 [3, 4, 5]], q.addr.toNat + q.length ≤ 2 ^ 32)
      ∧ s.port[1]? = some (plan .fails) ∧ (∀ q ∈ s.port.take 1, q.outcome = .returns)
      ∧ (withPlans State.reset [plan .fails]).accepts (.openSession 0) = true
      ∧ (withPlans State.reset [plan .fails]).callsOf (.openSession 0) = [] ++ .read 16 40 :: [] :=
  ⟨by decide, .inl rfl, by decide, by decide, by decide, by decide, by decide, by decide⟩
theorem witness_FaultIsPrecise :
    openState.status.session ≠ .faulted
      ∧ (after (exec (.pub .up .r) (withPlans openState [plan .fails]))).map (fun t => t.status.session) = some .faulted := by
  decide
theorem witness_FaultedNeverNests :
    faulted.status.session = .faulted ∧ (after (exec .closeSession faulted)).isSome = true
      ∧ (after (exec (.rfsh .up .w) faulted)).isSome = true := by decide
theorem witness_FailedWriteOldOrNew :
    let s := withPlans openState [plan .fails]
    s.mem.wf ∧ s.targetQuiet 1 ∧ ∃ p k t, portWrite 0x20000100 [1, 2] s = .failed p k t :=
  ⟨by decide, rfl, _, _, _, portCall_failed _ _ _ _ (by decide) rfl⟩
theorem witness_FailedWordWriteAllOrNone :
    let s := withPlans openState [plan .fails]
    s.mem.wf ∧ s.targetQuiet 1 ∧ s.cfg.portU32Atomic = true ∧ ∃ p k t, portWriteU32 0x20000100 7 s = .failed p k t :=
  ⟨by decide, rfl, rfl, _, _, _,
    portCall_failed _ _ _ _ (by decide) rfl⟩
/-- The first call never returns, or the wrap segment; and a command that waits, with a command and a reset to come. -/
theorem witness_HungCallBlocksCommands :
    let s := withPlans (mayHang openState) [plan .returns, plan .neverReturns]
    let i := Instr.enq .up [1, 2, 3, 4, 5]
    s.accepts i = true ∧ s.channelRuns i
      ∧ s.callsOf i = [.write 0x20000106 [1, 2]] ++ .write 0x20000100 [3, 4, 5] :: []
      ∧ (∀ q ∈ [PortCall.write 0x20000106 [1, 2]] ++ [.write 0x20000100 [3, 4, 5]], q.addr.toNat + q.length ≤ 2 ^ 32)
      ∧ (∀ q ∈ s.port.take 1, q.outcome = .returns) ∧ s.port[1]? = some (plan .neverReturns) ∧ s.cfg.portLiveness = false
      ∧ (withPlans (mayHang openState) [plan .neverReturns]).callsOf (.rfsh .up .w) = [] ++ .readU32 0x20000010 :: []
      ∧ (after (step { s with inFlight := some .closeSession, inputs := [.command (word 0 2), .event .reset] })).map
          (fun t => (t.inFlight, t.inputs)) = some (none, [.command (word 0 2)]) :=
  ⟨by decide, .inl rfl, by decide, by decide, by decide, by decide, by decide, by decide, by decide⟩
/-- Reset in the wrap segment of a DEQ. -/
theorem witness_ResetInCallAbandons :
    let s := withPlans filled [plan .returns, plan .resetInCall]
    let i := Instr.deq .up 5
    s.accepts i = true ∧ s.channelRuns i ∧ s.callsOf i = [.read 0x20000106 2] ++ .read 0x20000100 3 :: []
      ∧ (∀ q ∈ [PortCall.read 0x20000106 2] ++ [.read 0x20000100 3], q.addr.toNat + q.length ≤ 2 ^ 32)
      ∧ (∀ q ∈ s.port.take 1, q.outcome = .returns) ∧ s.port[1]? = some (plan .resetInCall) :=
  ⟨by decide, .inl rfl, by decide, by decide, by decide, by decide⟩
/-- OPEN's one call; and the wrap segment of a PEEK on an ill-formed channel whose occupancy is above its capacity. -/
theorem witness_CrossingSpanStops :
    let a : Word := 0xFFFFFFC9
    let s := opened { chans 12 0 0 0 with up := { upChan 12 0 with bufferBase := 0xFFFFFFF8, writeOffset := 24 } } []
    (State.reset.accepts (.openSession a) = true ∧ State.reset.channelRuns (.openSession a)
      ∧ State.reset.callsOf (.openSession a) = [] ++ .read (a + 16) 40 :: [] ∧ 2 ^ 32 < (a + 16).toNat + 40)
      ∧ s.accepts (.peek .up 24) = true ∧ s.channelRuns (.peek .up 24)
      ∧ s.callsOf (.peek .up 24) = [.read 0xFFFFFFF8 8] ++ .read 0xFFFFFFF8 16 :: []
      ∧ (∀ q ∈ [PortCall.read 0xFFFFFFF8 8], q.addr.toNat + q.length ≤ 2 ^ 32) ∧ 2 ^ 32 < (0xFFFFFFF8 : Word).toNat + 16 :=
  ⟨⟨by decide, .inl rfl, by decide, by decide⟩, by decide, .inl rfl, by decide, by decide, by decide⟩
theorem witness_IllFormedChannelStops :
    let s : State := { opened (chans 12 0 0 0) [] with cfg := { Config.initial with allowIllFormed := false } }
    s.status.session = .active ∧ s.x = some (chans 12 0 0 0) ∧ s.cfg.allowIllFormed = false
      ∧ ((chans 12 0 0 0).chan .up).wellFormed = false ∧ stop (exec (.occ .up) s) = some .illFormedChannel := by decide
/-- Both stops happen, and the refusal at the command port. -/
theorem witness_StopsListed :
    stop (exec (.openSession 0xFFFFFFC9) State.reset) = some .spanCrossesTop
      ∧ (let s : State := { idleAt [.command { cmd := 0x20, arg := 0, payload := [1, 2] }] with
          cfg := { Config.initial with maxPayload := some 1 } }
        s.inFlight = none ∧ decode { cmd := 0x20, arg := 0, payload := [1, 2] } = .ok (.enq .up [1, 2])
          ∧ s.cfg.maxPayload = some 1 ∧ 1 < [1, 2].length) := by decide
/-- P2's layout with the target ahead of the snapshot and the host ahead of what it published. -/
def remoteImage : Memory :=
  (TargetStep.ofWord 0x20000010 8).apply ((TargetStep.ofWord 0x20000014 5).apply
    ((TargetStep.ofWord 0x20000024 2).apply (TargetStep.apply (.ofWord 0x20000028 1) [])))

theorem witness_layout : LayoutOk (chans 7 6 3 0) 0x20000000 :=
  ⟨by decide, by decide, by unfold Descriptor.inSpace; decide, by unfold Descriptor.inSpace; decide, by decide,
    .inr (by decide), .inr (by decide), .inl (by decide)⟩

/-- Two bytes produced and not delivered; three accepted, of which the target has taken one. -/
def streams : Streams :=
  { peer := { produced := [7, 0, 0], consumed := [5], taken := [0] }, delivered := [7], accepted := [5, 0, 0] }

theorem witness_snapshot : SnapshotSafe (chans 7 6 3 0) 0x20000000 remoteImage := ⟨witness_layout, by decide, by decide⟩

theorem witness_streams : StreamsSafe (chans 7 6 3 0) 0x20000000 remoteImage streams :=
  ⟨by decide, by decide, by decide, by decide⟩

theorem witness_SafeSnapshotIsConservative :
    SnapshotSafe (chans 7 6 3 0) 0x20000000 remoteImage ∧ StreamsSafe (chans 7 6 3 0) 0x20000000 remoteImage streams :=
  ⟨witness_snapshot, witness_streams⟩

/-- The state of the two witnesses below: the host publishes while the target, inside that call, advances its write offset by 2 of
the bytes free in its view and publishes the byte it has taken. -/
def busy : State :=
  { opened (chans 7 6 3 0) remoteImage with
    inputs := [.command (word 2 0x31)]
    port := [{ outcome := .returns
               during := [.ofWord 0x20000010 10, .ofWord 0x20000028 2]
               instants := [1]
               landed := [] }] }

/-- For `SnapshotStaysSafe` and `StreamsStayWhole`. -/
theorem witness_StreamsStayWhole :
    busy.InSession 0x20000000 (chans 7 6 3 0) ∧ busy.inFlight = none ∧ busy.mem.wf ∧ busy.cfg.portU32Atomic = true
      ∧ SnapshotSafe (chans 7 6 3 0) 0x20000000 busy.mem ∧ StreamsSafe (chans 7 6 3 0) 0x20000000 busy.mem streams
      ∧ busy.hostInStep
      ∧ busy.peerInStep (chans 7 6 3 0) 0x20000000 streams.peer { produced := [7, 0, 0, 0, 0], consumed := [5, 0], taken := [] }
      ∧ (after (step busy)).map (fun t => (t.status.session, t.inFlight)) = some (.active, none) := by
  have hd : decode (word 2 0x31) = .ok (.pub .up .r) := by decide
  refine ⟨⟨by decide, rfl, rfl⟩, rfl, by decide, rfl, witness_snapshot, witness_streams, ?_, ?_, by decide⟩
  · intro c i hc hi
    cases hc
    rw [hd] at hi
    cases hi
    rfl
  · have hc : busy.callsOf (.pub .up .r) = [.writeU32 0x20000014 6] := by decide
    have ha : busy.accepts (.pub .up .r) = true := by decide
    simp only [State.peerInStep, show busy.inputs = [.command (word 2 0x31)] from rfl, hd, ha, if_true, hc]
    refine ⟨_, ⟨_, .publishWrite _ [0, 0] (by decide) (by decide), _, .publishRead _ 1 (by decide) (by decide), rfl⟩, ?_⟩
    rw [if_pos (by decide)]
    rfl

/-- Every other step of the contract: bytes produced, a byte taken, RAM written elsewhere. -/
theorem witness_correct_steps :
    TargetStep.Correct (chans 7 6 3 0) 0x20000000 remoteImage streams.peer { cells := [(0x20000100, 9), (0x20000104, 8)] }
        streams.peer
      ∧ TargetStep.Correct (chans 7 6 3 0) 0x20000000 remoteImage { streams.peer with taken := [] } { cells := [] }
        { streams.peer with taken := [0] }
      ∧ TargetStep.Correct (chans 7 6 3 0) 0x20000000 remoteImage streams.peer { cells := [(0x1FFFFFFF, 1), (0x20000210, 1)] }
        streams.peer := by
  refine ⟨.produce _ _ ?_ ?_, .take _ 1 (by decide), .elsewhere _ _ ?_⟩
  · intro c hc
    simp only [List.mem_cons, List.not_mem_nil, or_false] at hc
    rcases hc with rfl | rfl
    · exact ⟨0, by decide, by decide⟩
    · exact ⟨4, by decide, by decide⟩
  · intro c hc
    simp only [List.mem_cons, List.not_mem_nil, or_false] at hc
    rcases hc with rfl | rfl <;> unfold Descriptor.holds <;> decide
  · intro c hc
    simp only [List.mem_cons, List.not_mem_nil, or_false] at hc
    rcases hc with rfl | rfl <;> unfold Descriptor.holds inControlBlock <;> decide

/-- OPEN on the image of P1. -/
theorem witness_OpenStartsStreams :
    let s := { State.reset with mem := image }
    s.status.session = .idle ∧ s.targetQuiet 1
      ∧ (after (exec (.openSession 0x20000000) s)).map (fun t => (t.status.session, t.x))
        = some (.active, some (chans 6 6 0 0))
      ∧ LayoutOk (chans 6 6 0 0) 0x20000000 ∧ (chans 6 6 0 0).up.wellFormed = true ∧ (chans 6 6 0 0).dn.wellFormed = true :=
  ⟨rfl, rfl, by decide, ⟨by decide, by decide, by unfold Descriptor.inSpace; decide, by unfold Descriptor.inSpace; decide,
    by decide, .inr (by decide), .inr (by decide), .inl (by decide)⟩, by decide, by decide⟩

/-- A span read and a span write that return while the target is at work. -/
theorem witness_SpansGoByteByByte :
    let s := withPlans openState [{ outcome := .returns, during := [.ofWord 0x20000100 7], instants := [1], landed := [] }]
    s.mem.wf ∧ (∃ b t, portRead 0x20000100 4 s = .returned b t) ∧ ∃ t, portWrite 0x20000100 [1, 2] s = .returned () t :=
  ⟨by decide, ⟨_, _, portCall_returned _ _ _ _ (by decide) rfl⟩, _, portCall_returned _ _ _ _ (by decide) rfl⟩

/-- A host's program stops after TRANSPORT_ERROR (R202) and where there was no response (R91). -/
theorem test_program_stops :
    (after (runMoves pseudoRefresh (withPlans openState [plan .fails]))).map (fun t => t.responses.length) = some 1
      ∧ (after (runMoves pseudoRefresh (withPlans openState [plan .resetInCall]))).map (fun t => t.responses.length) = some 0
      ∧ (after (runMoves pseudoRefresh State.reset)).map (fun t => t.responses.length) = some 2 := by decide

end Sys2Proof.Tests
end

section
/-!
Port reads while the target is silent: what a call that returned gives, and the byte order of a word (`00_scope.md` R8,
`20_memory.md` R52, R54, R62).
-/

namespace Sys2Proof.Machine

/-! ### Byte order -/

/-- R8: each byte of a word weighs 256 times the one at the address below it. -/
theorem le32_toNat (b0 b1 b2 b3 : Byte) :
    (le32 b0 b1 b2 b3).toNat = b0.toNat + 256 * b1.toNat + 65536 * b2.toNat + 16777216 * b3.toNat := by
  have append_toNat {m : Nat} (x : BitVec m) (b : Byte) : (x ++ b).toNat = x.toNat * 2 ^ 8 + b.toNat := by
    rw [BitVec.toNat_append, ← Nat.shiftLeft_add_eq_or_of_lt b.isLt, Nat.shiftLeft_eq]
  unfold le32
  rw [append_toNat, append_toNat, append_toNat]
  omega

/-- R8: the bytes of the word made of four bytes are those bytes. -/
@[simp] theorem bytesLe32_le32 (b0 b1 b2 b3 : Byte) : bytesLe32 (le32 b0 b1 b2 b3) = [b0, b1, b2, b3] := by
  have byte {k : Nat} {b : Byte} (h : (le32 b0 b1 b2 b3).toNat / 2 ^ k % 2 ^ 8 = b.toNat) :
      (le32 b0 b1 b2 b3).extractLsb' k 8 = b := by
    apply BitVec.eq_of_toNat_eq
    rw [BitVec.extractLsb'_toNat, Nat.shiftRight_eq_div_pow, h]
  rw [bytesLe32, byte (b := b0), byte (b := b1), byte (b := b2), byte (b := b3)] <;> rw [le32_toNat] <;> omega

/-! ### What a port call that returned gives -/

/-- A call that returned lies below the top of the address space, gives its value and leaves the state after the call. -/
theorem portCall_eq_returned {α : Type} {c : PortCall} {ans : PortAnswer} {v w : α} {s t : State}
    (h : portCall c ans v s = .returned w t) :
    c.crossesTop = false ∧ s.plan.verdict s.cfg = .returns ∧ w = v ∧ t = s.afterCall c true ans := by
  unfold portCall at h
  split at h
  · cases h
  · have hc : c.crossesTop = false := Bool.eq_false_iff.mpr ‹_›
    split at h <;> cases h
    exact ⟨hc, ‹_›, rfl, rfl⟩

theorem portRead_returned_value {a : Word} {n : Nat} {bytes : List Byte} {s t : State}
    (h : portRead a n s = .returned bytes t) : bytes = s.bytesSeen a n := by
  obtain ⟨-, -, hv, -⟩ := portCall_eq_returned h
  exact hv

theorem portReadU32_returned_value {a v : Word} {s t : State} (h : portReadU32 a s = .returned v t) :
    v = s.wordSeen a := by
  obtain ⟨-, -, hv, -⟩ := portCall_eq_returned h
  exact hv

/-! ### Reads with a silent target -/

theorem State.targetQuiet.plan_during {s : State} {n : Nat} (h : s.targetQuiet (n + 1)) : s.plan.during = [] :=
  ((targetQuiet_succ s n (.readU32 0) true .done).mp h).1

/-- With a silent target memory is the same at every instant of the call. -/
theorem PortPlan.memAt_of_quiet {p : PortPlan} (h : p.during = []) (m : Memory) (k : Nat) : p.memAt m k = m := by
  simp [PortPlan.memAt, h]

/-- R52 with a silent target: a span read sees the bytes of its span. -/
theorem State.bytesSeen_of_quiet {s : State} (h : s.plan.during = []) (a : Word) (n : Nat) :
    s.bytesSeen a n = (List.range n).map fun i => s.mem.read (a.toNat + i) := by
  simp only [State.bytesSeen, PortPlan.memAt_of_quiet h]

/-- R54 with a silent target: a word read sees the word at its address. -/
theorem State.wordSeen_of_quiet {s : State} (h : s.plan.during = []) (a : Word) : s.wordSeen a = s.mem.word a := by
  simp only [State.wordSeen, State.wordByteSeen, PortPlan.memAt_of_quiet h, Memory.word, Nat.add_zero]

/-- The bytes of the remote word at an address, in the order of their addresses. -/
theorem Memory.bytesLe32_word (m : Memory) (a : Word) :
    bytesLe32 (m.word a) = (List.range 4).map fun i => m.read (a.toNat + i) := by
  simp [Memory.word, List.range_succ]

/-- Settles O43: both reads see the memory of the same instant, and the word is made of its four bytes. -/
theorem wordReadIsLittleEndian : Obligations.WordReadIsLittleEndian := by
  intro s t u a bytes v hq hspan hword
  have hd := hq.plan_during
  have hb : bytes = (List.range 4).map fun i => s.mem.read (a.toNat + i) :=
    (portRead_returned_value hspan).trans (State.bytesSeen_of_quiet hd a 4)
  have hv : v = s.mem.word a := (portReadU32_returned_value hword).trans (State.wordSeen_of_quiet hd a)
  subst hb hv
  exact ⟨(Memory.bytesLe32_word s.mem a).symm, le32_toNat ..⟩

end Sys2Proof.Machine
end

section
/-!
The invariant `State.Inv` and what keeps it (`10_state.md` R31, R33, R40): which registers hold values in each session state,
and that every step keeps this.
-/

namespace Sys2Proof.Machine

/-! ### STATUS (R31) -/

theorem Status.eq_of_legal_idle {t : Status} (h : t.legal = true) (hs : t.session = .idle) : t = ⟨.idle, false, none⟩ := by
  obtain ⟨session, dvalid, fprim⟩ := t
  obtain rfl : session = .idle := hs
  revert h
  cases dvalid <;> cases fprim <;> simp [Status.legal]

theorem Status.eq_of_legal_active {t : Status} (h : t.legal = true) (hs : t.session = .active) :
    t = ⟨.active, true, none⟩ := by
  obtain ⟨session, dvalid, fprim⟩ := t
  obtain rfl : session = .active := hs
  revert h
  cases dvalid <;> cases fprim <;> simp [Status.legal]

/-- Settles O5: the fields have 3 * 2 * 5 values, and each is legal exactly if its word is listed. -/
theorem statusWordsListed : Obligations.StatusWordsListed := by
  rintro ⟨session, dvalid, fprim⟩
  have prims : ∀ session dvalid, ∀ fprim ∈ [none, some Prim.read, some .write, some .readU32, some .writeU32],
      (Status.mk session dvalid fprim).legal = true ↔
        (Status.mk session dvalid fprim).word.toNat ∈ [0x00, 0x05, 0x0A, 0x0E, 0x16, 0x1E, 0x26] := by
    intro session dvalid
    cases session <;> cases dvalid <;> decide
  refine prims session dvalid fprim ?_
  rcases fprim with _ | (_ | _) <;> simp

/-! ### The registers a state that meets the invariant holds (R33) -/

theorem State.registersValid_iff (s : State) : s.registersValid = true ↔
    s.x.isSome = s.status.dvalid ∧
      s.cbAddr.isSome = (s.status.session != .idle || s.openInFlight) ∧
      s.fcmd.isSome = (s.status.session == .faulted) ∧ s.faddr.isSome = (s.status.session == .faulted) := by
  simp [State.registersValid, and_assoc]

theorem State.registers_eq_iff (s : State) (x : Option Descriptors) (cb : Option Word) (st : Status) (k a : Option Word) :
    s.registers = (x, cb, st, k, a) ↔ s.x = x ∧ s.cbAddr = cb ∧ s.status = st ∧ s.fcmd = k ∧ s.faddr = a := by
  simp [State.registers]

/-- Outside Faulted no fault is recorded (R32). -/
theorem State.Inv.no_fault_recorded {s : State} (h : s.Inv) (hs : s.status.session ≠ .faulted) :
    s.fcmd = none ∧ s.faddr = none := by
  obtain ⟨-, -, hk, ha⟩ := s.registersValid_iff.mp h.registers
  rw [beq_eq_false_iff_ne.mpr hs, Option.isSome_eq_false_iff, Option.isNone_iff_eq_none] at hk ha
  exact ⟨hk, ha⟩

/-- In Idle with nothing in flight no register but STATUS holds a value. -/
theorem State.Inv.registers_of_idle {s : State} (h : s.Inv) (hf : s.inFlight = none) (hs : s.status.session = .idle) :
    s.registers = (none, none, ⟨.idle, false, none⟩, none, none) := by
  have hst := Status.eq_of_legal_idle h.status hs
  obtain ⟨hx, hcb, -, -⟩ := s.registersValid_iff.mp h.registers
  obtain ⟨hk, ha⟩ := h.no_fault_recorded (by simp [hs])
  exact (s.registers_eq_iff ..).mpr ⟨by simpa [hst] using hx, by simpa [hst, State.openInFlight, hf] using hcb, hst, hk, ha⟩

/-- In Active the descriptor registers and CB_ADDR hold values, and no fault is recorded. -/
theorem State.Inv.registers_of_active {s : State} (h : s.Inv) (hs : s.status.session = .active) :
    ∃ x cb, s.registers = (some x, some cb, ⟨.active, true, none⟩, none, none) := by
  obtain ⟨-, ⟨x, hx⟩, cb, hcb⟩ := Inv_active h hs
  obtain ⟨hk, ha⟩ := h.no_fault_recorded (by simp [hs])
  exact ⟨x, cb, (s.registers_eq_iff ..).mpr ⟨hx, hcb, Status.eq_of_legal_active h.status hs, hk, ha⟩⟩

/-! ### The states that meet the invariant -/

/-- The invariant speaks of the block's registers, the command in flight, PORT_LIVENESS and remote memory only. -/
theorem State.Inv.congr {s t : State} (h : s.Inv) (hr : t.registers = s.registers) (hf : t.inFlight = s.inFlight)
    (hc : t.cfg = s.cfg) (hm : t.mem.wf) : t.Inv := by
  obtain ⟨hx, hcb, hst, hk, ha⟩ := (t.registers_eq_iff ..).mp hr
  have ho : t.openInFlight = s.openInFlight := by simp only [State.openInFlight, hf]
  refine ⟨hst ▸ h.status, ?_, ?_, hm⟩
  · rw [State.registersValid_iff, hx, hcb, hst, hk, ha, ho]
    exact s.registersValid_iff.mp h.registers
  · simpa only [State.inFlightLegal, hf, hc, hst] using h.inFlight

theorem State.inv_of_no_values {s : State} (hr : s.registers = (none, none, ⟨.idle, false, none⟩, none, none))
    (hf : s.inFlight = none) (hm : s.mem.wf) : s.Inv := by
  obtain ⟨hx, hcb, hst, hk, ha⟩ := (s.registers_eq_iff ..).mp hr
  refine ⟨hst ▸ rfl, ?_, by simp [State.inFlightLegal, hf], hm⟩
  rw [State.registersValid_iff, hx, hcb, hst, hk, ha]
  simp [State.openInFlight, hf]

theorem State.inv_of_active_registers {s : State} {x : Descriptors} {cb : Word}
    (hr : s.registers = (some x, some cb, ⟨.active, true, none⟩, none, none)) (hf : s.inFlightLegal = true)
    (hm : s.mem.wf) : s.Inv := by
  obtain ⟨hx, hcb, hst, hk, ha⟩ := (s.registers_eq_iff ..).mp hr
  refine ⟨hst ▸ rfl, ?_, hf, hm⟩
  rw [State.registersValid_iff, hx, hcb, hst, hk, ha]
  simp

/-- A fault while DVALID is 0 is that of an OPEN, whose one call is a read (R31). -/
theorem State.inv_of_raise {s : State} (k : Word) {p : Prim} (a : Word) (hx : s.x.isSome = s.status.dvalid)
    (hcb : s.cbAddr.isSome = true) (hp : s.status.dvalid = false → p = .read) (hf : s.inFlight = none) (hm : s.mem.wf) :
    (s.raiseTransportError k p a).Inv := by
  refine ⟨?_, (State.registersValid_iff _).mpr ⟨hx, hcb, rfl, rfl⟩, by simp [State.inFlightLegal, hf], hm⟩
  rw [State.raise_status]
  cases hd : s.status.dvalid with
  | false => simp [hd, hp hd, Status.legal]
  | true => simp [hd, Status.legal]

/-- An OPEN whose read does not return has written CB_ADDR and nothing else (R110, R213). -/
theorem State.inv_of_open_in_flight {s : State} {cb a : Word}
    (hr : s.registers = (none, some cb, ⟨.idle, false, none⟩, none, none)) (hf : s.inFlight = some (.openSession a))
    (hl : s.cfg.portLiveness = false) (hm : s.mem.wf) : s.Inv := by
  obtain ⟨hx, hcb, hst, hk, ha⟩ := (s.registers_eq_iff ..).mp hr
  refine ⟨hst ▸ rfl, ?_, by simp [State.inFlightLegal, hf, hl, hst], hm⟩
  rw [State.registersValid_iff, hx, hcb, hst, hk, ha]
  simp [State.openInFlight, hf]

/-- Settles O13: memory lists nothing, and nothing is in flight. -/
theorem resetMeetsInvariant : Obligations.ResetMeetsInvariant := State.inv_of_no_values rfl rfl Memory.wf_nil

/-- Settles O10: reset and CLOSE discard the same registers. -/
theorem resetLeavesRegistersEmpty : Obligations.ResetLeavesRegistersEmpty := by
  refine ⟨⟨by decide, rfl, rfl, rfl, rfl, rfl, rfl⟩, fun s rest hf hi => ?_, fun s hf => ?_⟩
  · exact ⟨State.resetBlock { s with inputs := rest }, by simp [step, State.fetch, hf, hi], rfl, rfl, rfl, rfl, rfl⟩
  · exact ⟨s.discard.respond .ok 0 [], rfl, rfl, hf⟩

/-! ### Every step keeps the invariant -/

theorem SameBlock.registers_eq {s t : State} (h : SameBlock s t) : t.registers = s.registers :=
  (t.registers_eq_iff ..).mpr ⟨h.x, h.cbAddr, h.status, h.fcmd, h.faddr⟩

theorem State.Inv.respond {s : State} (h : s.Inv) (code : StatusCode) (v : Word) (p : List Byte) :
    (s.respond code v p).Inv := h.congr rfl rfl rfl h.memory

theorem State.Inv.environment {s : State} (h : s.Inv) (e : EnvEvent) : (s.environment e).Inv := by
  cases e with
  | target t => exact h.congr rfl rfl rfl (t.apply_wf _ h.memory)
  | reset => exact State.inv_of_no_values rfl rfl h.memory

/-- What a command's port calls leave, the last of which may not have returned: memory stays canonical. -/
theorem CallsMade.wf_afterCall {s v : State} {i : Instr} {es : List PortEvent} (hv : CallsMade (s.begun i) es v)
    (hm : s.mem.wf) {k : PortCall} (hc : k.crossesTop = false) (w : Bool) (ans : PortAnswer) :
    (v.afterCall k w ans).mem.wf :=
  memAfter_wf v k w hc (hv.wf ((s.begun_mem i).symm ▸ hm))

/-- In Active only OPEN writes a register before its port calls, and OPEN is not accepted there. -/
theorem State.begun_of_active {s : State} {i : Instr} (ha : s.accepts i = true) (hs : s.status.session = .active) :
    s.begun i = s := by
  cases i with
  | openSession a => simp [State.accepts, hs] at ha
  | _ => rfl

theorem State.session_of_accepts_open {s : State} {a : Word} (h : s.accepts (.openSession a) = true) :
    s.status.session = .idle := by
  simpa [State.accepts] using h

/-- The registers from which the read of an accepted OPEN starts. -/
theorem State.Inv.registers_of_open {s : State} {a : Word} (h : s.Inv) (hf : s.inFlight = none)
    (ha : s.accepts (.openSession a) = true) :
    (s.begun (.openSession a)).registers = (none, some a, ⟨.idle, false, none⟩, none, none) := by
  have hr := h.registers_of_idle hf (State.session_of_accepts_open ha)
  obtain ⟨hx, -, hst, hk, hfa⟩ := (s.registers_eq_iff ..).mp hr
  exact (State.registers_eq_iff ..).mpr ⟨hx, rfl, hst, hk, hfa⟩

/-- A command keeps the invariant, in each way it can end. -/
theorem ExecEnd.inv {i : Instr} {s t : State} (h : ExecEnd i s t) (hs : s.Inv) (hf : s.inFlight = none) : t.Inv := by
  cases h with
  | refused h => exact hs.respond ..
  | answered v h ha => exact hs.respond ..
  | closed h => exact State.inv_of_no_values rfl hf hs.memory
  | opened a bytes u h ha hu =>
    subst h
    have hr := hu.sameBlock.registers_eq.trans (hs.registers_of_open hf ha)
    obtain ⟨-, hcb, hst, hk, hfa⟩ := (u.registers_eq_iff ..).mp hr
    have hfl : u.inFlight = none := hu.sameBlock.inFlight.trans hf
    refine State.inv_of_active_registers (x := descriptorsOfSpan bytes) (cb := a) ?_ ?_ (hu.wf hs.memory)
    · exact (State.registers_eq_iff ..).mpr ⟨rfl, hcb, by simp [hst], hk, hfa⟩
    · simp [State.inFlightLegal, hfl]
  | completed x y v p es u ha hx hc he hu =>
    obtain ⟨x', cb, hr⟩ := hs.registers_of_active ha
    obtain ⟨-, hcb, hst, hk, hfa⟩ := (u.registers_eq_iff ..).mp (hu.sameBlock.registers_eq.trans hr)
    have hfl : u.inFlight = none := hu.sameBlock.inFlight.trans hf
    refine State.inv_of_active_registers (x := y) (cb := cb) ?_ ?_ (hu.wf hs.memory)
    · exact (State.registers_eq_iff ..).mpr ⟨rfl, hcb, hst, hk, hfa⟩
    · simp [State.inFlightLegal, hfl]
  | faulted es k rest v ha hi he hv hc hp =>
    have hm := hv.wf_afterCall hs.memory hc false .failed
    have hfl : v.inFlight = none := hv.sameBlock.inFlight.trans ((s.begun_inFlight i).trans hf)
    have hr := hv.sameBlock.registers_eq
    rcases hi with hact | ⟨a, rfl⟩
    · rw [State.begun_of_active ha hact] at hr
      obtain ⟨x, cb, hr'⟩ := hs.registers_of_active hact
      obtain ⟨hx, hcb, hst, -, -⟩ := (v.registers_eq_iff ..).mp (hr.trans hr')
      exact State.inv_of_raise _ _ (by simp [hx, hst]) (by simp [hcb]) (by simp [hst]) hfl hm
    · obtain ⟨hx, hcb, hst, -, -⟩ := (v.registers_eq_iff ..).mp (hr.trans (hs.registers_of_open hf ha))
      have hk : k = .read (a + 16) 40 := by
        have : k ∈ s.callsOf (.openSession a) := by simp [← he]
        simpa [State.callsOf] using this
      exact State.inv_of_raise _ _ (by simp [hx, hst]) (by simp [hcb]) (fun _ => by rw [hk]; rfl) hfl hm
  | cut es k rest v ha he hv hc hp =>
    exact State.inv_of_no_values rfl rfl (hv.wf_afterCall hs.memory hc false .noReturn)
  | hung es k rest v ha hi hl he hv hc hp =>
    have hm := hv.wf_afterCall hs.memory hc false .noReturn
    have hlive : v.cfg.portLiveness = false := by rw [hv.sameBlock.cfg, s.begun_cfg, hl]
    have hr := hv.sameBlock.registers_eq
    rcases hi with hact | ⟨a, rfl⟩
    · rw [State.begun_of_active ha hact] at hr
      obtain ⟨x, cb, hr'⟩ := hs.registers_of_active hact
      obtain ⟨-, -, hst, -, -⟩ := (v.registers_eq_iff ..).mp (hr.trans hr')
      refine State.inv_of_active_registers (hr.trans hr') ?_ hm
      cases i with
      | openSession a => simp [State.accepts, hact] at ha
      | _ => simp [State.inFlightLegal, hlive, hst]
    · exact State.inv_of_open_in_flight (hr.trans (hs.registers_of_open hf ha)) rfl hlive hm

/-- Settles O12: waiting, the environment and a refused word by their own lemmas, a command by `ExecEnd.inv`. -/
theorem stepKeepsInvariant : Obligations.StepKeepsInvariant := by
  intro s t hs h
  have dropInput (l : List Input) : State.Inv { s with inputs := l } := hs.congr rfl rfl rfl hs.memory
  rcases step_cases h with ⟨i, -, rfl⟩ | ⟨hf, ⟨-, rfl⟩ | ⟨e, rest, -, rfl⟩ | ⟨c, rest, -, hc⟩⟩
  · rcases waitInCall_cases s with hw | ⟨e, left, -, hw⟩
    · rwa [hw]
    · rw [hw]
      exact (dropInput left).environment e
  · exact hs
  · exact (dropInput rest).environment e
  · rcases hc with ⟨r, -, rfl⟩ | ⟨i, -, -, he⟩
    · exact (dropInput rest).respond ..
    · exact (execEnd_of_next he).inv (dropInput rest) hf

end Sys2Proof.Machine
end

section
/-!
What a command leaves unchanged, and which steps change the session (`10_state.md` R28, R38, R39; `20_memory.md` R58, R79, R80).
-/

namespace Sys2Proof.Machine

/-! ### Remote memory outside a command's calls -/

/-- What the target does in a call after `es` counts among what it does in the calls from the start. -/
theorem CallsMade.targetTouches_of_plan {s v : State} {es : List PortEvent} (h : CallsMade s es v) {n a : Nat}
    (hn : es.length < n) (hp : ∃ t ∈ v.plan.during, ∃ d ∈ t.cells, d.1.toNat = a) : s.targetTouches n a := by
  induction h generalizing n with
  | nil s =>
    obtain ⟨n, rfl⟩ := Nat.exists_eq_succ_of_ne_zero (Nat.ne_zero_of_lt hn)
    exact (targetTouches_succ s n a (.readU32 0) true .done).mpr (.inl hp)
  | cons s c ans es t hc _ _ ih =>
    obtain ⟨n, rfl⟩ := Nat.exists_eq_succ_of_ne_zero (Nat.ne_zero_of_lt hn)
    exact (targetTouches_succ s n a c true ans).mpr (.inr (ih (Nat.lt_of_succ_lt_succ hn) hp))

theorem State.begun_targetTouches (s : State) (i : Instr) (n a : Nat) :
    (s.begun i).targetTouches n a ↔ s.targetTouches n a := by
  simp [State.targetTouches, State.stepsIn]

section
variable {s v : State} {i : Instr} {es : List PortEvent} {a : Nat} (hv : CallsMade (s.begun i) es v)
  (hs : ¬ s.storesTo i a) (ht : ¬ s.targetTouches (s.callsOf i).length a)
include hv hs ht

/-- The calls of a command that have returned leave memory alone outside what they store and the target writes. -/
theorem CallsMade.read_frame {rest : List PortCall} (he : es.map PortEvent.call ++ rest = s.callsOf i) :
    v.mem.read a = s.mem.read a := by
  have hl : es.length ≤ (s.callsOf i).length := by simp [← he]
  have stored : ∀ e ∈ es, ¬ (e.call.addr.toNat ≤ a ∧ a < e.call.addr.toNat + e.call.stored.length) :=
    fun e hm h => hs ⟨e.call, he ▸ List.mem_append_left _ (List.mem_map_of_mem hm), h⟩
  rw [hv.read_other _ a hl stored (by rwa [s.begun_targetTouches]), s.begun_mem]

/-- So does the call after them, whatever way it ends. -/
theorem CallsMade.read_frame_afterCall {k : PortCall} {rest : List PortCall} (w : Bool) (ans : PortAnswer)
    (he : es.map PortEvent.call ++ k :: rest = s.callsOf i) : (v.afterCall k w ans).mem.read a = s.mem.read a := by
  have hl : es.length < (s.callsOf i).length := by simp [← he]
  have hk : k ∈ s.callsOf i := by simp [← he]
  refine (memAfter_read_other v k w a (fun h => hs ⟨k, hk, h⟩) fun t hm d hd e => ht ?_).trans (hv.read_frame hs ht he)
  exact (s.begun_targetTouches i _ a).mp (hv.targetTouches_of_plan hl ⟨t, hm, d, hd, e⟩)

end

theorem Completes.begun_eq {i : Instr} {x y : Descriptors} {v : Word} {p : List Byte} (h : Completes i x y v p) (s : State) :
    s.begun i = s := by
  cases i with
  | openSession a => exact h.elim
  | _ => rfl

/-- R39, R79, R80: a command's frame in remote memory. -/
theorem ExecEnd.read_frame {i : Instr} {s t : State} (h : ExecEnd i s t) {a : Nat} (hs : ¬ s.storesTo i a)
    (ht : ¬ s.targetTouches (s.callsOf i).length a) : t.mem.read a = s.mem.read a := by
  cases h with
  | refused _ => rfl
  | answered _ _ _ => rfl
  | closed _ => rfl
  | opened a bytes u h ha hu => subst h; exact hu.read_frame hs ht (List.append_nil _)
  | completed x y v p es u ha hx hc he hu =>
    have hu : CallsMade (s.begun i) es u := by rwa [hc.begun_eq]
    exact hu.read_frame hs ht ((List.append_nil _).trans he)
  | faulted es k rest v ha hi he hv hc hp => exact hv.read_frame_afterCall hs ht false .failed he
  | cut es k rest v ha he hv hc hp => exact hv.read_frame_afterCall hs ht false .noReturn he
  | hung es k rest v ha hi hl he hv hc hp => exact hv.read_frame_afterCall hs ht false .noReturn he

/-! ### The block's registers, the parameters and the inputs -/

/-- No command writes the parameters or takes an input. -/
theorem ExecEnd.cfg_inputs {i : Instr} {s t : State} (h : ExecEnd i s t) : t.cfg = s.cfg ∧ t.inputs = s.inputs := by
  have calls {es : List PortEvent} {v : State} (hv : CallsMade (s.begun i) es v) (hc : t.cfg = v.cfg)
      (hi : t.inputs = v.inputs) : t.cfg = s.cfg ∧ t.inputs = s.inputs :=
    ⟨hc.trans (hv.sameBlock.cfg.trans (s.begun_cfg i)), hi.trans (hv.sameBlock.inputs.trans (s.begun_inputs i))⟩
  cases h with
  | refused _ => exact ⟨rfl, rfl⟩
  | answered _ _ _ => exact ⟨rfl, rfl⟩
  | closed _ => exact ⟨rfl, rfl⟩
  | opened a bytes u h ha hu => exact calls hu rfl rfl
  | completed x y v p es u ha hx hc he hu => exact ⟨hu.sameBlock.cfg, hu.sameBlock.inputs⟩
  | faulted es k rest v ha hi he hv hc hp => exact calls hv rfl rfl
  | cut es k rest v ha he hv hc hp => exact calls hv rfl rfl
  | hung es k rest v ha hi hl he hv hc hp => exact calls hv rfl rfl

/-- The descriptor registers stay, but for the offset of its channel that ENQ, DEQ or RFSH writes. -/
def OffsetWritten (i : Instr) (s t : State) : Prop :=
  t.x = s.x ∨
    ∃ x c f v, s.x = some x ∧ t.x = some (x.setOffset c f v) ∧
      ((∃ d, i = .enq c d ∧ f = .w) ∨ (∃ n, i = .deq c n ∧ f = .r) ∨ i = .rfsh c f)

theorem Completes.offsetWritten {i : Instr} {s t : State} {x y : Descriptors} {v : Word} {p : List Byte}
    (h : Completes i x y v p) (hs : s.x = some x) (ht : t.x = some y) : OffsetWritten i s t := by
  cases i with
  | enq c data =>
    obtain ⟨-, -, rfl⟩ := h
    exact .inr ⟨x, c, .w, _, hs, ht, .inl ⟨data, rfl, rfl⟩⟩
  | deq c n =>
    obtain ⟨-, -, rfl⟩ := h
    exact .inr ⟨x, c, .r, _, hs, ht, .inr (.inl ⟨n, rfl, rfl⟩)⟩
  | rfsh c f =>
    obtain ⟨-, rfl⟩ := h
    exact .inr ⟨x, c, f, v, hs, ht, .inr (.inr rfl)⟩
  | peek c n =>
    obtain ⟨-, -, rfl⟩ := h
    exact .inl (ht.trans hs.symm)
  | pub c f =>
    obtain ⟨-, -, rfl⟩ := h
    exact .inl (ht.trans hs.symm)
  | _ => exact h.elim

/-- What a command other than OPEN leaves of the registers of a session that it does not end. -/
structure RegisterFrame (i : Instr) (s t : State) : Prop where
  cbAddr : t.cbAddr = s.cbAddr
  dvalid : t.status.dvalid = s.status.dvalid
  control : t.status.session = s.status.session → t.status = s.status ∧ t.fcmd = s.fcmd ∧ t.faddr = s.faddr
  x : OffsetWritten i s t

theorem RegisterFrame.of_registers_eq {i : Instr} {s t : State} (h : t.registers = s.registers) : RegisterFrame i s t := by
  obtain ⟨hx, hcb, hst, hk, ha⟩ := (t.registers_eq_iff ..).mp h
  exact ⟨hcb, by rw [hst], fun _ => ⟨hst, hk, ha⟩, .inl hx⟩

theorem State.begun_registers {s : State} {i : Instr} (ho : ∀ a, i ≠ .openSession a) :
    (s.begun i).registers = s.registers := by
  simp [State.registers, s.begun_cbAddr i ho]

/-- R39: a command's frame in the registers of a session. -/
theorem ExecEnd.register_frame {i : Instr} {s t : State} (h : ExecEnd i s t) (ht : t.status.session ≠ .idle)
    (ho : ∀ a, i ≠ .openSession a) : RegisterFrame i s t := by
  cases h with
  | refused _ => exact .of_registers_eq rfl
  | answered _ _ _ => exact .of_registers_eq rfl
  | closed _ => exact absurd rfl ht
  | opened a bytes u h ha hu => exact absurd h (ho a)
  | completed x y v p es u ha hx hc he hu =>
    obtain ⟨-, hcb, hst, hk, hfa⟩ := (u.registers_eq_iff ..).mp hu.sameBlock.registers_eq
    exact ⟨hcb, congrArg Status.dvalid hst, fun _ => ⟨hst, hk, hfa⟩, hc.offsetWritten hx rfl⟩
  | faulted es k rest v ha hi he hv hc hp =>
    have hr := hv.sameBlock.registers_eq.trans (State.begun_registers ho)
    obtain ⟨hx, hcb, hst, -, -⟩ := (v.registers_eq_iff ..).mp hr
    have hact := hi.resolve_right fun ⟨a, h⟩ => ho a h
    exact ⟨hcb, by simp [hst], fun h => by simp [hact] at h, .inl hx⟩
  | cut es k rest v ha he hv hc hp => exact absurd rfl ht
  | hung es k rest v ha hi hl he hv hc hp =>
    exact .of_registers_eq (hv.sameBlock.registers_eq.trans (State.begun_registers ho))

/-- Settles O19: the frames of memory, of the parameters and inputs, and of the registers. -/
theorem commandFrame : Obligations.CommandFrame := by
  intro s t i h
  have hend := execEnd_of_next h
  obtain ⟨hcfg, hinputs⟩ := hend.cfg_inputs
  refine ⟨fun a hs ht => hend.read_frame hs ht, hcfg, hinputs, fun ht ho => ?_⟩
  obtain ⟨hcb, hd, hctl, hx⟩ := hend.register_frame ht ho
  exact ⟨hcb, hd, hctl, hx⟩

/-! ### Masks, element sizes and buffer bases (R28) -/

/-- The registers of `y` that no command writes singly are those of `x`. -/
def Descriptors.SameStructure (x y : Descriptors) : Prop :=
  ∀ c, (y.chan c).capacityMask = (x.chan c).capacityMask ∧ (y.chan c).elementSize = (x.chan c).elementSize ∧
    (y.chan c).bufferBase = (x.chan c).bufferBase

theorem Descriptors.sameStructure_refl (x : Descriptors) : x.SameStructure x := fun _ => ⟨rfl, rfl, rfl⟩

theorem Descriptors.sameStructure_setOffset (x : Descriptors) (c : Channel) (f : OffsetField) (v : Word) :
    x.SameStructure (x.setOffset c f v) := by
  intro c'
  by_cases h : c' = c
  · subst h; simp
  · simp [Descriptors.chan_setOffset_other x f v h]

theorem execOpen_refused {s : State} (a : Word) (hs : s.status.session ≠ .idle) :
    exec (.openSession a) s = s.refuseBadState := by
  simp [exec, execOpen, hs]

/-- A command that leaves a session open or faulted leaves its structure. -/
theorem exec_sameStructure {i : Instr} {s t : State} {x : Descriptors} (h : exec i s = .next t)
    (hs : s.status.session ≠ .idle) (hx : s.x = some x) (ht : t.status.session ≠ .idle) :
    ∃ y, t.x = some y ∧ x.SameStructure y := by
  have other (ho : ∀ a, i ≠ .openSession a) : ∃ y, t.x = some y ∧ x.SameStructure y := by
    rcases ((execEnd_of_next h).register_frame ht ho).x with e | ⟨x', c, f, v, hx', e, -⟩
    · exact ⟨x, e.trans hx, x.sameStructure_refl⟩
    · obtain rfl : x' = x := Option.some.inj (hx'.symm.trans hx)
      exact ⟨_, e, x'.sameStructure_setOffset c f v⟩
  cases i with
  | openSession a =>
    rw [execOpen_refused a hs] at h
    cases h
    exact ⟨x, hx, x.sameStructure_refl⟩
  | _ => exact other fun a => by simp

/-- Outside a command the descriptor registers stay, or reset leaves the session Idle. -/
theorem State.environment_x {s : State} {e : EnvEvent} (h : (s.environment e).status.session ≠ .idle) :
    (s.environment e).x = s.x := by
  cases e with
  | target g => rfl
  | reset => exact absurd rfl h

/-- Settles O15: only OPEN writes these registers, and it is refused in a session. -/
theorem structureFixedInSession : Obligations.StructureFixedInSession := by
  refine ⟨fun s t x hs hx h ht => ?_, fun s a hs => execOpen_refused a hs⟩
  have kept (e : t.x = s.x) : ∃ y, t.x = some y ∧ x.SameStructure y := ⟨x, e.trans hx, x.sameStructure_refl⟩
  rcases step_cases h with ⟨i, -, rfl⟩ | ⟨-, ⟨-, rfl⟩ | ⟨e, rest, -, rfl⟩ | ⟨c, rest, -, hc⟩⟩
  · rcases waitInCall_cases s with hw | ⟨e, left, -, hw⟩
    · exact kept (by rw [hw])
    · rw [hw] at ht
      exact kept (by rw [hw, State.environment_x ht])
  · exact kept rfl
  · exact kept (State.environment_x ht)
  · rcases hc with ⟨r, -, rfl⟩ | ⟨i, -, -, he⟩
    · exact kept rfl
    · exact exec_sameStructure (s := { s with inputs := rest }) he hs hx ht

/-! ### Session changes (R38) -/

/-- Only the transfer and synchronisation commands have port calls in an open session (R58). -/
theorem State.transfer_or_sync_of_call {s : State} {i : Instr} {k : PortCall} (hk : k ∈ s.callsOf i)
    (ho : ∀ a, i ≠ .openSession a) :
    (∃ h d, i = .enq h d) ∨ (∃ h n, i = .peek h n) ∨ (∃ h n, i = .deq h n) ∨ (∃ h f, i = .rfsh h f) ∨ ∃ h f, i = .pub h f := by
  cases i with
  | openSession a => exact absurd rfl (ho a)
  | enq c d => exact .inl ⟨c, d, rfl⟩
  | peek c n => exact .inr (.inl ⟨c, n, rfl⟩)
  | deq c n => exact .inr (.inr (.inl ⟨c, n, rfl⟩))
  | rfsh c f => exact .inr (.inr (.inr (.inl ⟨c, f, rfl⟩)))
  | pub c f => exact .inr (.inr (.inr (.inr ⟨c, f, rfl⟩)))
  | _ => simp [State.callsOf] at hk

/-- The session changes a command can make. -/
theorem ExecEnd.session_change {i : Instr} {s t : State} (h : ExecEnd i s t) (hne : t.status.session ≠ s.status.session) :
    (∃ a, i = .openSession a ∧ s.status.session = .idle ∧ (t.status.session = .active ∨ t.status.session = .faulted)) ∨
      (i = .closeSession ∧ t.status.session = .idle) ∨
      (s.status.session = .active ∧ t.status.session = .faulted ∧
        ((∃ h d, i = .enq h d) ∨ (∃ h n, i = .peek h n) ∨ (∃ h n, i = .deq h n) ∨ (∃ h f, i = .rfsh h f) ∨
          ∃ h f, i = .pub h f)) ∨
      (t.status.session = .idle ∧ s.cutShort t i .resetInCall) := by
  cases h with
  | refused _ => exact absurd rfl hne
  | answered _ _ _ => exact absurd rfl hne
  | closed h => exact .inr (.inl ⟨h, rfl⟩)
  | opened a bytes u h ha hu =>
    subst h
    exact .inl ⟨a, rfl, State.session_of_accepts_open ha, .inl rfl⟩
  | completed x y v p es u ha hx hc he hu => exact absurd (congrArg Status.session hu.sameBlock.status) hne
  | faulted es k rest v ha hi he hv hc hp =>
    rcases hi with hact | ⟨a, rfl⟩
    · have hk : k ∈ s.callsOf i := by simp [← he]
      refine .inr (.inr (.inl ⟨hact, rfl, State.transfer_or_sync_of_call hk fun a e => ?_⟩))
      subst e
      simp [State.session_of_accepts_open ha] at hact
    · exact .inl ⟨a, rfl, State.session_of_accepts_open ha, .inr rfl⟩
  | cut es k rest v ha he hv hc hp =>
    exact .inr (.inr (.inr ⟨rfl, hv.cutShort he hp (by simp) rfl⟩))
  | hung es k rest v ha hi hl he hv hc hp =>
    have := hv.sameBlock.status.trans (s.begun_status i)
    exact absurd (congrArg Status.session this) hne

/-- Settles O14: without a command only reset changes the session; a command by `ExecEnd.session_change`. -/
theorem sessionChangesListed : Obligations.SessionChangesListed := by
  intro s t hf h hne
  rcases step_cases h with ⟨i, hi, -⟩ | ⟨-, ⟨-, rfl⟩ | ⟨e, rest, hin, rfl⟩ | ⟨c, rest, hin, hc⟩⟩
  · simp [hf] at hi
  · exact absurd rfl hne
  · cases e with
    | target g => exact absurd rfl hne
    | reset => exact .inr ⟨⟨rest, hin⟩, rfl⟩
  · rcases hc with ⟨r, -, rfl⟩ | ⟨i, hd, -, he⟩
    · exact absurd rfl hne
    · exact .inl ⟨c, rest, i, hin, hd, (execEnd_of_next he).session_change hne⟩

end Sys2Proof.Machine
end

section
/-!
Queries, RDR and transfers on one channel: where they stop, what their answer depends on, and that a transfer keeps its channel
well-formed (`10_state.md` R29, R36, R37; `40_session.md` R112; `42_transfer.md` R135; `93_implementation_defined.md` U1 to U3).
-/

namespace Sys2Proof.Machine

/-! ### The two other ends of a command on a channel -/

theorem State.whenChannel_refused {s : State} {c : Channel} (h : s.status.session ≠ .active ∨ s.x = none)
    (k : Descriptors → Descriptor → Host.Outcome State Fault Refusal) : s.whenChannel c k = s.refuseBadState := by
  unfold State.whenChannel State.whenActive
  rcases h with hs | hx
  · rw [if_neg hs]
  · rw [hx]
    exact ite_self _

/-- `93` U1 to U3: with ALLOW_ILL_FORMED false nothing runs on a channel that is not well-formed. -/
theorem State.whenChannel_stuck {s : State} {x : Descriptors} {c : Channel} (ha : s.status.session = .active)
    (hx : s.x = some x) (hr : ¬ s.runsOn (x.chan c)) (k : Descriptors → Descriptor → Host.Outcome State Fault Refusal) :
    s.whenChannel c k = .fault .illFormedChannel := by
  rw [State.whenChannel, State.whenActive_eq ha hx, if_neg]
  simpa [State.runsOn] using hr

/-- The queries and transfers on channel `c` are those `93` U1 to U3 name. -/
theorem exec_eq_whenChannel {c : Channel} {data : List Byte} {n : Word} {i : Instr}
    (hi : i ∈ [Instr.empty c, .occ c, .free c, .full c, .enq c data, .peek c n, .deq c n]) (s : State) :
    ∃ k, exec i s = s.whenChannel c k := by
  simp only [List.mem_cons, List.not_mem_nil, or_false] at hi
  rcases hi with rfl | rfl | rfl | rfl | rfl | rfl | rfl <;> (unfold exec; exact ⟨_, rfl⟩)

/-- Settles O55: `runsOn` fails where the parameter is false and the channel is not well-formed. -/
theorem illFormedChannelStops : Obligations.IllFormedChannelStops := by
  intro s x c data n ha hx hallow hw i hi
  obtain ⟨k, hk⟩ := exec_eq_whenChannel hi s
  rw [hk, State.whenChannel_stuck ha hx (by simp [State.runsOn, hallow, hw])]

/-! ### RDR (R112) -/

theorem exec_rdr_of_some {s : State} {r : Reg} {v : Word} (h : s.readReg r = some v) :
    exec (.rdr r) s = s.respondOk v [] := by
  simp [exec, execRdr, h]

theorem exec_rdr_of_none {s : State} {r : Reg} (h : s.readReg r = none) : exec (.rdr r) s = s.refuseBadState := by
  simp [exec, execRdr, h]

/-- Settles O21: under the invariant the registers that may be read are those that hold values. -/
theorem readRegister : Obligations.ReadRegister := by
  intro s hs hf ok bad
  obtain ⟨hx, hcb, hk, ha⟩ := s.registersValid_iff.mp hs.registers
  refine ⟨exec_rdr_of_some rfl, fun c k => ?_, ?_, ?_⟩
  · split
    next hd =>
      obtain ⟨x, hx⟩ := Option.isSome_iff_exists.mp (hx.trans hd)
      exact ⟨x, hx, exec_rdr_of_some (by simp [State.readReg, hd, hx])⟩
    next hd => exact exec_rdr_of_none (by simp [State.readReg, hd])
  · split
    next hi => exact exec_rdr_of_none (by simp [State.readReg, hi])
    next hi =>
      obtain ⟨a, ha⟩ := Option.isSome_iff_exists.mp (hcb.trans (by simp [hi]))
      exact ⟨a, ha, exec_rdr_of_some (by simp [State.readReg, hi, ha])⟩
  · split
    next hfault =>
      obtain ⟨k, hk⟩ := Option.isSome_iff_exists.mp (hk.trans (by simp [hfault]))
      obtain ⟨a, ha⟩ := Option.isSome_iff_exists.mp (ha.trans (by simp [hfault]))
      exact ⟨⟨k, hk, exec_rdr_of_some (by simp [State.readReg, hfault, hk])⟩,
        a, ha, exec_rdr_of_some (by simp [State.readReg, hfault, ha])⟩
    next hfault =>
      exact ⟨exec_rdr_of_none (by simp [State.readReg, hfault]), exec_rdr_of_none (by simp [State.readReg, hfault])⟩

/-! ### What a query's answer depends on (R36, R37) -/

/-- Two states with the same registers get the same response, and nothing else changes in either. -/
def AnswerAlike (s s' : State) (o o' : Host.Outcome State Fault Refusal) : Prop :=
  ∀ t, o = .next t → ∃ code v p, t = s.respond code v p ∧ o' = .next (s'.respond code v p)

theorem answerAlike_respond (s s' : State) (code : StatusCode) (v : Word) (p : List Byte) :
    AnswerAlike s s' (.next (s.respond code v p)) (.next (s'.respond code v p)) := by
  intro t h
  cases h
  exact ⟨code, v, p, rfl, rfl⟩

/-- A query answers a function of its channel's registers (R120 to R123). -/
theorem exec_query {i : Instr} {c : Channel} (hi : i = .empty c ∨ i = .occ c ∨ i = .free c ∨ i = .full c) :
    ∃ f : Descriptor → Word, ∀ s : State, exec i s = s.whenChannel c fun _ d => s.respondOk (f d) [] := by
  rcases hi with rfl | rfl | rfl | rfl
  · exact ⟨fun d => boolWord d.isEmpty, fun _ => rfl⟩
  · exact ⟨Descriptor.occ, fun _ => rfl⟩
  · exact ⟨Descriptor.free, fun _ => rfl⟩
  · exact ⟨fun d => boolWord d.isFull, fun _ => rfl⟩

section
variable {s s' : State} (hr : s'.registers = s.registers) (hc : s'.cfg = s.cfg)
include hr

theorem rdr_answerAlike (r : Reg) : AnswerAlike s s' (exec (.rdr r) s) (exec (.rdr r) s') := by
  obtain ⟨hx, hcb, hst, hk, ha⟩ := (s'.registers_eq_iff ..).mp hr
  have hread : s'.readReg r = s.readReg r := by cases r <;> simp only [State.readReg, hx, hcb, hst, hk, ha]
  cases h : s.readReg r with
  | some v =>
    rw [exec_rdr_of_some h, exec_rdr_of_some (hread.trans h)]
    exact answerAlike_respond s s' _ _ _
  | none =>
    rw [exec_rdr_of_none h, exec_rdr_of_none (hread.trans h), State.refuseBadState, State.refuseBadState, hst]
    exact answerAlike_respond s s' _ _ _

include hc

theorem query_answerAlike {i : Instr} {c : Channel} (hi : i = .empty c ∨ i = .occ c ∨ i = .free c ∨ i = .full c) :
    AnswerAlike s s' (exec i s) (exec i s') := by
  obtain ⟨hx', -, hst, -, -⟩ := (s'.registers_eq_iff ..).mp hr
  obtain ⟨f, hf⟩ := exec_query hi
  rw [hf, hf]
  intro t h
  rcases State.whenChannel_next h with ⟨hs, rfl⟩ | ⟨ha, x, hx, hk⟩
  · refine ⟨_, _, _, rfl, ?_⟩
    rw [State.whenChannel_refused (by rwa [hst, hx']), State.refuseBadState, hst]
  · cases hk
    have runs : s.runsOn (x.chan c) := by
      by_contra hn
      rw [State.whenChannel_stuck ha hx hn] at h
      cases h
    refine ⟨_, _, _, rfl, ?_⟩
    rw [State.whenChannel_eq (hst ▸ ha) (hx'.trans hx) (by rwa [State.runsOn, hc]), State.respondOk]

end

/-- Settles O26: the two runs start from the same registers and parameters. -/
theorem queriesReadRegistersOnly : Obligations.QueriesReadRegistersOnly := by
  intro i s t m p g q hi h
  have alike (s' : State) (hr : s'.registers = s.registers) (hc : s'.cfg = s.cfg) :
      AnswerAlike s s' (exec i s) (exec i s') := by
    rcases hi with ⟨c, hi⟩ | ⟨r, rfl⟩
    · exact query_answerAlike hr hc hi
    · exact rdr_answerAlike hr r
  obtain ⟨code, v, pl, ht, ht'⟩ := alike { s with mem := m, port := p, trace := g, responses := q } rfl rfl t h
  exact ⟨{ code := code, result := v, payload := pl }, ht, ht'⟩

/-! ### Transfers keep their channel well-formed (R135 (a)) -/

theorem Descriptor.wellFormed_iff (d : Descriptor) :
    d.wellFormed = true ↔ maskLegal d.capacityMask = true ∧ d.occ.toNat ≤ d.cap.toNat := by
  simp [Descriptor.wellFormed]

@[simp] theorem Descriptor.cap_setOffset (d : Descriptor) (v : Word) (f : OffsetField) : (d.setOffset v f).cap = d.cap := by
  cases f <;> rfl

/-- Moving an offset keeps a channel well-formed as long as the occupancy stays within the capacity. -/
theorem Descriptor.wellFormed_setOffset {d : Descriptor} {v : Word} {f : OffsetField} (h : d.wellFormed = true)
    (ho : (d.setOffset v f).occ.toNat ≤ d.cap.toNat) : (d.setOffset v f).wellFormed = true := by
  rw [Descriptor.wellFormed_iff, Descriptor.setOffset_capacityMask, Descriptor.cap_setOffset]
  exact ⟨(d.wellFormed_iff.mp h).1, ho⟩

/-- ENQ writes no more than is free (R131). -/
theorem Descriptor.wellFormed_enq {d : Descriptor} (h : d.wellFormed = true) (data : List Byte) :
    (d.setOffset (d.writeOffset + BitVec.ofNat 32 (enqCount d data)) .w).wellFormed = true := by
  have ho := (d.wellFormed_iff.mp h).2
  have hn : enqCount d data ≤ d.free.toNat := Nat.min_le_right ..
  have hfree : d.free.toNat = d.cap.toNat - d.occ.toNat := BitVec.toNat_sub_of_le ho
  have hocc : (d.setOffset (d.writeOffset + BitVec.ofNat 32 (enqCount d data)) .w).occ
      = d.occ + BitVec.ofNat 32 (enqCount d data) := by
    simp only [Descriptor.setOffset, Descriptor.occ]
    exact add_sub_right_comm ..
  refine Descriptor.wellFormed_setOffset h ?_
  rw [hocc, BitVec.toNat_add, BitVec.toNat_ofNat]
  omega

/-- DEQ takes no more than is there (R133). -/
theorem Descriptor.wellFormed_deq {d : Descriptor} (h : d.wellFormed = true) (n : Word) :
    (d.setOffset (d.readOffset + BitVec.ofNat 32 (peekCount d n)) .r).wellFormed = true := by
  have ho := (d.wellFormed_iff.mp h).2
  have hn : peekCount d n ≤ d.occ.toNat := Nat.min_le_right ..
  have hocc : (d.setOffset (d.readOffset + BitVec.ofNat 32 (peekCount d n)) .r).occ
      = d.occ - BitVec.ofNat 32 (peekCount d n) := by
    simp only [Descriptor.setOffset, Descriptor.occ]
    exact sub_add_eq_sub_sub ..
  refine Descriptor.wellFormed_setOffset h ?_
  rw [hocc, BitVec.toNat_sub_of_le (by rw [BitVec.le_def, BitVec.toNat_ofNat]; omega)]
  omega

/-- The transfer commands on channel `c`. -/
def IsTransferOn (c : Channel) (i : Instr) : Prop := (∃ d, i = .enq c d) ∨ (∃ n, i = .peek c n) ∨ ∃ n, i = .deq c n

theorem Completes.wellFormed {i : Instr} {x y : Descriptors} {v : Word} {p : List Byte} {c : Channel}
    (h : Completes i x y v p) (hi : IsTransferOn c i) (hw : (x.chan c).wellFormed = true) : (y.chan c).wellFormed = true := by
  rcases hi with ⟨data, rfl⟩ | ⟨n, rfl⟩ | ⟨n, rfl⟩
  · obtain ⟨rfl, -, rfl⟩ := h
    rw [Descriptors.chan_setOffset_same]
    exact Descriptor.wellFormed_enq hw data
  · obtain ⟨-, -, rfl⟩ := h
    exact hw
  · obtain ⟨rfl, -, rfl⟩ := h
    rw [Descriptors.chan_setOffset_same]
    exact Descriptor.wellFormed_deq hw n

/-- A transfer that does not complete writes no descriptor register, or is cut by reset, which empties them. -/
theorem ExecEnd.wellFormed {i : Instr} {s t : State} {x y : Descriptors} {c : Channel} (h : ExecEnd i s t)
    (hi : IsTransferOn c i) (hx : s.x = some x) (hw : (x.chan c).wellFormed = true) (hy : t.x = some y) :
    (y.chan c).wellFormed = true := by
  have unchanged (e : t.x = s.x) : (y.chan c).wellFormed = true := by
    rw [hy, hx] at e
    rwa [Option.some.inj e]
  cases h with
  | refused _ => exact unchanged rfl
  | answered _ _ _ => exact unchanged rfl
  | closed _ => cases hy
  | opened a bytes u h ha hu => simp [IsTransferOn, h] at hi
  | completed x' y' v p es u ha hx' hc he hu =>
    obtain rfl : x' = x := Option.some.inj (hx'.symm.trans hx)
    obtain rfl : y' = y := Option.some.inj hy
    exact hc.wellFormed hi hw
  | faulted es k rest v ha hi he hv hc hp => exact unchanged (hv.sameBlock.x.trans (s.begun_x i))
  | cut es k rest v ha he hv hc hp => cases hy
  | hung es k rest v ha hi hl he hv hc hp => exact unchanged (hv.sameBlock.x.trans (s.begun_x i))

/-- Settles O32: WF(c) bounds the occupancy. -/
theorem transfersKeepChannelWellFormed : Obligations.TransfersKeepChannelWellFormed := by
  intro s t i x y c hi hx hw h hy
  have hw' := (execEnd_of_next h).wellFormed hi hx hw hy
  exact ⟨hw', ((y.chan c).wellFormed_iff.mp hw').2⟩

end Sys2Proof.Machine
end

section
/-!
Words in remote memory: field addresses (`20_memory.md` R59), a word written whole (R55, R67), and bytes written among the
target's steps (R53, R66).
-/

namespace Sys2Proof.Machine

/-! ### Field addresses -/

/-- Settles O6: the offset of a field is taken modulo 2^32. -/
theorem fieldAddresses : Obligations.FieldAddresses := by
  intro cb
  refine ⟨fun c k => ?_, rfl, rfl, rfl, rfl⟩
  rw [fieldAddr, BitVec.toNat_add, BitVec.toNat_ofNat]
  omega

/-- The field operand of RFSH and PUB is the number of its field (R94). -/
theorem fieldAddr_desc (cb : Word) (c : Channel) (f : OffsetField) :
    fieldAddr cb c f.desc = cb + BitVec.ofNat 32 (16 + 20 * c.number + 4 * f.bit.toNat) := by
  cases f <;> rfl

/-- In a control block below the top of the address space no field address wraps. -/
theorem fieldAddr_toNat {cb : Word} (h : cb.toNat + 56 ≤ 2 ^ 32) (c : Channel) (k : DescField) :
    (fieldAddr cb c k).toNat = cb.toNat + 16 + 20 * c.number + 4 * k.number := by
  have hc : c.number ≤ 1 := by cases c <;> decide
  have hk : k.number ≤ 4 := by cases k <;> decide
  rw [(fieldAddresses cb).1]
  omega

/-- The offset words lie in the control block (R51). -/
theorem fieldAddr_desc_inBlock {cb : Word} (h : cb.toNat + 56 ≤ 2 ^ 32) (c : Channel) (f : OffsetField) :
    cb.toNat ≤ (fieldAddr cb c f.desc).toNat ∧ (fieldAddr cb c f.desc).toNat + 4 ≤ cb.toNat + 56 := by
  have hc : c.number ≤ 1 := by cases c <;> decide
  have hf : f.desc.number ≤ 1 := by cases f <;> decide
  rw [fieldAddr_toNat h]
  omega

/-! ### A word written whole -/

/-- R8: a word is made of its bytes. -/
@[simp] theorem le32_extract (v : Word) :
    le32 (v.extractLsb' 0 8) (v.extractLsb' 8 8) (v.extractLsb' 16 8) (v.extractLsb' 24 8) = v := by
  apply BitVec.eq_of_toNat_eq
  simp only [le32_toNat, BitVec.extractLsb'_toNat, Nat.shiftRight_eq_div_pow]
  omega

/-- Memory after the four bytes of `v` are written from address `a` on. -/
def Memory.setWord (m : Memory) (a : Nat) (v : Word) : Memory :=
  writeTimed (timedBytes (fun _ => 0) (fun _ => true) a 0 (bytesLe32 v)) m

theorem Memory.setWord_wf {m : Memory} {a : Nat} (v : Word) (ha : a + 4 ≤ 2 ^ 32) (h : m.wf) : (m.setWord a v).wf := by
  refine writeTimed_wf _ _ (fun w hw => ?_) h
  have := timedBytes_addr _ _ _ _ _ _ hw
  simp only [bytesLe32, List.length_cons, List.length_nil] at this
  omega

theorem Memory.setWord_read_other (m : Memory) {a l : Nat} (v : Word) (hl : l < a ∨ a + 4 ≤ l) :
    (m.setWord a v).read l = m.read l := by
  refine writeTimed_read_other _ _ _ fun w hw => ?_
  have := timedBytes_addr _ _ _ _ _ _ hw
  simp only [bytesLe32, List.length_cons, List.length_nil] at this
  omega

/-- A word reads as `v` where its bytes are those of `v` (R62). -/
theorem Memory.word_of_bytes {m : Memory} {a v : Word}
    (h : ∀ j (hj : j < (bytesLe32 v).length), m.read (a.toNat + j) = (bytesLe32 v)[j]) : m.word a = v := by
  have first := h 0 (by simp [bytesLe32])
  rw [Nat.add_zero] at first
  rw [Memory.word, first, h 1 (by simp [bytesLe32]), h 2 (by simp [bytesLe32]), h 3 (by simp [bytesLe32])]
  exact le32_extract v

theorem Memory.word_setWord {m : Memory} {a : Word} (v : Word) (ha : a.toNat + 4 ≤ 2 ^ 32) (h : m.wf) :
    (m.setWord a.toNat v).word a = v :=
  Memory.word_of_bytes (writeTimed_read_span _ _ (fun _ => rfl) _ _ _ _ h ha)

theorem Memory.word_congr {m m' : Memory} {a : Word} (h : ∀ l, a.toNat ≤ l → l < a.toNat + 4 → m'.read l = m.read l) :
    m'.word a = m.word a := by
  simp only [Memory.word]
  rw [h a.toNat, h (a.toNat + 1), h (a.toNat + 2), h (a.toNat + 3)] <;> omega

theorem word_add_toNat {a : Word} {k : Nat} (h : a.toNat + k < 2 ^ 32) : (a + BitVec.ofNat 32 k).toNat = a.toNat + k := by
  rw [BitVec.toNat_add, BitVec.toNat_ofNat]
  omega

/-- The target's side of R67: its step writes the word. -/
theorem TargetStep.apply_ofWord {a : Word} (v : Word) (m : Memory) (ha : a.toNat + 4 ≤ 2 ^ 32) :
    (TargetStep.ofWord a v).apply m = m.setWord a.toNat v := by
  have h1 : (a + 1).toNat = a.toNat + 1 := word_add_toNat (k := 1) (by omega)
  have h2 : (a + 2).toNat = a.toNat + 1 + 1 := word_add_toNat (k := 2) (by omega)
  have h3 : (a + 3).toNat = a.toNat + 1 + 1 + 1 := word_add_toNat (k := 3) (by omega)
  simp only [TargetStep.apply, TargetStep.ofWord, List.foldl_cons, h1, h2, h3]
  rfl

/-- Bytes that share one instant and land together are written all or none. -/
theorem writeTimed_filter_together (g : Nat → Bool) (e : Nat) (lands : Bool) (bs : List Byte) (a i : Nat) (m : Memory) :
    writeTimed ((timedBytes (fun _ => e) (fun _ => lands) a i bs).filter fun w => g w.instant) m
      = if lands && g e then writeTimed (timedBytes (fun _ => 0) (fun _ => true) a i bs) m else m := by
  induction bs generalizing a i m with
  | nil => simp [timedBytes, writeTimed]
  | cons b bs ih =>
    cases lands with
    | false => simpa [timedBytes] using ih (a + 1) (i + 1) m
    | true =>
      cases hg : g e with
      | false => simpa [timedBytes, hg] using ih (a + 1) (i + 1) m
      | true => simpa [timedBytes, hg, writeTimed] using ih (a + 1) (i + 1) (Memory.write m a b)

/-- An atomic `write_u32` writes the whole word at one instant, or nothing (R55, R67). -/
theorem State.writeTimed_word {s : State} (hat : s.cfg.portU32Atomic = true) (a v : Word) (whole : Bool) (g : Nat → Bool)
    (m : Memory) :
    writeTimed ((s.timedWrites (.writeU32 a v) whole).filter fun w => g w.instant) m = m
      ∨ writeTimed ((s.timedWrites (.writeU32 a v) whole).filter fun w => g w.instant) m = m.setWord a.toNat v := by
  have hone : s.timedWrites (.writeU32 a v) whole
      = timedBytes (fun _ => s.plan.instants.getD 0 0) (fun _ => whole || s.plan.landed.getD 0 false) a.toNat 0
          (bytesLe32 v) := by
    simp only [State.timedWrites, PortCall.atomic, hat]
    rfl
  rw [hone, writeTimed_filter_together]
  split
  · exact .inr rfl
  · exact .inl rfl

/-! ### One location among the target's steps -/

theorem foldl_write_read_congr {α : Type} (f : α → Nat) (g : α → Byte) (l : List α) {m m' : Memory} {a : Nat}
    (hl : ∀ c ∈ l, f c < 2 ^ 32) (hm : m.wf) (hm' : m'.wf) (h : m.read a = m'.read a) :
    Memory.read (l.foldl (fun m c => Memory.write m (f c) (g c)) m) a
      = Memory.read (l.foldl (fun m c => Memory.write m (f c) (g c)) m') a := by
  induction l generalizing m m' with
  | nil => exact h
  | cons c l ih =>
    have hc := hl c (List.mem_cons_self ..)
    refine ih (fun d hd => hl d (List.mem_cons_of_mem c hd)) (m.wf_write _ _ hc hm) (m'.wf_write _ _ hc hm') ?_
    by_cases ha : a = f c
    · rw [ha, Memory.read_write_same m _ _ hm, Memory.read_write_same m' _ _ hm']
    · rwa [Memory.read_write_other m _ ha, Memory.read_write_other m' _ ha]

/-- What the target's steps leave at a location depends on what was there only. -/
theorem applySteps_read_congr (ts : List TargetStep) {m m' : Memory} {a : Nat} (hm : m.wf) (hm' : m'.wf)
    (h : m.read a = m'.read a) : (applySteps ts m).read a = (applySteps ts m').read a := by
  induction ts generalizing m m' with
  | nil => exact h
  | cons t ts ih =>
    exact ih (t.apply_wf m hm) (t.apply_wf m' hm')
      (foldl_write_read_congr _ _ _ (fun c _ => c.1.isLt) hm hm' h)

/-- A location that no byte from instant `k` on is for holds what the target's steps leave. -/
theorem weave_read_unwritten (ws : List TimedByte) (ts : List TargetStep) (k : Nat) {m : Memory} {a : Nat}
    (hws : ∀ w ∈ ws, w.addr < 2 ^ 32) (hm : m.wf) (ha : ∀ w ∈ ws, k ≤ w.instant → w.addr ≠ a) :
    (weave ws ts k m).read a = (applySteps ts m).read a := by
  induction ts generalizing k m with
  | nil =>
    refine writeTimed_read_other _ _ _ fun w hw => ?_
    obtain ⟨hw, hk⟩ := List.mem_filter.mp hw
    exact ha w hw (by simpa using hk)
  | cons t ts ih =>
    have hm' := writeTimed_wf (ws.filter fun w => w.instant == k) m (fun w h => hws w (List.mem_of_mem_filter h)) hm
    refine (ih (k + 1) (t.apply_wf _ hm') fun w hw hk => ha w hw (by omega)).trans ?_
    refine applySteps_read_congr (t :: ts) hm' hm (writeTimed_read_other _ _ _ fun w hw => ?_)
    obtain ⟨hw, hk⟩ := List.mem_filter.mp hw
    exact ha w hw (by simp only [beq_iff_eq] at hk; omega)

theorem writeTimed_read_mem {ws : List TimedByte} {w : TimedByte} {m : Memory} (hw : w ∈ ws)
    (hu : ∀ v ∈ ws, v.addr = w.addr → v = w) (hws : ∀ v ∈ ws, v.addr < 2 ^ 32) (hm : m.wf) :
    (writeTimed ws m).read w.addr = w.byte := by
  induction ws generalizing m with
  | nil => cases hw
  | cons v ws ih =>
    have hv := Memory.wf_write m v.addr v.byte (hws v (List.mem_cons_self ..)) hm
    by_cases hl : w ∈ ws
    · exact ih hl (fun u hu' => hu u (List.mem_cons_of_mem v hu')) (fun u hu' => hws u (List.mem_cons_of_mem v hu')) hv
    · obtain rfl : w = v := (List.mem_cons.mp hw).resolve_right hl
      refine (writeTimed_read_other ws _ _ fun u hu' e => hl ?_).trans (Memory.read_write_same m _ _ hm)
      exact hu u (List.mem_cons_of_mem w hu') e ▸ hu'

/-- A location that one byte of a call is for holds that byte, and what the target's steps after its instant make of it. -/
theorem weave_read_written {ws : List TimedByte} {w : TimedByte} (ts : List TargetStep) (k : Nat) {m m' : Memory}
    (hw : w ∈ ws) (hu : ∀ v ∈ ws, v.addr = w.addr → v = w) (hws : ∀ v ∈ ws, v.addr < 2 ^ 32) (hk : k ≤ w.instant)
    (hm : m.wf) (hm' : m'.wf) :
    (weave ws ts k m).read w.addr
      = (applySteps (ts.drop (w.instant - k)) (Memory.write m' w.addr w.byte)).read w.addr := by
  have sub (p : TimedByte → Bool) (v : TimedByte) (h : v ∈ ws.filter p) : v ∈ ws := List.mem_of_mem_filter h
  have wrote (p : TimedByte → Bool) (hp : p w = true) {m : Memory} (hm : m.wf) :
      (writeTimed (ws.filter p) m).read w.addr = w.byte :=
    writeTimed_read_mem (List.mem_filter.mpr ⟨hw, hp⟩) (fun v h => hu v (sub p v h)) (fun v h => hws v (sub p v h)) hm
  induction ts generalizing k m with
  | nil =>
    rw [List.drop_nil, applySteps_nil, Memory.read_write_same m' _ _ hm']
    exact wrote _ (by simpa using hk) hm
  | cons t ts ih =>
    have hm1 := writeTimed_wf (ws.filter fun w => w.instant == k) m (fun v h => hws v (sub _ v h)) hm
    have hm2 := Memory.wf_write m' w.addr w.byte (hws w hw) hm'
    by_cases he : w.instant = k
    · have later (v : TimedByte) (hv : v ∈ ws) (hle : k + 1 ≤ v.instant) : v.addr ≠ w.addr := fun e => by
        rw [hu v hv e] at hle
        omega
      rw [he, Nat.sub_self, List.drop_zero]
      refine (weave_read_unwritten ws ts (k + 1) hws (t.apply_wf _ hm1) later).trans ?_
      refine applySteps_read_congr (t :: ts) hm1 hm2 ?_
      rw [Memory.read_write_same m' _ _ hm']
      exact wrote _ (by simpa using he) hm
    · rw [show w.instant - k = w.instant - (k + 1) + 1 by omega, List.drop_succ_cons]
      exact ih (k + 1) (by omega) (t.apply_wf _ hm1)

/-- The bytes of a call that reach memory are those that land, each in its place. -/
theorem mem_timedBytes {f : Nat → Nat} {g : Nat → Bool} {bs : List Byte} {a i : Nat} {w : TimedByte} :
    w ∈ timedBytes f g a i bs ↔
      ∃ j b, bs[j]? = some b ∧ g (i + j) = true ∧ w = { instant := f (i + j), addr := a + j, byte := b } := by
  induction bs generalizing a i with
  | nil => simp [timedBytes]
  | cons b bs ih =>
    have tail : w ∈ timedBytes f g (a + 1) (i + 1) bs ↔
        ∃ j c, (b :: bs)[j + 1]? = some c ∧ g (i + (j + 1)) = true ∧
          w = { instant := f (i + (j + 1)), addr := a + (j + 1), byte := c } := by
      simp only [ih, List.getElem?_cons_succ, Nat.add_assoc, Nat.add_comm 1]
    rw [← Nat.or_exists_add_one, ← tail, timedBytes]
    cases hg : g i <;> simp

/-- No two bytes of a call are for the same location. -/
theorem timedBytes_unique {f : Nat → Nat} {g : Nat → Bool} {bs : List Byte} {a i : Nat} {v w : TimedByte}
    (hv : v ∈ timedBytes f g a i bs) (hw : w ∈ timedBytes f g a i bs) (h : v.addr = w.addr) : v = w := by
  obtain ⟨j, b, hb, -, rfl⟩ := mem_timedBytes.mp hv
  obtain ⟨k, c, hc, -, rfl⟩ := mem_timedBytes.mp hw
  obtain rfl : j = k := Nat.add_left_cancel h
  rw [Option.some.inj (hb.symm.trans hc)]

/-! ### Memory after a port call, location by location -/

@[simp] theorem State.stepsIn_one (s : State) : s.stepsIn 1 = s.plan.during := by
  simp [s.stepsIn_succ 0 (.readU32 0) true .done]

theorem PortCall.crossesTop_eq_false_iff (c : PortCall) : c.crossesTop = false ↔ c.addr.toNat + c.length ≤ 2 ^ 32 := by
  simp [PortCall.crossesTop]

section
variable {s : State} {c : PortCall} (whole : Bool) (hc : c.crossesTop = false) (hm : s.mem.wf)
include hc

theorem timedWrites_addr_lt : ∀ w ∈ s.timedWrites c whole, w.addr < 2 ^ 32 := by
  intro w hw
  have := timedBytes_addr _ _ _ _ _ _ hw
  have := c.stored_length_le
  rw [PortCall.crossesTop_eq_false_iff] at hc
  omega

include hm

/-- A location that no byte of a call reaches holds what the target's steps leave. -/
theorem memAfter_read_unwritten {a : Nat} (h : ∀ w ∈ s.timedWrites c whole, w.addr ≠ a) :
    (s.memAfter c whole).read a = (applySteps (s.stepsIn 1) s.mem).read a := by
  rw [s.stepsIn_one]
  exact weave_read_unwritten _ _ _ (timedWrites_addr_lt whole hc) hm fun w hw _ => h w hw

/-- A location beside those a call stores to holds what the target's steps leave. -/
theorem memAfter_read_beside {a : Nat} (h : a < c.addr.toNat ∨ c.addr.toNat + c.stored.length ≤ a) :
    (s.memAfter c whole).read a = (applySteps (s.stepsIn 1) s.mem).read a := by
  refine memAfter_read_unwritten whole hc hm fun w hw => ?_
  have := timedBytes_addr _ _ _ _ _ _ hw
  omega

/-- A byte that lands stands in its location, but for what the target's later steps make of it (R53, R66). -/
theorem memAfter_read_landed {j : Nat} {b : Byte} (hb : c.stored[j]? = some b)
    (hl : (whole || s.plan.landedAt (c.atomic s.cfg) j) = true) : s.left 1 (c.addr.toNat + j) b (s.memAfter c whole) := by
  have hw : { instant := s.plan.instantOf (c.atomic s.cfg) (0 + j), addr := c.addr.toNat + j, byte := b }
      ∈ s.timedWrites c whole := mem_timedBytes.mpr ⟨j, b, hb, by simpa using hl, rfl⟩
  refine ⟨s.plan.instantOf (c.atomic s.cfg) (0 + j), ?_⟩
  rw [s.stepsIn_one]
  exact weave_read_written _ 0 hw (fun v hv => timedBytes_unique hv hw) (timedWrites_addr_lt whole hc) (Nat.zero_le _) hm hm

/-- A byte that does not land leaves its location to the target's steps. -/
theorem memAfter_read_lost {j : Nat} (hl : (whole || s.plan.landedAt (c.atomic s.cfg) j) = false) :
    (s.memAfter c whole).read (c.addr.toNat + j) = (applySteps (s.stepsIn 1) s.mem).read (c.addr.toNat + j) := by
  refine memAfter_read_unwritten whole hc hm fun w hw e => ?_
  obtain ⟨i, b, -, hg, rfl⟩ := mem_timedBytes.mp hw
  obtain rfl : i = j := Nat.add_left_cancel e
  simp [hl] at hg

end

/-- A call that stores nothing leaves what the target's steps leave (R79). -/
theorem memAfter_of_read (s : State) {c : PortCall} (hs : c.stored = []) (whole : Bool) :
    s.memAfter c whole = applySteps (s.stepsIn 1) s.mem := by
  simp [State.memAfter, State.timedWrites, hs, timedBytes, weave_nil]

/-- Each byte a span read returns was in its location at some instant of the call (R52, R66). -/
theorem State.bytesSeen_seen (s : State) (a : Word) {n j : Nat} (hj : j < n) :
    ∃ b, (s.bytesSeen a n)[j]? = some b ∧ s.seen 1 (a.toNat + j) b := by
  refine ⟨(s.plan.memAt s.mem (s.plan.instantOf false j)).read (a.toNat + j), by simp [State.bytesSeen, hj],
    s.plan.instantOf false j, ?_⟩
  rw [s.stepsIn_one, PortPlan.memAt]

/-- Settles O42: a read stores nothing, and every byte of a write that returned lands. -/
theorem spansGoByteByByte : Obligations.SpansGoByteByByte := by
  refine ⟨fun s t a n bytes h => ?_, fun s t a data hm h => ?_⟩
  · obtain ⟨-, -, rfl, rfl⟩ := portCall_eq_returned h
    exact ⟨by simp [State.bytesSeen], memAfter_of_read s rfl true, fun j hj => s.bytesSeen_seen a hj⟩
  · obtain ⟨hc, -, -, rfl⟩ := portCall_eq_returned h
    exact ⟨fun j b hb => memAfter_read_landed true hc hm hb rfl, fun l hl => memAfter_read_beside true hc hm hl⟩

/-! ### A write that failed -/

/-- A call that failed lies below the top of the address space and leaves what landed. -/
theorem portCall_eq_failed {α : Type} {c : PortCall} {ans : PortAnswer} {v : α} {s t : State} {p : Prim} {k : Word}
    (h : portCall c ans v s = .failed p k t) :
    c.crossesTop = false ∧ p = c.prim ∧ k = c.addr ∧ t = s.afterCall c false .failed := by
  unfold portCall at h
  split at h
  · cases h
  · have hc : c.crossesTop = false := Bool.eq_false_iff.mpr ‹_›
    split at h <;> cases h
    exact ⟨hc, rfl, rfl, rfl⟩

theorem State.left_of_quiet {s : State} {n a : Nat} {b : Byte} {m : Memory} (hq : s.targetQuiet n) (hm : s.mem.wf)
    (h : s.left n a b m) : m.read a = b := by
  obtain ⟨k, h⟩ := h
  rw [h, hq, List.drop_nil, applySteps_nil, Memory.read_write_same _ _ _ hm]

/-- Settles O50: each byte of the call landed or did not. -/
theorem failedWriteOldOrNew : Obligations.FailedWriteOldOrNew := by
  intro s t a k data p hm h without
  obtain ⟨hc, rfl, hk, rfl⟩ := portCall_eq_failed h
  have bytes (j : Nat) (b : Byte) (hb : data[j]? = some b) :
      (s.memAfter (.write a data) false).read (a.toNat + j) = without.read (a.toNat + j) ∨
        s.left 1 (a.toNat + j) b (s.memAfter (.write a data) false) := by
    cases hl : s.plan.landedAt ((PortCall.write a data).atomic s.cfg) j with
    | true => exact .inr (memAfter_read_landed false hc hm hb (by simp [hl]))
    | false => exact .inl (memAfter_read_lost false hc hm (by simp [hl]))
  have beside (l : Nat) (hl : l < a.toNat ∨ a.toNat + data.length ≤ l) :
      (s.memAfter (.write a data) false).read l = without.read l := memAfter_read_beside false hc hm hl
  refine ⟨rfl, hk, bytes, beside, fun hq => ?_⟩
  have hw : without = s.mem := congrArg (applySteps · s.mem) hq
  rw [hw] at bytes beside
  exact ⟨fun j b hb => (bytes j b hb).imp_right (State.left_of_quiet hq hm), beside⟩

/-- Settles O51: on an atomic port the four bytes land together. -/
theorem failedWordWriteAllOrNone : Obligations.FailedWordWriteAllOrNone := by
  intro s t a k v p hm hq hat h
  obtain ⟨hc, rfl, hk, rfl⟩ := portCall_eq_failed h
  have hmem : s.memAfter (.writeU32 a v) false
      = writeTimed ((s.timedWrites (.writeU32 a v) false).filter fun w => decide (0 ≤ w.instant)) s.mem := by
    rw [State.memAfter, hq.plan_during, weave]
  have ha : a.toNat + 4 ≤ 2 ^ 32 := (PortCall.crossesTop_eq_false_iff _).mp hc
  refine ⟨rfl, hk, ?_, fun l hl => ?_⟩
  · rw [State.afterCall_mem, hmem]
    rcases s.writeTimed_word hat a v false (fun i => decide (0 ≤ i)) s.mem with e | e
    · exact .inl e
    · exact .inr (by rw [e, Memory.word_setWord v ha hm])
  · rw [State.afterCall_mem, memAfter_read_beside false hc hm hl, hq, applySteps_nil]

end Sys2Proof.Machine
end

section
/-!
The counter circle and a channel's buffer: differences of counters (`00_scope.md` R7, R10), where a counter value lies, and the
two segments of a copy (`42_transfer.md` R130).
-/

namespace Sys2Proof.Machine

/-! ### Differences on the counter circle -/

theorem distance_add {a b c : Word} (h : (b - a).toNat + (c - b).toNat < 2 ^ 32) :
    (c - a).toNat = (b - a).toNat + (c - b).toNat := by
  simp only [BitVec.toNat_sub] at *
  omega

theorem distance_advance {a b : Word} {n : Nat} (h : (b - a).toNat + n < 2 ^ 32) :
    (b + BitVec.ofNat 32 n - a).toNat = (b - a).toNat + n := by
  simp only [BitVec.toNat_sub, BitVec.toNat_add, BitVec.toNat_ofNat] at *
  omega

theorem distance_behind {a b : Word} {n : Nat} (h : n ≤ (b - a).toNat) :
    (b - (a + BitVec.ofNat 32 n)).toNat = (b - a).toNat - n := by
  simp only [BitVec.toNat_sub, BitVec.toNat_add, BitVec.toNat_ofNat] at *
  omega

theorem add_ofNat_distance (a b : Word) : a + BitVec.ofNat 32 (b - a).toNat = b := by
  rw [BitVec.ofNat_toNat, BitVec.setWidth_eq, add_sub_cancel]

/-! ### Where a counter value lies -/

section
variable {d : Descriptor} (hm : maskLegal d.capacityMask = true)
include hm

/-- R24, R26: the capacity is a power of two, and masking is the remainder. -/
theorem Descriptor.cap_phys_of_maskLegal :
    ∃ k < 32, d.cap.toNat = 2 ^ k ∧ ∀ v, (d.phys v).toNat = v.toNat % 2 ^ k := by
  simp only [maskLegal, List.any_eq_true, List.mem_range, beq_iff_eq] at hm
  obtain ⟨k, hk, hmask⟩ := hm
  have hpow : 2 ^ k ≤ 2 ^ 31 := Nat.pow_le_pow_right (by omega) (by omega)
  have hpos : 0 < 2 ^ k := Nat.two_pow_pos k
  have hval : d.capacityMask.toNat = 2 ^ k - 1 := by
    rw [hmask, BitVec.toNat_ofNat, Nat.mod_eq_of_lt (by omega)]
  refine ⟨k, hk, ?_, fun v => ?_⟩
  · have h1 : (1 : Word).toNat = 1 := rfl
    rw [Descriptor.cap, BitVec.toNat_add, hval, h1]
    omega
  · rw [Descriptor.phys, BitVec.toNat_and, hval, Nat.and_two_pow_sub_one_eq_mod]

theorem Descriptor.cap_le : d.cap.toNat ≤ 2 ^ 31 := by
  obtain ⟨k, hk, hcap, -⟩ := d.cap_phys_of_maskLegal hm
  rw [hcap]
  exact Nat.pow_le_pow_right (by omega) (by omega)

theorem Descriptor.cap_dvd : d.cap.toNat ∣ 2 ^ 32 := by
  obtain ⟨k, hk, hcap, -⟩ := d.cap_phys_of_maskLegal hm
  rw [hcap]
  exact Nat.pow_dvd_pow 2 (by omega)

theorem Descriptor.phys_toNat (v : Word) : (d.phys v).toNat = v.toNat % d.cap.toNat := by
  obtain ⟨k, -, hcap, hphys⟩ := d.cap_phys_of_maskLegal hm
  rw [hcap, hphys]

theorem Descriptor.phys_lt (v : Word) : (d.phys v).toNat < d.cap.toNat := by
  obtain ⟨k, -, hcap, hphys⟩ := d.cap_phys_of_maskLegal hm
  rw [hcap, hphys]
  exact Nat.mod_lt _ (Nat.two_pow_pos k)

theorem Descriptor.holds_location (v : Word) : d.holds (d.location v) := by
  have := d.phys_lt hm v
  simp only [Descriptor.holds, Descriptor.location]
  omega

theorem Descriptor.phys_add (v : Word) (j : Nat) :
    (d.phys (v + BitVec.ofNat 32 j)).toNat = ((d.phys v).toNat + j) % d.cap.toNat := by
  rw [d.phys_toNat hm, d.phys_toNat hm, BitVec.toNat_add, BitVec.toNat_ofNat, Nat.add_mod_mod,
    Nat.mod_mod_of_dvd _ (d.cap_dvd hm), Nat.mod_add_mod]

/-- Two counter values less than the capacity apart lie in different locations. -/
theorem Descriptor.location_ne {v w : Word} (hpos : 0 < (w - v).toNat) (hlt : (w - v).toNat < d.cap.toNat) :
    d.location w ≠ d.location v := by
  intro h
  have hp := d.phys_lt hm v
  have he : ((d.phys v).toNat + (w - v).toNat) % d.cap.toNat = (d.phys v).toNat := by
    rw [← d.phys_add hm, add_ofNat_distance]
    simpa [Descriptor.location] using h
  rcases Nat.lt_or_ge ((d.phys v).toNat + (w - v).toNat) d.cap.toNat with hc | hc
  · rw [Nat.mod_eq_of_lt hc] at he
    omega
  · rw [Nat.mod_eq_sub_mod hc, Nat.mod_eq_of_lt (by omega)] at he
    omega

/-- Within one capacity from `v` on, different counter values lie in different locations. -/
theorem Descriptor.location_inj {v : Word} {i j : Nat} (hi : i < d.cap.toNat) (hj : j < d.cap.toNat)
    (h : d.location (v + BitVec.ofNat 32 i) = d.location (v + BitVec.ofNat 32 j)) : i = j := by
  have hcap := d.cap_le hm
  have apart {i j : Nat} (hlt : i < j) (hj : j < d.cap.toNat) :
      d.location (v + BitVec.ofNat 32 j) ≠ d.location (v + BitVec.ofNat 32 i) := by
    have hd : (v + BitVec.ofNat 32 j - (v + BitVec.ofNat 32 i)).toNat = j - i := by
      simp only [BitVec.toNat_sub, BitVec.toNat_add, BitVec.toNat_ofNat]
      omega
    exact d.location_ne hm (by omega) (by omega)
  rcases Nat.lt_trichotomy i j with hlt | heq | hgt
  · exact absurd h.symm (apart hlt hj)
  · exact heq
  · exact absurd h (apart hgt hi)

end

/-! ### The two segments of a copy (R130) -/

section
variable {d : Descriptor} (hm : maskLegal d.capacityMask = true) (hs : d.inSpace) (v : Word) {n : Nat}
  (hn : n ≤ d.cap.toNat)
include hm

theorem Descriptor.segments_first (n : Nat) : (d.segments v n).first = min n (d.cap.toNat - (d.phys v).toNat) := by
  have := d.phys_lt hm v
  rw [Descriptor.segments, BitVec.toNat_sub_of_le (BitVec.le_def.mpr (by omega))]

include hs

theorem Descriptor.segments_addr1 (n : Nat) : (d.segments v n).addr1.toNat = d.bufferBase.toNat + (d.phys v).toNat := by
  have := d.phys_lt hm v
  simp only [Descriptor.inSpace] at hs
  simp only [Descriptor.segments, BitVec.toNat_add]
  omega

include hn

/-- The segments of a copy of at most a capacity lie in the buffer. -/
theorem Descriptor.segments_fits : (d.segments v n).fits := by
  have hf := d.segments_first hm v n
  have ht := d.segments_total v n
  have hp := d.phys_lt hm v
  simp only [Segments.fits, d.segments_addr1 hm hs]
  simp only [Descriptor.inSpace] at hs
  simp only [Descriptor.segments] at hf ht ⊢
  omega

/-- Byte `j` of a copy lies where counter value `v + j` does. -/
theorem Descriptor.segments_byteAddr {j : Nat} (hj : j < n) :
    (d.segments v n).byteAddr j = d.location (v + BitVec.ofNat 32 j) := by
  have hp := d.phys_lt hm v
  rw [Segments.byteAddr, d.segments_addr1 hm hs, d.segments_first hm, Descriptor.location, d.phys_add hm]
  split
  · rw [Nat.mod_eq_of_lt (by omega)]
    omega
  · rw [Nat.mod_eq_sub_mod (by omega), Nat.mod_eq_of_lt (by omega)]
    simp only [Descriptor.segments]
    omega

end

theorem eq_of_mem_ite_singleton {α : Type} {p : Prop} [Decidable p] {a b : α} (h : a ∈ if p then [b] else []) : a = b := by
  split at h
  · exact List.mem_singleton.mp h
  · cases h

theorem Segments.mem_writeCalls {g : Segments} {data : List Byte} {k : PortCall} (h : k ∈ g.writeCalls data) :
    k = .write g.addr1 (data.take g.first) ∨ k = .write g.addr2 ((data.drop g.first).take g.rest) :=
  (List.mem_append.mp h).imp eq_of_mem_ite_singleton eq_of_mem_ite_singleton

theorem Segments.mem_readCalls {g : Segments} {k : PortCall} (h : k ∈ g.readCalls) :
    k = .read g.addr1 g.first ∨ k = .read g.addr2 g.rest :=
  (List.mem_append.mp h).imp eq_of_mem_ite_singleton eq_of_mem_ite_singleton

theorem Segments.fits.writeCalls {g : Segments} (h : g.fits) {data : List Byte} {k : PortCall}
    (hk : k ∈ g.writeCalls data) : k.addr.toNat + k.length ≤ 2 ^ 32 := by
  obtain ⟨h1, h2⟩ := h
  rcases Segments.mem_writeCalls hk with rfl | rfl
  · exact (Nat.add_le_add_left (List.length_take_le ..) _).trans h1
  · exact (Nat.add_le_add_left (List.length_take_le ..) _).trans h2

theorem Segments.fits.readCalls {g : Segments} (h : g.fits) {k : PortCall} (hk : k ∈ g.readCalls) :
    k.addr.toNat + k.length ≤ 2 ^ 32 := by
  obtain ⟨h1, h2⟩ := h
  rcases Segments.mem_readCalls hk with rfl | rfl <;> assumption

/-! ### The counts of a transfer on a well-formed channel -/

theorem Descriptor.free_toNat {d : Descriptor} (h : d.occ.toNat ≤ d.cap.toNat) :
    d.free.toNat = d.cap.toNat - d.occ.toNat := BitVec.toNat_sub_of_le h

theorem enqCount_le_free (d : Descriptor) (data : List Byte) : enqCount d data ≤ d.free.toNat := Nat.min_le_right ..

theorem peekCount_le_occ (d : Descriptor) (n : Word) : peekCount d n ≤ d.occ.toNat := Nat.min_le_right ..

theorem enqCount_le_cap {d : Descriptor} (h : d.occ.toNat ≤ d.cap.toNat) (data : List Byte) :
    enqCount d data ≤ d.cap.toNat := by
  have := enqCount_le_free d data
  have := d.free_toNat h
  omega

theorem peekCount_le_cap {d : Descriptor} (h : d.occ.toNat ≤ d.cap.toNat) (n : Word) : peekCount d n ≤ d.cap.toNat :=
  (peekCount_le_occ d n).trans h

/-! ### The table of R58, row by row -/

section
variable {s : State} {x : Descriptors} (hx : s.x = some x)
include hx

theorem State.callsOf_enq (c : Channel) (data : List Byte) :
    s.callsOf (.enq c data) = (enqSegments (x.chan c) data).writeCalls (data.take (enqCount (x.chan c) data)) := by
  simp only [State.callsOf, hx]

theorem State.callsOf_peek (c : Channel) (n : Word) : s.callsOf (.peek c n) = (peekSegments (x.chan c) n).readCalls := by
  simp only [State.callsOf, hx]

theorem State.callsOf_deq (c : Channel) (n : Word) : s.callsOf (.deq c n) = (peekSegments (x.chan c) n).readCalls := by
  simp only [State.callsOf, hx]

variable {cb : Word} (hcb : s.cbAddr = some cb)
include hcb

theorem State.callsOf_rfsh (c : Channel) (f : OffsetField) :
    s.callsOf (.rfsh c f) = [.readU32 (fieldAddr cb c f.desc)] := by
  simp [State.callsOf, hx, hcb]

theorem State.callsOf_pub (c : Channel) (f : OffsetField) :
    s.callsOf (.pub c f) = [.writeU32 (fieldAddr cb c f.desc) ((x.chan c).get f.desc)] := by
  simp [State.callsOf, hx, hcb]

end

/-- An offset word of a control block below the top of the address space does not cross it. -/
theorem fieldAddr_desc_fits {cb : Word} (h : cb.toNat + 56 ≤ 2 ^ 32) (c : Channel) (f : OffsetField) :
    (fieldAddr cb c f.desc).toNat + 4 ≤ 2 ^ 32 :=
  (fieldAddr_desc_inBlock h c f).2.trans h

/-- Settles O46: the segments lie in the buffer, and the words and OPEN's span in the control block. -/
theorem noCallCrossesInSpace : Obligations.NoCallCrossesInSpace := by
  intro s i cb x hx hcb hblock hch ho k hk
  have chan (c : Channel) : maskLegal (x.chan c).capacityMask = true ∧ (x.chan c).occ.toNat ≤ (x.chan c).cap.toNat ∧
      (x.chan c).inSpace :=
    ⟨((x.chan c).wellFormed_iff.mp (hch c).1).1, ((x.chan c).wellFormed_iff.mp (hch c).1).2, (hch c).2⟩
  have peek (c : Channel) (n : Word) : (peekSegments (x.chan c) n).fits :=
    Descriptor.segments_fits (chan c).1 (chan c).2.2 _ (peekCount_le_cap (chan c).2.1 n)
  cases i with
  | openSession a =>
    obtain rfl := ho a rfl
    obtain rfl : k = .read (a + 16) 40 := by simpa [State.callsOf] using hk
    have : (a + 16).toNat = a.toNat + 16 := word_add_toNat (k := 16) (by omega)
    simp only [PortCall.addr, PortCall.length]
    omega
  | enq c data =>
    rw [State.callsOf_enq hx] at hk
    exact Segments.fits.writeCalls
      (Descriptor.segments_fits (chan c).1 (chan c).2.2 _ (enqCount_le_cap (chan c).2.1 data)) hk
  | peek c n =>
    rw [State.callsOf_peek hx] at hk
    exact (peek c n).readCalls hk
  | deq c n =>
    rw [State.callsOf_deq hx] at hk
    exact (peek c n).readCalls hk
  | rfsh c f =>
    obtain rfl := List.mem_singleton.mp (State.callsOf_rfsh hx hcb c f ▸ hk)
    exact fieldAddr_desc_fits hblock c f
  | pub c f =>
    obtain rfl := List.mem_singleton.mp (State.callsOf_pub hx hcb c f ▸ hk)
    exact fieldAddr_desc_fits hblock c f
  | _ => simp [State.callsOf] at hk

end Sys2Proof.Machine
end

section
/-!
The port calls of a command (`20_memory.md` R58): how many of them are made, and what happens at the one that does not return
(`10_state.md` R213, `93_implementation_defined.md` U5). A command's calls end as `makeCalls` of its row of the table.
-/

namespace Sys2Proof.Machine

/-! ### The calls made (R58, R82) -/

theorem State.callsMade_of_trace {s t : State} {es : List PortEvent} (h : t.trace = s.trace ++ es) :
    t.callsMade = s.callsMade ++ es.map PortEvent.call := by
  simp [State.callsMade, h]

theorem Completes.accepts {i : Instr} {x y : Descriptors} {v : Word} {p : List Byte} (h : Completes i x y v p) {s : State}
    (ha : s.status.session = .active) : s.accepts i = true := by
  cases i with
  | openSession a => exact h.elim
  | closeSession => exact h.elim
  | rdr r => exact h.elim
  | _ => simp [State.accepts, ha]

theorem State.callsOf_of_isRegisterRead {i : Instr} (h : isRegisterRead i = true) (s : State) : s.callsOf i = [] := by
  cases i with
  | rdr r | empty c | occ c | free c | full c => rfl
  | _ => cases h

/-- A command the state does not accept makes no port call. -/
theorem ExecEnd.trace_of_refused {i : Instr} {s t : State} (h : ExecEnd i s t) (hr : s.accepts i = false) :
    t.trace = s.trace := by
  cases h with
  | refused _ => rfl
  | answered _ _ _ => rfl
  | closed _ => rfl
  | completed x y v p es u ha hx hc he hu => simp [hc.accepts ha] at hr
  | opened _ _ _ _ ha | faulted _ _ _ _ ha | cut _ _ _ _ ha | hung _ _ _ _ ha => simp [ha] at hr

theorem take_of_append_cons {es : List PortEvent} {k : PortCall} {rest calls : List PortCall}
    (he : es.map PortEvent.call ++ k :: rest = calls) : calls.take (es.length + 1) = es.map PortEvent.call ++ [k] := by
  simp [← he, List.take_append]

/-- The calls made are the first of the table. -/
theorem ExecEnd.callsMade {i : Instr} {s t : State} (h : ExecEnd i s t) :
    ∃ n, t.callsMade = s.callsMade ++ (s.callsOf i).take n := by
  have cutOff {es : List PortEvent} {k : PortCall} {rest : List PortCall} {v : State} {ans : PortAnswer}
      (he : es.map PortEvent.call ++ k :: rest = s.callsOf i) (hv : CallsMade (s.begun i) es v)
      (ht : t.trace = v.trace ++ [{ call := k, answer := ans }]) :
      ∃ n, t.callsMade = s.callsMade ++ (s.callsOf i).take n := by
    refine ⟨es.length + 1, ?_⟩
    rw [take_of_append_cons he, State.callsMade_of_trace ht, State.callsMade_of_trace hv.trace]
    simp [State.callsMade]
  have all {es : List PortEvent} {u : State} (he : es.map PortEvent.call = s.callsOf i)
      (ht : t.trace = s.trace ++ es) : ∃ n, t.callsMade = s.callsMade ++ (s.callsOf i).take n :=
    ⟨es.length, by rw [State.callsMade_of_trace ht, ← he, List.take_of_length_le (by simp)]⟩
  cases h with
  | refused _ => exact ⟨0, (List.append_nil _).symm⟩
  | answered _ _ _ => exact ⟨0, (List.append_nil _).symm⟩
  | closed _ => exact ⟨0, (List.append_nil _).symm⟩
  | opened a bytes u h ha hu => subst h; exact all (u := u) rfl hu.trace
  | completed x y v p es u ha hx hc he hu => exact all (u := u) he hu.trace
  | faulted es k rest v ha hi he hv hc hp => exact cutOff he hv rfl
  | cut es k rest v ha he hv hc hp => exact cutOff he hv rfl
  | hung es k rest v ha hi hl he hv hc hp => exact cutOff he hv rfl

/-- A command that answers OK has made all its calls. -/
theorem ExecEnd.callsMade_of_ok {i : Instr} {s t : State} (h : ExecEnd i s t) {v : Word} {p : List Byte}
    (hr : t.responses = s.responses ++ [{ code := .ok, result := v, payload := p }]) :
    t.callsMade = s.callsMade ++ s.callsOf i := by
  cases h with
  | refused _ => simp at hr
  | answered _ h _ => rw [State.callsOf_of_isRegisterRead h, List.append_nil]; rfl
  | closed h => subst h; exact (List.append_nil _).symm
  | opened a bytes u h ha hu => subst h; exact State.callsMade_of_trace hu.trace
  | completed x y v p es u ha hx hc he hu => rw [← he]; exact State.callsMade_of_trace hu.trace
  | faulted es k rest v ha hi he hv hc hp => simp [hv.sameBlock.responses] at hr
  | cut es k rest v ha he hv hc hp => simp [hv.sameBlock.responses] at hr
  | hung es k rest v ha hi hl he hv hc hp => simp [hv.sameBlock.responses] at hr

/-- Settles O18: each end of a command says which calls it made. -/
theorem portCallsListed : Obligations.PortCallsListed := by
  intro s t i h
  have hend := execEnd_of_next h
  exact ⟨hend.trace_of_refused, fun _ => ⟨hend.callsMade, fun _ _ => hend.callsMade_of_ok⟩⟩

/-! ### A command's calls as a program -/

/-- What a call that returns answers. -/
def State.answerTo (s : State) : PortCall → PortAnswer
  | .read a n => .bytes (s.bytesSeen a n)
  | .write _ _ => .done
  | .readU32 a => .word (s.wordSeen a)
  | .writeU32 _ _ => .done

/-- The calls of the list in order, up to the first that does not return. -/
def makeCalls : List PortCall → State → Call Unit
  | [], s => .returned () s
  | c :: cs, s => (portCall c (s.answerTo c) () s).bind fun _ t => makeCalls cs t

/-- How a sequence of calls ends, without the value it gives. -/
def Call.forget {α : Type} : Call α → Call Unit
  | .returned _ s => .returned () s
  | .failed p a s => .failed p a s
  | .cutByReset s => .cutByReset s
  | .hung s => .hung s
  | .stuck r => .stuck r

theorem Call.forget_bind {α β : Type} (c : Call α) {k : α → State → Call β} {f : State → Call Unit}
    (h : ∀ a t, (k a t).forget = f t) : (c.bind k).forget = c.forget.bind fun _ t => f t := by
  cases c with
  | returned a s => exact h a s
  | _ => rfl

theorem Call.bind_unit (c : Call Unit) : (c.bind fun _ t => .returned () t) = c := by
  cases c <;> rfl

theorem Call.bind_assoc {α β γ : Type} (c : Call α) (k : α → State → Call β) (l : β → State → Call γ) :
    (c.bind k).bind l = c.bind fun a t => (k a t).bind l := by
  cases c <;> rfl

theorem makeCalls_append (cs ds : List PortCall) (s : State) :
    makeCalls (cs ++ ds) s = (makeCalls cs s).bind fun _ t => makeCalls ds t := by
  induction cs generalizing s with
  | nil => rfl
  | cons c cs ih => simp only [List.cons_append, makeCalls, Call.bind_assoc, ih]

theorem portCall_forget {α : Type} (c : PortCall) (v : α) (s : State) :
    (portCall c (s.answerTo c) v s).forget = makeCalls [c] s := by
  have h : (portCall c (s.answerTo c) v s).forget = portCall c (s.answerTo c) () s := by
    simp only [portCall]
    split
    · rfl
    · split <;> rfl
  simp only [h, makeCalls, Call.bind_unit]

theorem memRead_forget (a : Word) (n : Nat) (s : State) :
    (memRead a n s).forget = makeCalls (if 0 < n then [.read a n] else []) s := by
  cases n with
  | zero => rfl
  | succ n => exact portCall_forget (.read a (n + 1)) _ s

theorem memWrite_forget (a : Word) {data : List Byte} {n : Nat} (hn : data.length = n) (s : State) :
    (memWrite a data s).forget = makeCalls (if 0 < n then [.write a data] else []) s := by
  subst hn
  cases data with
  | nil => rfl
  | cons b bs => exact portCall_forget (.write a (b :: bs)) _ s

theorem copyOut_forget (g : Segments) (s : State) : (copyOut g s).forget = makeCalls g.readCalls s := by
  have second (s1 : List Byte) (t : State) :
      ((memRead g.addr2 g.rest t).bind fun s2 u => Call.returned (s1 ++ s2) u).forget
        = makeCalls (if 0 < g.rest then [.read g.addr2 g.rest] else []) t := by
    rw [Call.forget_bind (f := fun u => .returned () u) _ fun _ _ => rfl, Call.bind_unit, memRead_forget]
  rw [copyOut, Call.forget_bind _ second, memRead_forget, Segments.readCalls, makeCalls_append]

theorem copyIn_forget {g : Segments} {data : List Byte} (hl : data.length = g.first + g.rest) (s : State) :
    (copyIn g data s).forget = makeCalls (g.writeCalls data) s := by
  have second (u : Unit) (t : State) : (memWrite g.addr2 ((data.drop g.first).take g.rest) t).forget
      = makeCalls (if 0 < g.rest then [.write g.addr2 ((data.drop g.first).take g.rest)] else []) t :=
    memWrite_forget _ (by simp [hl]) t
  rw [copyIn, Call.forget_bind _ second, memWrite_forget (n := g.first) _ (by simp [hl]), Segments.writeCalls,
    makeCalls_append]

/-- The bytes ENQ copies in are exactly those of its segments. -/
theorem enq_data_length (d : Descriptor) (data : List Byte) :
    (data.take (enqCount d data)).length = (enqSegments d data).first + (enqSegments d data).rest := by
  rw [enqSegments, Descriptor.segments_total, List.length_take]
  exact Nat.min_eq_left (Nat.min_le_left ..)

/-- Only OPEN has port calls where the descriptor registers hold no value. -/
theorem State.exists_x {s : State} {i : Instr} (ho : ∀ a, i ≠ .openSession a) (hc : s.callsOf i ≠ []) :
    ∃ x, s.x = some x := by
  refine Option.ne_none_iff_exists'.mp fun hx => hc ?_
  cases i with
  | openSession a => exact absurd rfl (ho a)
  | _ => simp [State.callsOf, hx]

/-- A command whose row of the table is not empty ends as the calls of that row do. -/
theorem exec_eq_finish {s : State} {i : Instr} (ha : s.accepts i = true) (hr : s.channelRuns i) (hc : s.callsOf i ≠ []) :
    ∃ (α : Type) (c : Call α) (k : α → State → Host.Outcome State Fault Refusal),
      exec i s = c.finish i k ∧ c.forget = makeCalls (s.callsOf i) (s.begun i) := by
  have onChannel {c : Channel} {k : Descriptors → Descriptor → Host.Outcome State Fault Refusal} {x : Descriptors}
      (hs : s.status.session = .active) (hx : s.x = some x)
      (hr : s.cfg.allowIllFormed = true ∨ (x.chan c).wellFormed = true) : s.whenChannel c k = k x (x.chan c) :=
    State.whenChannel_eq hs hx hr k
  cases i with
  | openSession a =>
    have hs := State.session_of_accepts_open ha
    refine ⟨_, _, _, by rw [exec, execOpen, if_pos hs], ?_⟩
    exact portCall_forget (.read (a + 16) 40) _ _
  | enq c data =>
    obtain ⟨x, hx⟩ := State.exists_x (by simp) hc
    simp only [State.channelRuns, hx] at hr
    refine ⟨_, _, _, by rw [exec, execEnq, onChannel (by simpa [State.accepts] using ha) hx hr], ?_⟩
    rw [State.callsOf_enq hx]
    exact copyIn_forget (enq_data_length _ _) s
  | peek c n =>
    obtain ⟨x, hx⟩ := State.exists_x (by simp) hc
    simp only [State.channelRuns, hx] at hr
    refine ⟨_, _, _, by rw [exec, execPeek, onChannel (by simpa [State.accepts] using ha) hx hr], ?_⟩
    rw [State.callsOf_peek hx]
    exact copyOut_forget _ s
  | deq c n =>
    obtain ⟨x, hx⟩ := State.exists_x (by simp) hc
    simp only [State.channelRuns, hx] at hr
    refine ⟨_, _, _, by rw [exec, execDeq, onChannel (by simpa [State.accepts] using ha) hx hr], ?_⟩
    rw [State.callsOf_deq hx]
    exact copyOut_forget _ s
  | rfsh c f =>
    obtain ⟨x, hx⟩ := State.exists_x (by simp) hc
    obtain ⟨cb, hcb⟩ : ∃ cb, s.cbAddr = some cb :=
      Option.ne_none_iff_exists'.mp fun h => hc (by simp [State.callsOf, hx, h])
    refine ⟨_, _, _, by rw [exec, execRfsh, State.whenSync_eq (by simpa [State.accepts] using ha) hx hcb], ?_⟩
    rw [State.callsOf_rfsh hx hcb]
    exact portCall_forget (.readU32 _) _ s
  | pub c f =>
    obtain ⟨x, hx⟩ := State.exists_x (by simp) hc
    obtain ⟨cb, hcb⟩ : ∃ cb, s.cbAddr = some cb :=
      Option.ne_none_iff_exists'.mp fun h => hc (by simp [State.callsOf, hx, h])
    refine ⟨_, _, _, by rw [exec, execPub, State.whenSync_eq (by simpa [State.accepts] using ha) hx hcb], ?_⟩
    rw [State.callsOf_pub hx hcb]
    exact portCall_forget (.writeU32 _ _) _ s
  | _ => exact absurd rfl hc

/-! ### The first call that does not return -/

theorem Call.finish_eq_forget {α : Type} {c : Call α} (h : ∀ u, c.forget ≠ .returned () u) (i : Instr)
    (k : α → State → Host.Outcome State Fault Refusal) (l : Unit → State → Host.Outcome State Fault Refusal) :
    c.finish i k = c.forget.finish i l := by
  cases c with
  | returned a s => exact absurd rfl (h s)
  | _ => rfl

/-- Calls below the top of the address space whose plans say so return. -/
theorem makeCalls_returned {cs : List PortCall} {s : State} (hc : ∀ c ∈ cs, c.addr.toNat + c.length ≤ 2 ^ 32)
    (hr : s.portReturns cs.length) :
    ∃ es u, es.map PortEvent.call = cs ∧ CallsMade s es u ∧ makeCalls cs s = .returned () u := by
  induction cs generalizing s with
  | nil => exact ⟨[], s, rfl, .nil s, rfl⟩
  | cons c cs ih =>
    have hfit := c.crossesTop_eq_false_iff.mpr (hc c (List.mem_cons_self ..))
    have hplan := portReturns_plan s _ hr
    have hret := portCall_returned c (s.answerTo c) () s hfit hplan
    obtain ⟨es, u, rfl, hu, hm⟩ := ih (fun d hd => hc d (List.mem_cons_of_mem c hd))
      (portReturns_afterCall s _ c true (s.answerTo c) hr)
    refine ⟨{ call := c, answer := s.answerTo c } :: es, u, rfl, ?_, ?_⟩
    · exact .cons s c _ es u hfit (by rw [PortPlan.verdict, hplan]) hu
    · rw [makeCalls, hret]
      exact hm

/-- A command gets as far as the call after those that return. -/
theorem exec_reaches_call {s : State} {i : Instr} {before : List PortCall} {k : PortCall} {rest : List PortCall}
    (ha : s.accepts i = true) (hr : s.channelRuns i) (hc : s.callsOf i = before ++ k :: rest)
    (hfit : ∀ q ∈ before, q.addr.toNat + q.length ≤ 2 ^ 32) (hret : s.portReturns before.length) :
    ∃ (α : Type) (c : Call α) (l : α → State → Host.Outcome State Fault Refusal) (es : List PortEvent) (u : State),
      exec i s = c.finish i l ∧ es.map PortEvent.call = before ∧ CallsMade (s.begun i) es u ∧
        c.forget = (portCall k (u.answerTo k) () u).bind fun _ t => makeCalls rest t := by
  obtain ⟨α, c, l, he, hf⟩ := exec_eq_finish ha hr (by simp [hc])
  obtain ⟨es, u, hes, hu, hm⟩ := makeCalls_returned (s := s.begun i) hfit (by rwa [State.portReturns, s.begun_port])
  refine ⟨α, c, l, es, u, he, hes, hu, ?_⟩
  rw [hf, hc, makeCalls_append, hm]
  rfl

theorem portCall_stuck {α : Type} {c : PortCall} (hc : c.crossesTop = true) (ans : PortAnswer) (v : α) (s : State) :
    portCall c ans v s = .stuck .spanCrossesTop := by
  simp [portCall, hc]

/-- A call below the top of the address space whose plan says so does not return, where PORT_LIVENESS is false. -/
theorem portCall_hung {α : Type} {c : PortCall} (ans : PortAnswer) (v : α) {s : State} (hc : c.crossesTop = false)
    (h : s.plan.outcome = .neverReturns) (hl : s.cfg.portLiveness = false) :
    portCall c ans v s = .hung (s.afterCall c false .noReturn) := by
  simp [portCall, hc, PortPlan.verdict, h, hl]

/-- Settles O54: the command gets as far as the crossing call, which is stuck. -/
theorem crossingSpanStops : Obligations.CrossingSpanStops := by
  intro s i before k rest ha hr hc hfit hret hk
  obtain ⟨α, c, l, es, u, he, -, -, hf⟩ := exec_reaches_call ha hr hc hfit hret
  rw [portCall_stuck (by simpa [PortCall.crossesTop] using hk), Call.bind] at hf
  rw [he, Call.finish_eq_forget (by simp [hf]) i l fun _ t => .next t, hf]
  rfl

/-- Where a call after others does not return, its plan is the one listed for it. -/
theorem CallsMade.plan_eq {s v : State} {es : List PortEvent} {n : Nat} {p : PortPlan} (h : CallsMade s es v)
    (hn : es.length = n) (hp : s.port[n]? = some p) : v.plan = p := by
  refine State.plan_of_port ?_
  rw [h.port, List.getElem?_drop, hn]
  exact hp

/-- Settles O52: the hung call, and then what waiting in it can do. -/
theorem hungCallBlocksCommands : Obligations.HungCallBlocksCommands := by
  refine ⟨fun s i before k rest p ha hr hc hfit hret hp ho hl => ?_, fun s i hi => ?_⟩
  · obtain ⟨α, c, l, es, u, he, hes, hu, hf⟩ :=
      exec_reaches_call ha hr hc (fun q hq => hfit q (List.mem_append_left _ hq)) hret
    have hplan : u.plan = p := hu.plan_eq (by simpa using congrArg List.length hes) (by rwa [s.begun_port])
    have hk := k.crossesTop_eq_false_iff.mpr (hfit k (by simp))
    have hb := hu.sameBlock
    rw [portCall_hung _ _ hk (hplan ▸ ho) (by rw [hb.cfg, s.begun_cfg, hl]), Call.bind] at hf
    rw [Call.finish_eq_forget (by simp [hf]) i l fun _ t => .next t, hf] at he
    refine ⟨_, he, rfl, hb.responses.trans (s.begun_responses i), hb.status.trans (s.begun_status i),
      hb.x.trans (s.begun_x i), ?_, ?_⟩
    · simp [State.callsMade, hu.trace, hes]
    · simp
  · have hstep : step s = .next s.waitInCall := by simp [step, State.fetch, hi]
    refine ⟨_, hstep, ?_⟩
    rcases waitInCall_cases s with hw | ⟨e, left, hmem, hw⟩
    · rw [hw]
      exact ⟨rfl, rfl, .inl ⟨hi, rfl⟩⟩
    · rw [hw]
      cases e with
      | target g => exact ⟨rfl, rfl, .inl ⟨hi, rfl⟩⟩
      | reset => exact ⟨rfl, rfl, .inr ⟨rfl, rfl, rfl, hmem⟩⟩

/-! ### Where the machine stops, and what it refuses -/

/-- A command stops only as `93` U1 to U3 and U5 say, and never refuses. -/
def StopsAsListed (s : State) (i : Instr) : Host.Outcome State Fault Refusal → Prop
  | .next _ => True
  | .fault r =>
    (r = .illFormedChannel ∧ s.cfg.allowIllFormed = false ∧ s.status.session = .active ∧
      ∃ x c, s.x = some x ∧ (x.chan c).wellFormed = false) ∨
    (r = .spanCrossesTop ∧ ∃ k ∈ s.callsOf i, 2 ^ 32 < k.addr.toNat + k.length)
  | .refused _ => False

section
variable {s : State} {i : Instr}

theorem Call.finish_stops {α : Type} {c : Call α} {u : State} {l : List PortCall}
    {k : α → State → Host.Outcome State Fault Refusal} (hr : c.Runs u l) (hl : s.callsOf i = l)
    (hk : ∀ a t, StopsAsListed s i (k a t)) : StopsAsListed s i (c.finish i k) := by
  cases c with
  | returned a t => exact hk a t
  | stuck r =>
    obtain ⟨rfl, q, hq, hc⟩ := hr
    exact .inr ⟨rfl, q, hl ▸ hq, by simpa [PortCall.crossesTop] using hc⟩
  | _ => trivial

theorem State.whenActive_stops {k : Descriptors → Host.Outcome State Fault Refusal}
    (hk : ∀ x, s.status.session = .active → s.x = some x → StopsAsListed s i (k x)) :
    StopsAsListed s i (s.whenActive k) := by
  unfold State.whenActive
  split
  next ha =>
    split
    next x hx => exact hk x ha hx
    next => trivial
  next => trivial

theorem State.whenChannel_stops {c : Channel} {k : Descriptors → Descriptor → Host.Outcome State Fault Refusal}
    (hk : ∀ x, s.x = some x → StopsAsListed s i (k x (x.chan c))) : StopsAsListed s i (s.whenChannel c k) := by
  refine State.whenActive_stops fun x ha hx => ?_
  split
  next => exact hk x hx
  next hr =>
    rw [Bool.or_eq_true, not_or, Bool.not_eq_true, Bool.not_eq_true] at hr
    exact .inl ⟨rfl, hr.1, ha, x, c, hx, hr.2⟩

theorem State.whenSync_stops {k : Word → Descriptors → Host.Outcome State Fault Refusal}
    (hk : ∀ x cb, s.x = some x → s.cbAddr = some cb → StopsAsListed s i (k cb x)) : StopsAsListed s i (s.whenSync k) := by
  refine State.whenActive_stops fun x ha hx => ?_
  split
  next cb hcb => exact hk x cb hx hcb
  next => trivial

end

theorem exec_stops (i : Instr) (s : State) : StopsAsListed s i (exec i s) := by
  cases i with
  | openSession a =>
    simp only [exec, execOpen]
    split
    next => exact Call.finish_stops (portCall_runs _ _ _ _) rfl fun _ _ => trivial
    next => trivial
  | closeSession => trivial
  | rdr r =>
    simp only [exec, execRdr]
    split <;> trivial
  | empty c | occ c | free c | full c =>
    simp only [exec, execEmpty, execOcc, execFree, execFull]
    refine State.whenChannel_stops fun x hx => ?_
    trivial
  | enq c data =>
    simp only [exec, execEnq]
    refine State.whenChannel_stops fun x hx => ?_
    exact Call.finish_stops (copyIn_runs _ _ (enq_data_length _ _) s) (State.callsOf_enq hx c data) fun _ _ => trivial
  | peek c n =>
    simp only [exec, execPeek]
    refine State.whenChannel_stops fun x hx => ?_
    exact Call.finish_stops (copyOut_runs _ s) (State.callsOf_peek hx c n) fun _ _ => trivial
  | deq c n =>
    simp only [exec, execDeq]
    refine State.whenChannel_stops fun x hx => ?_
    exact Call.finish_stops (copyOut_runs _ s) (State.callsOf_deq hx c n) fun _ _ => trivial
  | rfsh c f =>
    refine State.whenSync_stops fun x cb hx hcb => ?_
    exact Call.finish_stops (portCall_runs _ _ _ _) (State.callsOf_rfsh hx hcb c f) fun _ _ => trivial
  | pub c f =>
    refine State.whenSync_stops fun x cb hx hcb => ?_
    exact Call.finish_stops (portCall_runs _ _ _ _) (State.callsOf_pub hx hcb c f) fun _ _ => trivial

theorem exec_ne_refused (s : State) (i : Instr) (r : Refusal) : exec i s ≠ .refused r := by
  intro h
  have := exec_stops i s
  rw [h] at this
  exact this

/-- The command port cannot carry an ENQ whose payload is longer than MAX_PAYLOAD, and nothing else (R5). -/
theorem Instr.wellFormed_eq_false_iff (cfg : Config) (i : Instr) :
    i.wellFormed cfg = false ↔ ∃ c data n, i = .enq c data ∧ cfg.maxPayload = some n ∧ n < data.length := by
  cases i with
  | enq c data => cases h : cfg.maxPayload <;> simp [Instr.wellFormed, Config.carries, h]
  | _ => simp [Instr.wellFormed]

/-- A step refuses exactly where it takes a command the port cannot carry. -/
theorem step_refused_iff (s : State) (r : Refusal) : step s = .refused r ↔
    r = .payloadAboveMax ∧ s.inFlight = none ∧
      ∃ c rest i, s.inputs = .command c :: rest ∧ decode c = .ok i ∧ i.wellFormed s.cfg = false := by
  unfold step State.fetch
  cases hf : s.inFlight with
  | some i => simp
  | none =>
    cases hi : s.inputs with
    | nil => simp
    | cons inp rest =>
      cases inp with
      | event e => simp
      | command c =>
        cases hd : decode c with
        | error e => simp [State.accept, hd, State.refuseIllegal]
        | ok i => cases hw : i.wellFormed s.cfg <;> simp [State.accept, hd, hw, exec_ne_refused, eq_comm (a := r)]

/-- Settles O56: where each command stops, and what the command port cannot carry. -/
theorem stopsListed : Obligations.StopsListed := by
  refine ⟨fun s i r h => ?_, exec_ne_refused, fun s r => ?_⟩
  · have := exec_stops i s
    rwa [h] at this
  · simp only [step_refused_iff, Instr.wellFormed_eq_false_iff]
    refine and_congr_right fun _ => and_congr_right fun _ => ⟨?_, ?_⟩
    · rintro ⟨m, rest, i, hi, hd, c, data, n, rfl, hn, hl⟩
      exact ⟨m, rest, c, data, n, hi, hd, hn, hl⟩
    · rintro ⟨m, rest, c, data, n, hi, hd, hn, hl⟩
      exact ⟨m, rest, _, hi, hd, c, data, n, rfl, hn, hl⟩

/-- Settles O9: with nothing in flight the first input is taken, if there is one. -/
theorem onlyCommandsMoveTheBlock : Obligations.OnlyCommandsMoveTheBlock := by
  intro s hf
  refine ⟨fun hi => by simp [step, State.fetch, hf, hi], fun g rest hi => ?_⟩
  refine ⟨State.environment { s with inputs := rest } (.target g), by simp [step, State.fetch, hf, hi], rfl, fun a ha => ?_⟩
  exact g.apply_read_other s.mem a ha

end Sys2Proof.Machine
end

section
/-!
OPEN, RFSH and PUB whose one port call returns (`40_session.md` R110, `43_offset_sync.md` R150, R151).
-/

namespace Sys2Proof.Machine

/-! ### OPEN -/

/-- R20, R110: register `5c + k` is word `5c + k` of the span. -/
theorem descriptorsOfSpan_get (span : List Byte) (c : Channel) (k : DescField) :
    ((descriptorsOfSpan span).chan c).get k = spanWord span (5 * c.number + k.number) := by
  cases c <;> cases k <;> rfl

theorem fieldNumber_le (c : Channel) (k : DescField) : 5 * c.number + k.number ≤ 9 := by
  cases c <;> cases k <;> decide

/-- With a silent target the register is the remote word at its field's address (R59, R62). -/
theorem descriptorsOfSpan_quiet {s : State} (h : s.plan.during = []) {a : Word} (ha : (a + 16).toNat + 40 ≤ 2 ^ 32)
    (c : Channel) (k : DescField) :
    ((descriptorsOfSpan (s.bytesSeen (a + 16) 40)).chan c).get k = s.mem.word (fieldAddr a c k) := by
  have hk := fieldNumber_le c k
  have h16 : (a + 16).toNat = (a.toNat + 16) % 2 ^ 32 := BitVec.toNat_add a 16
  have hfa : (fieldAddr a c k).toNat = (a + 16).toNat + 4 * (5 * c.number + k.number) := by
    rw [(fieldAddresses a).1]
    omega
  have byte (j : Nat) (hj : j < 40) : (s.bytesSeen (a + 16) 40).getD j 0 = s.mem.read ((a + 16).toNat + j) := by
    simp [State.bytesSeen_of_quiet h, hj]
  rw [descriptorsOfSpan_get, spanWord, Memory.word, byte _ (by omega), byte _ (by omega), byte _ (by omega),
    byte _ (by omega), hfa]
  rfl

theorem exec_open_returns {s : State} {a : Word} (hs : s.status.session = .idle) (hr : s.portReturns 1)
    (ha : (a + 16).toNat + 40 ≤ 2 ^ 32) :
    exec (.openSession a) s = State.respondOk
      { State.afterCall { s with cbAddr := some a } (.read (a + 16) 40) true (.bytes (s.bytesSeen (a + 16) 40)) with
        x := some (descriptorsOfSpan (s.bytesSeen (a + 16) 40))
        status := { session := .active, dvalid := true, fprim := s.status.fprim } } 0 [] := by
  have hread : portRead (descriptorsAddr a) 40 { s with cbAddr := some a } = .returned (s.bytesSeen (a + 16) 40)
      (State.afterCall { s with cbAddr := some a } (.read (a + 16) 40) true (.bytes (s.bytesSeen (a + 16) 40))) :=
    portCall_returned (s := { s with cbAddr := some a }) _ _ _ ((PortCall.crossesTop_eq_false_iff _).mpr ha)
      (portReturns_plan s 0 hr)
  rw [exec, execOpen, if_pos hs, hread]
  rfl

/-- Settles O22: the bytes are those the one call sees. -/
theorem openLoadsDescriptors : Obligations.OpenLoadsDescriptors := by
  intro s a hs hprim hr ha
  have seen (j : Nat) (hj : j < 40) : ∃ b, (s.bytesSeen (a + 16) 40)[j]? = some b ∧ s.seen 1 ((a + 16).toNat + j) b :=
    s.bytesSeen_seen (a + 16) hj
  refine ⟨descriptorsOfSpan (s.bytesSeen (a + 16) 40), s.bytesSeen (a + 16) 40, ?_, by simp [State.bytesSeen], seen,
    fun c k => ?_, fun hq c k => descriptorsOfSpan_quiet hq.plan_during ha c k⟩
  · have hmem : State.memAfter { s with cbAddr := some a } (.read (a + 16) 40) true = applySteps (s.stepsIn 1) s.mem :=
      memAfter_of_read { s with cbAddr := some a } rfl true
    rw [exec_open_returns hs hr ha, hprim, State.respondOk, State.afterCall, hmem]
    rfl
  · have hk := fieldNumber_le c k
    intro n
    have hn : n = 4 * (5 * c.number + k.number) := by omega
    obtain ⟨b0, h0, -⟩ := seen n (by omega)
    obtain ⟨b1, h1, -⟩ := seen (n + 1) (by omega)
    obtain ⟨b2, h2, -⟩ := seen (n + 2) (by omega)
    obtain ⟨b3, h3, -⟩ := seen (n + 3) (by omega)
    refine ⟨b0, b1, b2, b3, h0, h1, h2, h3, ?_⟩
    rw [descriptorsOfSpan_get, spanWord, ← hn]
    simp only [List.getD_eq_getElem?_getD, h0, h1, h2, h3, Option.getD_some]

/-! ### RFSH and PUB -/

section
variable {s : State} {cb : Word} {x : Descriptors} (ho : s.Open cb x) (hr : s.portReturns 1) {c : Channel} {f : OffsetField}
  (ha : (fieldAddr cb c f.desc).toNat + 4 ≤ 2 ^ 32)
include ho hr ha

theorem exec_rfsh_returns :
    exec (.rfsh c f) s = State.respondOk
      { s.afterCall (.readU32 (fieldAddr cb c f.desc)) true (.word (s.wordSeen (fieldAddr cb c f.desc))) with
        x := some (x.setOffset c f (s.wordSeen (fieldAddr cb c f.desc))) } (s.wordSeen (fieldAddr cb c f.desc)) [] := by
  have hc : (PortCall.readU32 (fieldAddr cb c f.desc)).crossesTop = false := (PortCall.crossesTop_eq_false_iff _).mpr ha
  rw [exec, execRfsh, State.whenSync_eq ho.session ho.descriptors ho.address, portReadU32,
    portCall_returned _ _ _ _ hc (portReturns_plan s 0 hr)]
  simp only [Call.finish, State.setOffset, State.afterCall_x, ho.descriptors]
  rfl

theorem exec_pub_returns :
    exec (.pub c f) s = State.respondOk
      (s.afterCall (.writeU32 (fieldAddr cb c f.desc) ((x.chan c).get f.desc)) true .done) ((x.chan c).get f.desc) [] := by
  have hc : (PortCall.writeU32 (fieldAddr cb c f.desc) ((x.chan c).get f.desc)).crossesTop = false :=
    (PortCall.crossesTop_eq_false_iff _).mpr ha
  rw [exec, execPub, State.whenSync_eq ho.session ho.descriptors ho.address, portWriteU32,
    portCall_returned _ _ _ _ hc (portReturns_plan s 0 hr)]
  rfl

end

/-- Settles O39: with a silent target the word seen is the word in memory, which stays as it is. -/
theorem refreshCompletes : Obligations.RefreshCompletes := by
  intro s cb x c f ho hr hq addr ha v
  have haddr : fieldAddr cb c f.desc = addr := fieldAddr_desc cb c f
  rw [exec_rfsh_returns ho hr (haddr ▸ ha), haddr, State.wordSeen_of_quiet hq.plan_during, State.respondOk, State.respond,
    State.afterCall, memAfter_read_call s _ true rfl hq.plan_during]

/-- Settles O40: every byte lands, and nothing is written after it. -/
theorem publishCompletes : Obligations.PublishCompletes := by
  intro s cb x c f ho hm hr hq addr ha v
  have haddr : fieldAddr cb c f.desc = addr := fieldAddr_desc cb c f
  have hc : (PortCall.writeU32 addr v).crossesTop = false := (PortCall.crossesTop_eq_false_iff _).mpr ha
  refine ⟨s.memAfter (.writeU32 addr v) true, ?_, memAfter_wf s _ true hc hm, ?_, fun a hl => ?_⟩
  · rw [exec_pub_returns ho hr (haddr ▸ ha), haddr]
    rfl
  · exact Memory.word_of_bytes fun j hj =>
      State.left_of_quiet hq hm (memAfter_read_landed true hc hm (List.getElem?_eq_getElem hj) rfl)
  · rw [memAfter_read_beside true hc hm hl, hq, applySteps_nil]

/-- An atomic word read sees the word as it was at one instant (R67). -/
theorem State.wordSeen_of_atomic {s : State} (h : s.cfg.portU32Atomic = true) (a : Word) :
    s.wordSeen a = (s.plan.memAt s.mem (s.plan.instantOf true 0)).word a := by
  simp only [State.wordSeen, State.wordByteSeen, h]
  rfl

/-- Settles O41: all four bytes have the instant of the first. -/
theorem refreshReadsOneInstant : Obligations.RefreshReadsOneInstant := by
  intro s cb x c f ho hr hat ha
  refine ⟨_, s.plan.instantOf true 0, exec_rfsh_returns ho hr ha, ?_⟩
  have hv : s.wordSeen (fieldAddr cb c f.desc)
      = (applySteps ((s.stepsIn 1).take (s.plan.instantOf true 0)) s.mem).word (fieldAddr cb c f.desc) := by
    rw [State.wordSeen_of_atomic hat, s.stepsIn_one, PortPlan.memAt]
  rw [← hv]
  exact ⟨rfl, rfl, memAfter_of_read s rfl true, by simp [State.callsMade]⟩

end Sys2Proof.Machine
end

section
/-!
The snapshot and the streams of a session (`20_memory.md` R74 to R81): what they are read from, what a safe snapshot says, that
OPEN starts them, and that every step of a correct target keeps them.
-/

namespace Sys2Proof.Machine

/-! ### The four offset words -/

/-- Different offset words do not overlap (R59). -/
theorem offsetWords_apart {c c' : Channel} {f f' : OffsetField} (h : (c', f') ≠ (c, f)) :
    20 * c'.number + 4 * f'.desc.number + 4 ≤ 20 * c.number + 4 * f.desc.number ∨
      20 * c.number + 4 * f.desc.number + 4 ≤ 20 * c'.number + 4 * f'.desc.number := by
  revert h
  cases c <;> cases c' <;> cases f <;> cases f' <;> decide

section
variable {cb : Word} (hb : cb.toNat + 56 ≤ 2 ^ 32)
include hb

theorem remoteOffset_congr {m m' : Memory} (h : ∀ a, inControlBlock cb a → m'.read a = m.read a) (c : Channel)
    (f : OffsetField) : remoteOffset m' cb c f = remoteOffset m cb c f := by
  obtain ⟨hlo, hhi⟩ := fieldAddr_desc_inBlock hb c f
  exact Memory.word_congr fun l _ _ => h l ⟨by omega, by omega⟩

theorem remoteOffset_setWord_same {m : Memory} (hm : m.wf) (c : Channel) (f : OffsetField) (v : Word) :
    remoteOffset (m.setWord (fieldAddr cb c f.desc).toNat v) cb c f = v :=
  Memory.word_setWord v (fieldAddr_desc_fits hb c f) hm

/-- Writing one offset word leaves the other three. -/
theorem remoteOffset_setWord_other (m : Memory) {c c' : Channel} {f f' : OffsetField} (v : Word)
    (h : (c', f') ≠ (c, f)) :
    remoteOffset (m.setWord (fieldAddr cb c f.desc).toNat v) cb c' f' = remoteOffset m cb c' f' := by
  refine Memory.word_congr fun l hl hl' => m.setWord_read_other v ?_
  have := offsetWords_apart h
  rw [fieldAddr_toNat hb] at hl hl' ⊢
  omega

theorem setWord_read_outside (m : Memory) (c : Channel) (f : OffsetField) (v : Word) {a : Nat} (ha : ¬ inControlBlock cb a) :
    (m.setWord (fieldAddr cb c f.desc).toNat v).read a = m.read a := by
  obtain ⟨hlo, hhi⟩ := fieldAddr_desc_inBlock hb c f
  refine m.setWord_read_other v ?_
  simp only [inControlBlock] at ha
  omega

end

/-! ### The bytes of a buffer -/

theorem Descriptor.bytesFrom_congr {d : Descriptor} {v : Word} {n : Nat} {m m' : Memory}
    (h : ∀ j < n, m'.read (d.location (v + BitVec.ofNat 32 j)) = m.read (d.location (v + BitVec.ofNat 32 j))) :
    d.bytesFrom v n m' = d.bytesFrom v n m :=
  List.map_congr_left fun j hj => h j (List.mem_range.mp hj)

theorem Descriptor.bytesFrom_getElem? (d : Descriptor) (v : Word) {n j : Nat} (hj : j < n) (m : Memory) :
    (d.bytesFrom v n m)[j]? = some (m.read (d.location (v + BitVec.ofNat 32 j))) := by
  simp [Descriptor.bytesFrom, hj]

/-- A list is the bytes of a buffer if it has as many, each the one at its counter value. -/
theorem Descriptor.eq_bytesFrom {d : Descriptor} {v : Word} {n : Nat} {m : Memory} {bytes : List Byte}
    (hl : bytes.length = n) (h : ∀ j < n, bytes[j]? = some (m.read (d.location (v + BitVec.ofNat 32 j)))) :
    bytes = d.bytesFrom v n m := by
  refine List.ext_getElem? fun j => ?_
  by_cases hj : j < n
  · rw [h j hj, d.bytesFrom_getElem? v hj]
  · rw [List.getElem?_eq_none (by omega), List.getElem?_eq_none (by simp; omega)]

theorem Descriptor.bytesFrom_append (d : Descriptor) (v : Word) (n k : Nat) (m : Memory) :
    d.bytesFrom v (n + k) m = d.bytesFrom v n m ++ d.bytesFrom (v + BitVec.ofNat 32 n) k m := by
  simp only [Descriptor.bytesFrom, List.range_add, List.map_append, List.map_map]
  congr 1
  refine List.map_congr_left fun j _ => ?_
  rw [Function.comp_apply, BitVec.ofNat_add, add_assoc]

theorem Descriptor.bytesFrom_take (d : Descriptor) (v : Word) {n k : Nat} (h : k ≤ n) (m : Memory) :
    (d.bytesFrom v n m).take k = d.bytesFrom v k m := by
  obtain ⟨l, rfl⟩ := Nat.exists_eq_add_of_le h
  rw [d.bytesFrom_append, List.take_left' (d.bytesFrom_length ..)]

theorem Descriptor.bytesFrom_drop (d : Descriptor) (v : Word) {n k : Nat} (h : k ≤ n) (m : Memory) :
    (d.bytesFrom v n m).drop k = d.bytesFrom (v + BitVec.ofNat 32 k) (n - k) m := by
  obtain ⟨l, rfl⟩ := Nat.exists_eq_add_of_le h
  rw [d.bytesFrom_append, List.drop_left' (d.bytesFrom_length ..), Nat.add_sub_cancel_left]

/-- A counter value counted from another one. -/
theorem add_ofNat_eq_from (a b : Word) (j : Nat) :
    b + BitVec.ofNat 32 j = a + BitVec.ofNat 32 ((b - a).toNat + j) := by
  rw [BitVec.ofNat_add, ← add_assoc, add_ofNat_distance]

/-! ### A correct layout -/

namespace LayoutOk

variable {x : Descriptors} {cb : Word} (h : LayoutOk x cb) {a : Nat}
include h

theorem up_outside (ha : x.up.holds a) : ¬ inControlBlock cb a := by
  have := h.upApart
  simp only [Descriptor.holds, inControlBlock] at *
  omega

theorem dn_outside (ha : x.dn.holds a) : ¬ inControlBlock cb a := by
  have := h.dnApart
  simp only [Descriptor.holds, inControlBlock] at *
  omega

theorem buffers_disjoint (ha : x.up.holds a) : ¬ x.dn.holds a := by
  have := h.buffersApart
  simp only [Descriptor.holds] at *
  omega

/-- Writing an offset word leaves the bytes in the up-buffer. -/
theorem up_bytesFrom_setWord (m : Memory) (c : Channel) (f : OffsetField) (w v : Word) (n : Nat) :
    x.up.bytesFrom v n (m.setWord (fieldAddr cb c f.desc).toNat w) = x.up.bytesFrom v n m :=
  Descriptor.bytesFrom_congr fun _ _ =>
    setWord_read_outside h.block m c f w (h.up_outside (Descriptor.holds_location h.upMask _))

/-- Writing an offset word leaves the bytes in the down-buffer. -/
theorem dn_bytesFrom_setWord (m : Memory) (c : Channel) (f : OffsetField) (w v : Word) (n : Nat) :
    x.dn.bytesFrom v n (m.setWord (fieldAddr cb c f.desc).toNat w) = x.dn.bytesFrom v n m :=
  Descriptor.bytesFrom_congr fun _ _ =>
    setWord_read_outside h.block m c f w (h.dn_outside (Descriptor.holds_location h.dnMask _))

end LayoutOk

/-! ### What a safe snapshot says -/

namespace SnapshotSafe

variable {x : Descriptors} {cb : Word} {m : Memory} (h : SnapshotSafe x cb m)
include h

/-- The target's write offset, counted from the host's read offset and from the published one. -/
theorem up_distances :
    (remoteOffset m cb .up .w - x.up.readOffset).toNat
        = x.up.occ.toNat + (remoteOffset m cb .up .w - x.up.writeOffset).toNat ∧
      (remoteOffset m cb .up .w - remoteOffset m cb .up .r).toNat
        = (x.up.readOffset - remoteOffset m cb .up .r).toNat + (remoteOffset m cb .up .w - x.up.readOffset).toNat := by
  have hcap := Descriptor.cap_le h.layout.upMask
  have hup := h.up
  have hw : (remoteOffset m cb .up .w - x.up.readOffset).toNat
      = x.up.occ.toNat + (remoteOffset m cb .up .w - x.up.writeOffset).toNat :=
    distance_add (b := x.up.writeOffset) (by change x.up.occ.toNat + _ < _; omega)
  exact ⟨hw, distance_add (b := x.up.readOffset) (by omega)⟩

/-- The host's write offset, counted from the target's read offset and from the host's. -/
theorem dn_distances :
    (x.dn.writeOffset - remoteOffset m cb .dn .r).toNat
        = targetOcc cb m + (x.dn.writeOffset - remoteOffset m cb .dn .w).toNat ∧
      x.dn.occ.toNat = (remoteOffset m cb .dn .r - x.dn.readOffset).toNat
        + (x.dn.writeOffset - remoteOffset m cb .dn .r).toNat := by
  have hcap := Descriptor.cap_le h.layout.dnMask
  have hdn := h.dn
  have hw : (x.dn.writeOffset - remoteOffset m cb .dn .r).toNat
      = targetOcc cb m + (x.dn.writeOffset - remoteOffset m cb .dn .w).toNat :=
    distance_add (b := remoteOffset m cb .dn .w) (by omega)
  refine ⟨hw, distance_add (b := remoteOffset m cb .dn .r) ?_⟩
  rw [hw, targetOcc]
  omega

theorem up_occ_le : x.up.occ.toNat ≤ x.up.cap.toNat := by
  have := h.up
  omega

theorem dn_occ_le : x.dn.occ.toNat ≤ x.dn.cap.toNat := by
  obtain ⟨hw, ho⟩ := h.dn_distances
  have := h.dn
  rw [ho, hw, targetOcc]
  omega

theorem congr {m' : Memory} (ho : ∀ c f, remoteOffset m' cb c f = remoteOffset m cb c f) : SnapshotSafe x cb m' := by
  obtain ⟨hl, hu, hd⟩ := h
  exact ⟨hl, by simpa only [ho] using hu, by simpa only [ho] using hd⟩

end SnapshotSafe

/-- Settles O60: each distance in the snapshot is part of the true one. -/
theorem safeSnapshotIsConservative : Obligations.SafeSnapshotIsConservative := by
  intro x cb m hs
  obtain ⟨hup, -⟩ := hs.up_distances
  obtain ⟨hdn, hocc⟩ := hs.dn_distances
  have hle := hs.dn_occ_le
  refine ⟨⟨by omega, ?_, (Descriptor.wellFormed_iff _).mpr ⟨hs.layout.upMask, hs.up_occ_le⟩,
    (Descriptor.wellFormed_iff _).mpr ⟨hs.layout.dnMask, hle⟩⟩, fun h hh => ⟨⟨_, hh.up.symm⟩, ?_⟩⟩
  · rw [Descriptor.free_toNat hle]
    omega
  · have hlen : h.peer.taken.length ≤ (x.dn.writeOffset - remoteOffset m cb .dn .r).toNat := by
      have := hh.takenBound
      omega
    rw [hh.dn, List.prefix_append_right_inj, hh.takenBytes, ← x.dn.bytesFrom_take _ hlen]
    exact List.take_prefix ..

/-! ### OPEN starts them -/

/-- An OPEN that leaves the session Active has read its span. -/
theorem exec_open_active {s t : State} {a : Word} (hs : s.status.session = .idle) (h : exec (.openSession a) s = .next t)
    (ht : t.status.session = .active) :
    (a + 16).toNat + 40 ≤ 2 ^ 32 ∧ t.x = some (descriptorsOfSpan (s.bytesSeen (a + 16) 40)) ∧ t.cbAddr = some a ∧
      t.mem = s.memAfter (.read (a + 16) 40) true := by
  rw [exec, execOpen, if_pos hs] at h
  rcases Call.finish_next h with ⟨bytes, u, hu, hk⟩ | ⟨p, b, u, hu, rfl⟩ | ⟨u, hu, rfl⟩ | ⟨u, hu, rfl⟩
  · obtain ⟨hc, -, rfl, rfl⟩ := portCall_eq_returned hu
    cases hk
    exact ⟨(PortCall.crossesTop_eq_false_iff _).mp hc, rfl, rfl, rfl⟩
  · cases ht
  · cases ht
  · have hb : (portRead (descriptorsAddr a) 40 { s with cbAddr := some a }).holds (SameBlock { s with cbAddr := some a }) :=
      portCall_holds _ _ _ _ _ fun w b _ => afterCall_sameBlock _ _ w b
    rw [hu] at hb
    have hidle : u.status.session = .idle := (congrArg Status.session hb.status).trans hs
    exact absurd (hidle.symm.trans ht) (by simp)

/-- Settles O59: the registers are the remote offsets, so nothing lies between them. -/
theorem openStartsStreams : Obligations.OpenStartsStreams := by
  intro s t a x hs hq h ht hx hl hup hdn
  obtain ⟨ha, hx', hcb, hmem⟩ := exec_open_active hs h ht
  obtain rfl := Option.some.inj (hx'.symm.trans hx)
  have hm : t.mem = s.mem := hmem.trans (memAfter_read_call s _ true rfl hq.plan_during)
  have offsets (c : Channel) (f : OffsetField) : remoteOffset t.mem a c f
      = ((descriptorsOfSpan (s.bytesSeen (a + 16) 40)).chan c).get f.desc := by
    rw [descriptorsOfSpan_quiet hq.plan_during ha, hm]
    rfl
  generalize descriptorsOfSpan (s.bytesSeen (a + 16) 40) = x at *
  have uw : remoteOffset t.mem a .up .w = x.up.writeOffset := offsets .up .w
  have ur : remoteOffset t.mem a .up .r = x.up.readOffset := offsets .up .r
  have dw : remoteOffset t.mem a .dn .w = x.dn.writeOffset := offsets .dn .w
  have dr : remoteOffset t.mem a .dn .r = x.dn.readOffset := offsets .dn .r
  have upOcc := (x.up.wellFormed_iff.mp hup).2
  have dnOcc := (x.dn.wellFormed_iff.mp hdn).2
  refine ⟨⟨by simp [ht], hx, hcb⟩, ⟨hl, ?_, ?_⟩, ⟨?_, ?_, Nat.zero_le _, rfl⟩⟩
  · rw [uw, ur]
    simpa using upOcc
  · rw [dw, dr]
    simpa [Descriptor.occ] using dnOcc
  · rw [uw]
    rfl
  · rw [dr]
    rfl

/-! ### What they are read from -/

/-- A location the snapshot or the streams of a session are read from. -/
def Watched (x : Descriptors) (cb : Word) (m : Memory) (a : Nat) : Prop :=
  inControlBlock cb a ∨
    (∃ j < (remoteOffset m cb .up .w - x.up.readOffset).toNat, a = x.up.location (x.up.readOffset + BitVec.ofNat 32 j)) ∨
    ∃ j < (x.dn.writeOffset - remoteOffset m cb .dn .r).toNat,
      a = x.dn.location (remoteOffset m cb .dn .r + BitVec.ofNat 32 j)

/-- Memory is canonical, the snapshot safe and, where `S` asks for it, the streams whole. -/
structure SessionSafe (S : Prop) (x : Descriptors) (cb : Word) (m : Memory) (h : Streams) : Prop where
  wf : m.wf
  snapshot : SnapshotSafe x cb m
  streams : S → StreamsSafe x cb m h

section
variable {S : Prop} {x : Descriptors} {cb : Word} {m : Memory} {h : Streams} (hs : SessionSafe S x cb m h)
include hs

theorem SessionSafe.congr {m' : Memory} (hm : m'.wf) (hr : ∀ a, Watched x cb m a → m'.read a = m.read a) :
    SessionSafe S x cb m' h := by
  have offsets := remoteOffset_congr hs.snapshot.layout.block fun a ha => hr a (.inl ha)
  refine ⟨hm, hs.snapshot.congr offsets, fun hS => ?_⟩
  obtain ⟨up, dn, bound, bytes⟩ := hs.streams hS
  obtain ⟨hdn, -⟩ := hs.snapshot.dn_distances
  refine ⟨?_, ?_, ?_, ?_⟩
  · rw [offsets, up, Descriptor.bytesFrom_congr fun j hj => hr _ (.inr (.inl ⟨j, hj, rfl⟩))]
  · rw [offsets, dn, Descriptor.bytesFrom_congr fun j hj => hr _ (.inr (.inr ⟨j, hj, rfl⟩))]
  · simpa only [targetOcc, offsets] using bound
  · rw [offsets, Descriptor.bytesFrom_congr fun j hj => hr _ (.inr (.inr ⟨j, by omega, rfl⟩))]
    exact bytes

/-- The bytes the host has not read lie where the target sees no free space. -/
theorem SessionSafe.free_not_watched {a j : Nat} (hj : j < targetFree x cb m)
    (ha : a = x.up.location (remoteOffset m cb .up .w + BitVec.ofNat 32 j)) : ¬ Watched x cb m a := by
  have hl := hs.snapshot.layout
  have hold : x.up.holds a := ha ▸ Descriptor.holds_location hl.upMask _
  obtain ⟨-, hw⟩ := hs.snapshot.up_distances
  simp only [targetFree] at hj
  rintro (hcb | ⟨i, hi, e⟩ | ⟨i, hi, e⟩)
  · exact hl.up_outside hold hcb
  · rw [ha, add_ofNat_eq_from x.up.readOffset] at e
    have := Descriptor.location_inj hl.upMask (by omega) (by omega) e
    omega
  · exact hl.buffers_disjoint hold (e ▸ Descriptor.holds_location hl.dnMask _)

/-- The bytes the target has not consumed lie where the host sees no free space. -/
theorem SessionSafe.host_free_not_watched {a j : Nat} (hj : j < x.dn.free.toNat)
    (ha : a = x.dn.location (x.dn.writeOffset + BitVec.ofNat 32 j)) : ¬ Watched x cb m a := by
  have hl := hs.snapshot.layout
  have hold : x.dn.holds a := ha ▸ Descriptor.holds_location hl.dnMask _
  obtain ⟨-, ho⟩ := hs.snapshot.dn_distances
  rw [Descriptor.free_toNat hs.snapshot.dn_occ_le] at hj
  rintro (hcb | ⟨i, hi, e⟩ | ⟨i, hi, e⟩)
  · exact hl.dn_outside hold hcb
  · exact hl.buffers_disjoint (e ▸ Descriptor.holds_location hl.upMask _) hold
  · rw [ha, add_ofNat_eq_from (remoteOffset m cb .dn .r)] at e
    have := Descriptor.location_inj hl.dnMask (by omega) (by omega) e
    omega

/-! ### The steps of a correct target -/

theorem SessionSafe.target_cells {cells : List (Word × Byte)} (hc : ∀ c ∈ cells, ¬ Watched x cb m c.1.toNat) :
    SessionSafe S x cb (TargetStep.apply { cells := cells } m) h :=
  hs.congr (TargetStep.apply_wf _ m hs.wf) fun a ha =>
    TargetStep.apply_read_other _ m a fun c hcc e => hc c hcc (e ▸ ha)

/-- The snapshot and the streams after one offset word is written, by the four words read then. -/
theorem SessionSafe.setWord {c : Channel} {f : OffsetField} {v uw ur dw dr : Word} {h' : Streams}
    (huw : remoteOffset (m.setWord (fieldAddr cb c f.desc).toNat v) cb .up .w = uw)
    (hur : remoteOffset (m.setWord (fieldAddr cb c f.desc).toNat v) cb .up .r = ur)
    (hdw : remoteOffset (m.setWord (fieldAddr cb c f.desc).toNat v) cb .dn .w = dw)
    (hdr : remoteOffset (m.setWord (fieldAddr cb c f.desc).toNat v) cb .dn .r = dr)
    (hup : (x.up.readOffset - ur).toNat + x.up.occ.toNat + (uw - x.up.writeOffset).toNat ≤ x.up.cap.toNat)
    (hdn : (dr - x.dn.readOffset).toNat + (dw - dr).toNat + (x.dn.writeOffset - dw).toNat ≤ x.dn.cap.toNat)
    (hstr : StreamsSafe x cb m h →
      h'.peer.produced = h'.delivered ++ x.up.bytesFrom x.up.readOffset (uw - x.up.readOffset).toNat m ∧
        h'.accepted = h'.peer.consumed ++ x.dn.bytesFrom dr (x.dn.writeOffset - dr).toNat m ∧
        h'.peer.taken.length ≤ (dw - dr).toNat ∧ h'.peer.taken = x.dn.bytesFrom dr h'.peer.taken.length m) :
    SessionSafe S x cb (m.setWord (fieldAddr cb c f.desc).toNat v) h' := by
  have hl := hs.snapshot.layout
  subst huw hur hdw hdr
  refine ⟨Memory.setWord_wf _ (fieldAddr_desc_fits hl.block c f) hs.wf, ⟨hl, hup, hdn⟩, fun hS => ?_⟩
  obtain ⟨up, dn, bound, bytes⟩ := hstr (hs.streams hS)
  refine ⟨?_, ?_, bound, ?_⟩
  · rw [hl.up_bytesFrom_setWord]
    exact up
  · rw [hl.dn_bytesFrom_setWord]
    exact dn
  · rw [hl.dn_bytesFrom_setWord]
    exact bytes

/-- R75, R76, R81 (b): the target publishes bytes that are in the up-buffer. -/
theorem SessionSafe.publishWrite {bytes : List Byte} (hn : bytes.length ≤ targetFree x cb m)
    (hb : x.up.bytesFrom (remoteOffset m cb .up .w) bytes.length m = bytes) :
    SessionSafe S x cb
      (m.setWord (fieldAddr cb .up OffsetField.w.desc).toNat (remoteOffset m cb .up .w + BitVec.ofNat 32 bytes.length))
      { h with peer := { h.peer with produced := h.peer.produced ++ bytes } } := by
  have hl := hs.snapshot.layout
  have hcap := Descriptor.cap_le hl.upMask
  obtain ⟨hW, hR⟩ := hs.snapshot.up_distances
  have hup := hs.snapshot.up
  simp only [targetFree] at hn
  refine hs.setWord (remoteOffset_setWord_same hl.block hs.wf ..) (remoteOffset_setWord_other hl.block m _ (by decide))
    (remoteOffset_setWord_other hl.block m _ (by decide)) (remoteOffset_setWord_other hl.block m _ (by decide)) ?_
    hs.snapshot.dn fun str => ⟨?_, str.dn, str.takenBound, str.takenBytes⟩
  · rw [distance_advance (by omega)]
    omega
  · rw [distance_advance (by omega), Descriptor.bytesFrom_append, add_ofNat_distance, hb, ← List.append_assoc, ← str.up]

/-- R75, R76, R81 (d): the target publishes that it has read bytes of the down-buffer. -/
theorem SessionSafe.publishRead {k : Nat} (hk : k ≤ targetOcc cb m) (hf : k ≤ h.peer.taken.length) :
    SessionSafe S x cb
      (m.setWord (fieldAddr cb .dn OffsetField.r.desc).toNat (remoteOffset m cb .dn .r + BitVec.ofNat 32 k))
      { h with peer := { h.peer with consumed := h.peer.consumed ++ h.peer.taken.take k, taken := h.peer.taken.drop k } } := by
  have hl := hs.snapshot.layout
  have hcap := Descriptor.cap_le hl.dnMask
  obtain ⟨hW, -⟩ := hs.snapshot.dn_distances
  have hdn := hs.snapshot.dn
  simp only [targetOcc] at hk hW
  refine hs.setWord (remoteOffset_setWord_other hl.block m _ (by decide)) (remoteOffset_setWord_other hl.block m _ (by decide))
    (remoteOffset_setWord_other hl.block m _ (by decide)) (remoteOffset_setWord_same hl.block hs.wf ..) hs.snapshot.up ?_
    fun str => ?_
  · rw [distance_behind hk, distance_advance (by omega)]
    omega
  · obtain ⟨up, dn, bound, bytes⟩ := str
    have taken : h.peer.taken.take k = x.dn.bytesFrom (remoteOffset m cb .dn .r) k m := by
      rw [bytes, Descriptor.bytesFrom_take _ _ hf]
    have left : h.peer.taken.drop k
        = x.dn.bytesFrom (remoteOffset m cb .dn .r + BitVec.ofNat 32 k) (h.peer.taken.length - k) m := by
      rw [← Descriptor.bytesFrom_drop _ _ hf, ← bytes]
    refine ⟨up, ?_, ?_, ?_⟩
    · rw [distance_behind (by omega), taken, List.append_assoc, ← Descriptor.bytesFrom_append, Nat.add_sub_cancel' (by omega)]
      exact dn
    · rw [distance_behind hk, List.length_drop]
      exact Nat.sub_le_sub_right bound k
    · rw [List.length_drop]
      exact left

/-- R78, R81 (a): the host publishes its own read offset. -/
theorem SessionSafe.hostPublishRead :
    SessionSafe S x cb (m.setWord (fieldAddr cb .up OffsetField.r.desc).toNat x.up.readOffset) h := by
  have hl := hs.snapshot.layout
  have hup := hs.snapshot.up
  refine hs.setWord (remoteOffset_setWord_other hl.block m _ (by decide)) (remoteOffset_setWord_same hl.block hs.wf ..)
    (remoteOffset_setWord_other hl.block m _ (by decide)) (remoteOffset_setWord_other hl.block m _ (by decide)) ?_
    hs.snapshot.dn fun str => ⟨str.up, str.dn, str.takenBound, str.takenBytes⟩
  rw [BitVec.sub_self, BitVec.toNat_zero]
  omega

/-- R78, R81 (a): the host publishes its own write offset. -/
theorem SessionSafe.hostPublishWrite :
    SessionSafe S x cb (m.setWord (fieldAddr cb .dn OffsetField.w.desc).toNat x.dn.writeOffset) h := by
  have hl := hs.snapshot.layout
  have hdn := hs.snapshot.dn
  obtain ⟨hW, -⟩ := hs.snapshot.dn_distances
  simp only [targetOcc] at hW
  refine hs.setWord (remoteOffset_setWord_other hl.block m _ (by decide)) (remoteOffset_setWord_other hl.block m _ (by decide))
    (remoteOffset_setWord_same hl.block hs.wf ..) (remoteOffset_setWord_other hl.block m _ (by decide)) hs.snapshot.up ?_
    fun str => ⟨str.up, str.dn, ?_, str.takenBytes⟩
  · rw [BitVec.sub_self, BitVec.toNat_zero]
    omega
  · have := str.takenBound
    simp only [targetOcc] at this
    omega

/-- R74 to R78: every step of a correct target keeps the snapshot safe and the streams whole. -/
theorem SessionSafe.targetStep {g : TargetStep} {q : Peer} (hg : g.Correct x cb m h.peer q) :
    SessionSafe S x cb (g.apply m) { h with peer := q } := by
  have hl := hs.snapshot.layout
  cases hg with
  | produce cells free apart =>
    refine hs.target_cells fun c hc => ?_
    obtain ⟨j, hj, e⟩ := free c hc
    exact hs.free_not_watched hj e
  | publishWrite bytes bound inBuffer =>
    have hfit : (fieldAddr cb .up .writeOffset).toNat + 4 ≤ 2 ^ 32 := fieldAddr_desc_fits hl.block .up .w
    rw [TargetStep.apply_ofWord _ _ hfit]
    exact hs.publishWrite bound inBuffer
  | take n bound =>
    change SessionSafe S x cb m _
    refine ⟨hs.wf, hs.snapshot, fun hS => ?_⟩
    obtain ⟨up, dn, -, bytes⟩ := hs.streams hS
    refine ⟨up, dn, by simpa using bound, ?_⟩
    rw [List.length_append, Descriptor.bytesFrom_length, Descriptor.bytesFrom_append, ← bytes]
  | publishRead k bound finished =>
    have hfit : (fieldAddr cb .dn .readOffset).toNat + 4 ≤ 2 ^ 32 := fieldAddr_desc_fits hl.block .dn .r
    rw [TargetStep.apply_ofWord _ _ hfit]
    exact hs.publishRead bound finished
  | elsewhere cells outside =>
    refine hs.target_cells fun c hc => ?_
    obtain ⟨hcb, hup, hdn⟩ := outside c hc
    rintro (h | ⟨j, -, e⟩ | ⟨j, -, e⟩)
    · exact hcb h
    · exact hup (e ▸ Descriptor.holds_location hl.upMask _)
    · exact hdn (e ▸ Descriptor.holds_location hl.dnMask _)

end

end Sys2Proof.Machine
end

section
/-!
A correct target inside the port calls of a command (`20_memory.md` R66 to R68, R74 to R78): what every step of the target and
every byte of the call keeps, the whole command keeps.
-/

namespace Sys2Proof.Machine

/-- Every step of a correct target keeps `I`, which speaks of what the target has done and of remote memory. -/
def TargetKeeps (x : Descriptors) (cb : Word) (I : Peer → Memory → Prop) : Prop :=
  ∀ m p (g : TargetStep) r, I p m → g.Correct x cb m p r → I r (g.apply m)

/-- The bytes that a call stores at any of its instants keep `I`. -/
def CallKeeps (cfg : Config) (I : Peer → Memory → Prop) (c : PortCall) : Prop :=
  ∀ (s : State) (whole : Bool) (g : Nat → Bool) (p : Peer) (m : Memory), s.cfg = cfg → I p m →
    I p (writeTimed ((s.timedWrites c whole).filter fun w => g w.instant) m)

theorem State.timedWrites_of_read (s : State) {c : PortCall} (hc : c.stored = []) (whole : Bool) :
    s.timedWrites c whole = [] := by
  simp [State.timedWrites, hc, timedBytes]

theorem CallKeeps.of_read {cfg : Config} {I : Peer → Memory → Prop} {c : PortCall} (hc : c.stored = []) :
    CallKeeps cfg I c := by
  intro s whole g p m _ hI
  rw [s.timedWrites_of_read hc]
  exact hI

section
variable {x : Descriptors} {cb : Word} {I : Peer → Memory → Prop} (ht : TargetKeeps x cb I)
include ht

/-! ### Inside one call -/

theorem PeerInCall.keeps {ws : List TimedByte}
    (hw : ∀ (g : Nat → Bool) p m, I p m → I p (writeTimed (ws.filter fun w => g w.instant) m)) {ts : List TargetStep}
    {k : Nat} {m : Memory} {p q : Peer} (h : PeerInCall x cb ws ts k m p q) (hI : I p m) : I q (weave ws ts k m) := by
  induction ts generalizing k m p with
  | nil =>
    obtain rfl : q = p := h
    exact hw (fun i => k ≤ i) q m hI
  | cons t ts ih =>
    obtain ⟨r, hr, h⟩ := h
    exact ih h (ht _ _ _ _ (hw (fun i => i == k) p m hI) hr)

/-- In a call that stores nothing: at every instant of it, and from there on. -/
theorem PeerInCall.keeps_at {ts : List TargetStep} {k : Nat} {m : Memory} {p q : Peer}
    (h : PeerInCall x cb [] ts k m p q) (hI : I p m) (n : Nat) :
    ∃ r, I r (applySteps (ts.take n) m) ∧ PeerInCall x cb [] (ts.drop n) (k + n) (applySteps (ts.take n) m) r q := by
  induction n generalizing ts k m p with
  | zero => exact ⟨p, by simpa using hI, by simpa using h⟩
  | succ n ih =>
    cases ts with
    | nil => exact ⟨p, hI, h⟩
    | cons t ts =>
      obtain ⟨r, hr, h⟩ := h
      obtain ⟨r', hr', h'⟩ := ih h (ht _ _ _ _ hI hr)
      exact ⟨r', hr', by rwa [Nat.add_right_comm, Nat.add_assoc] at h'⟩

end

/-- What the target does inside port calls depends on memory, the plans and the parameters only. -/
theorem PeerInCalls.congr {x : Descriptors} {cb : Word} {cs : List PortCall} {s s' : State} {p q : Peer}
    (h : PeerInCalls x cb cs s p q) (hcfg : s'.cfg = s.cfg) (hport : s'.port = s.port) (hmem : s'.mem = s.mem) :
    PeerInCalls x cb cs s' p q := by
  induction cs generalizing s s' p with
  | nil => exact h
  | cons c cs ih =>
    have hplan : s'.plan = s.plan := by rw [State.plan, State.plan, hport]
    have hret : s'.callReturns = s.callReturns := by rw [State.callReturns, State.callReturns, hplan, hcfg]
    have hws (whole : Bool) : s'.timedWrites c whole = s.timedWrites c whole := by
      rw [State.timedWrites, State.timedWrites, hplan, hcfg]
    obtain ⟨r, hr, h⟩ := h
    refine ⟨r, by rwa [hret, hws, hplan, hmem], ?_⟩
    rw [hret]
    split at h
    next hc =>
      rw [if_pos hc]
      refine ih h hcfg ?_ ?_
      · rw [State.afterCall_port, State.afterCall_port, hport]
      · rw [State.afterCall_mem, State.afterCall_mem, State.memAfter, State.memAfter, hws, hplan, hmem]
    next hc => rwa [if_neg hc]

/-- Where the next call returns, the target goes on inside the calls after it. -/
theorem PeerInCalls.after_returned {x : Descriptors} {cb : Word} {c : PortCall} {cs : List PortCall} {s : State} {p q : Peer}
    (h : PeerInCalls x cb (c :: cs) s p q) (hv : s.plan.verdict s.cfg = .returns) (ans : PortAnswer) :
    ∃ r, PeerInCall x cb (s.timedWrites c true) s.plan.during 0 s.mem p r ∧
      PeerInCalls x cb cs (s.afterCall c true ans) r q := by
  have hc : s.callReturns = true := by simp [State.callReturns, hv]
  obtain ⟨r, hr, h⟩ := h
  rw [hc, if_pos rfl] at h
  rw [hc] at hr
  exact ⟨r, hr, h.congr rfl rfl rfl⟩

/-! ### Inside the calls of a command -/

theorem Call.bind_eq_returned {α β : Type} {c : Call α} {k : α → State → Call β} {b : β} {u : State}
    (h : c.bind k = .returned b u) : ∃ a t, c = .returned a t ∧ k a t = .returned b u := by
  cases c with
  | returned a t => exact ⟨a, t, rfl, h⟩
  | _ => cases h

section
variable {x : Descriptors} {cb : Word} {I : Peer → Memory → Prop} (ht : TargetKeeps x cb I)
include ht

theorem CallsMade.keeps {s v : State} {es : List PortEvent} {rest : List PortCall} {p q : Peer} (hv : CallsMade s es v)
    (hc : ∀ e ∈ es, CallKeeps s.cfg I e.call) (h : PeerInCalls x cb (es.map PortEvent.call ++ rest) s p q)
    (hI : I p s.mem) : ∃ r, I r v.mem ∧ PeerInCalls x cb rest v r q := by
  induction hv generalizing p with
  | nil s => exact ⟨p, hI, h⟩
  | cons s c ans es v _ hret _ ih =>
    obtain ⟨r, hr, h⟩ := PeerInCalls.after_returned h hret ans
    have hcall := hc _ (List.mem_cons_self ..)
    exact ih (fun e he => hc e (List.mem_cons_of_mem _ he)) h
      (hr.keeps ht (fun g p m => hcall s true g p m rfl) hI)

/-- How a command in a session ends that is neither cut by reset nor left in flight: its calls returned, or one failed. -/
theorem Call.Runs.finish_keeps {α : Type} {i : Instr} {s t : State} {c : Call α} {calls : List PortCall}
    {k : α → State → Host.Outcome State Fault Refusal} {p q : Peer} (hr : c.Runs s calls)
    (hc : ∀ d ∈ calls, CallKeeps s.cfg I d) (h : PeerInCalls x cb calls s p q) (hI : I p s.mem)
    (hk : c.finish i k = .next t) (hs : t.status.session ≠ .idle) (hf : t.inFlight = none) :
    (∃ a u es, c = .returned a u ∧ k a u = .next t ∧ es.map PortEvent.call = calls ∧ CallsMade s es u ∧ I q u.mem) ∨
      ∃ u prim addr, t = u.raiseTransportError i.cmdWord prim addr ∧ SameBlock s u ∧ I q u.mem := by
  rcases Call.finish_next hk with ⟨a, u, rfl, hk⟩ | ⟨prim, addr, u, rfl, rfl⟩ | ⟨u, rfl, rfl⟩ | ⟨u, rfl, rfl⟩
  · obtain ⟨es, he, hm⟩ := hr
    have hes : ∀ e ∈ es, CallKeeps s.cfg I e.call := fun e hm => hc _ (he ▸ List.mem_map_of_mem hm)
    obtain ⟨r, hr, h⟩ := hm.keeps ht (rest := []) hes (by simpa [he] using h) hI
    obtain rfl : q = r := h
    exact .inl ⟨a, u, es, rfl, hk, he, hm, hr⟩
  · obtain ⟨es, d, rest, v, rfl, rfl, rfl, hm, -, hv, rfl⟩ := hr
    have hes : ∀ e ∈ es, CallKeeps s.cfg I e.call := fun e hm => hc _ (List.mem_append_left _ (List.mem_map_of_mem hm))
    obtain ⟨r, hr, r', hr', h⟩ := hm.keeps ht hes h hI
    have hret : v.callReturns = false := by simp [State.callReturns, hv]
    rw [hret] at h hr'
    obtain rfl : q = r' := h
    refine .inr ⟨_, _, _, rfl, hm.sameBlock.trans (afterCall_sameBlock ..), hr'.keeps ht (fun g p m => ?_) hr⟩
    exact hc d (by simp) v false g p m hm.sameBlock.cfg
  · exact absurd rfl hs
  · cases hf

/-! ### What a copy-out reads -/

/-- Each byte read is what its location held in a memory that `I` holds of. -/
theorem memRead_reads {a : Word} {n : Nat} {s t : State} {b : List Byte} {rest : List PortCall} {p q : Peer}
    (hr : memRead a n s = .returned b t)
    (h : PeerInCalls x cb ((if 0 < n then [.read a n] else []) ++ rest) s p q) (hI : I p s.mem) :
    b.length = n ∧ (∀ j < n, ∃ r m, I r m ∧ b[j]? = some (m.read (a.toNat + j))) ∧
      ∃ r, I r t.mem ∧ PeerInCalls x cb rest t r q := by
  cases n with
  | zero =>
    cases hr
    exact ⟨rfl, by simp, p, hI, h⟩
  | succ n =>
    obtain ⟨-, hv, rfl, rfl⟩ := portCall_eq_returned hr
    obtain ⟨r, hr, h⟩ := PeerInCalls.after_returned h hv (.bytes (s.bytesSeen a (n + 1)))
    have hstores : (PortCall.read a (n + 1)).stored = [] := rfl
    have hend := hr.keeps ht (fun g p m => CallKeeps.of_read hstores s true g p m rfl) hI
    refine ⟨by simp [State.bytesSeen], fun j hj => ?_, r, hend, h⟩
    rw [s.timedWrites_of_read hstores] at hr
    obtain ⟨r', hI', -⟩ := hr.keeps_at ht hI (s.plan.instantOf false j)
    exact ⟨r', _, hI', by simp [State.bytesSeen, hj, PortPlan.memAt]⟩

theorem copyOut_reads {g : Segments} {s u : State} {bytes : List Byte} {p q : Peer} (hr : copyOut g s = .returned bytes u)
    (h : PeerInCalls x cb g.readCalls s p q) (hI : I p s.mem) :
    bytes.length = g.first + g.rest ∧
      ∀ j < g.first + g.rest, ∃ r m, I r m ∧ bytes[j]? = some (m.read (g.byteAddr j)) := by
  obtain ⟨b1, t, h1, hr⟩ := Call.bind_eq_returned hr
  obtain ⟨b2, t', h2, hr⟩ := Call.bind_eq_returned hr
  cases hr
  obtain ⟨len1, read1, r, hI, h⟩ := memRead_reads ht h1 h hI
  obtain ⟨len2, read2, -⟩ := memRead_reads ht (rest := []) h2 (by simpa using h) hI
  refine ⟨by rw [List.length_append, len1, len2], fun j hj => ?_⟩
  by_cases hf : j < g.first
  · obtain ⟨r, m, hm, e⟩ := read1 j hf
    exact ⟨r, m, hm, by rw [List.getElem?_append_left (by omega), e, Segments.byteAddr, if_pos hf]⟩
  · obtain ⟨r, m, hm, e⟩ := read2 (j - g.first) (by omega)
    exact ⟨r, m, hm, by rw [List.getElem?_append_right (by omega), len1, e, Segments.byteAddr, if_neg hf]⟩

end

/-! ### What a copy-in leaves -/

/-- The call stores byte `b` at location `a`. -/
def PortCall.stores (k : PortCall) (a : Nat) (b : Byte) : Prop := ∃ j, k.stored[j]? = some b ∧ k.addr.toNat + j = a

theorem PortCall.exists_stores {k : PortCall} {a : Nat} (h : k.addr.toNat ≤ a ∧ a < k.addr.toNat + k.stored.length) :
    ∃ b, k.stores a b :=
  ⟨_, a - k.addr.toNat, List.getElem?_eq_getElem (by omega), by omega⟩

/-- A location that calls which returned store one byte to, and that the target leaves alone, holds that byte. -/
theorem CallsMade.read_stored {s u : State} {es : List PortEvent} (h : CallsMade s es u) (hm : s.mem.wf) {a : Nat} {b : Byte}
    (ht : ¬ s.targetTouches es.length a) (hex : ∃ e ∈ es, e.call.stores a b)
    (hone : ∀ e ∈ es, ∀ c, e.call.stores a c → c = b) : u.mem.read a = b := by
  induction h with
  | nil s =>
    obtain ⟨e, he, -⟩ := hex
    cases he
  | cons s c ans es u hc hv hu ih =>
    rw [List.length_cons, targetTouches_succ s es.length a c true ans, not_or] at ht
    obtain ⟨hnow, hlater⟩ := ht
    by_cases hl : ∃ e ∈ es, e.call.stores a b
    · exact ih (memAfter_wf s c true hc hm) hlater hl fun e he => hone e (List.mem_cons_of_mem _ he)
    · have apart : ∀ e ∈ es, ¬ (e.call.addr.toNat ≤ a ∧ a < e.call.addr.toNat + e.call.stored.length) := by
        intro e he hin
        obtain ⟨d, hd⟩ := PortCall.exists_stores hin
        exact hl ⟨e, he, hone e (List.mem_cons_of_mem _ he) d hd ▸ hd⟩
      have hhead : c.stores a b := by
        obtain ⟨e, he, hs⟩ := hex
        rcases List.mem_cons.mp he with rfl | he
        · exact hs
        · exact absurd ⟨e, he, hs⟩ hl
      obtain ⟨j, hj, rfl⟩ := hhead
      obtain ⟨k, hk⟩ := memAfter_read_landed true hc hm hj rfl
      rw [hu.read_other es.length _ (Nat.le_refl _) apart hlater, State.afterCall_mem, hk, s.stepsIn_one,
        applySteps_read_other _ _ _ fun t hmem d hd e => hnow ⟨t, List.mem_of_mem_drop hmem, d, hd, e⟩,
        Memory.read_write_same _ _ _ hm]

/-- Every byte of a copy-in is stored, in its place. -/
theorem Segments.exists_writeCall {g : Segments} {data : List Byte} (hl : data.length = g.first + g.rest) {i : Nat} {b : Byte}
    (hb : data[i]? = some b) : ∃ k ∈ g.writeCalls data, k.stores (g.byteAddr i) b := by
  have hi : i < g.first + g.rest := hl ▸ (List.getElem?_eq_some_iff.mp hb).1
  by_cases hf : i < g.first
  · refine ⟨.write g.addr1 (data.take g.first), ?_, i, ?_, ?_⟩
    · exact List.mem_append_left _ (by simp [show 0 < g.first by omega])
    · simpa [PortCall.stored, List.getElem?_take, hf] using hb
    · rw [Segments.byteAddr, if_pos hf]
      rfl
  · refine ⟨.write g.addr2 ((data.drop g.first).take g.rest), ?_, i - g.first, ?_, ?_⟩
    · exact List.mem_append_right _ (by simp [show 0 < g.rest by omega])
    · rw [PortCall.stored, List.getElem?_take, if_pos (by omega), List.getElem?_drop, Nat.add_sub_cancel' (by omega)]
      exact hb
    · rw [Segments.byteAddr, if_neg hf]
      rfl

/-- A copy-in stores nothing else. -/
theorem Segments.byte_of_stores {g : Segments} {data : List Byte} {k : PortCall} (hk : k ∈ g.writeCalls data) {a : Nat}
    {b : Byte} (h : k.stores a b) : ∃ i, data[i]? = some b ∧ a = g.byteAddr i := by
  obtain ⟨j, hj, rfl⟩ := h
  rcases Segments.mem_writeCalls hk with rfl | rfl
  · simp only [PortCall.stored, List.getElem?_take] at hj
    split at hj
    next hlt => exact ⟨j, hj, by rw [Segments.byteAddr, if_pos hlt]; rfl⟩
    next => cases hj
  · simp only [PortCall.stored, List.getElem?_take, List.getElem?_drop] at hj
    split at hj
    next =>
      refine ⟨g.first + j, hj, ?_⟩
      rw [Segments.byteAddr, if_neg (by omega), Nat.add_sub_cancel_left]
      rfl
    next => cases hj

end Sys2Proof.Machine
end

section
/-!
A host that keeps its roles and a correct target keep the snapshot safe and the streams whole (`20_memory.md` R81,
`43_offset_sync.md` R152, `70_reset_and_hazards.md` R204): command by command, and for every step.
-/

namespace Sys2Proof.Machine

/-! ### Where a correct target writes -/

theorem TargetStep.mem_ofWord {a v : Word} (ha : a.toNat + 4 ≤ 2 ^ 32) {c : Word × Byte}
    (hc : c ∈ (TargetStep.ofWord a v).cells) : a.toNat ≤ c.1.toNat ∧ c.1.toNat < a.toNat + 4 := by
  have h1 : (a + 1).toNat = a.toNat + 1 := word_add_toNat (k := 1) (by omega)
  have h2 : (a + 2).toNat = a.toNat + 2 := word_add_toNat (k := 2) (by omega)
  have h3 : (a + 3).toNat = a.toNat + 3 := word_add_toNat (k := 3) (by omega)
  simp only [TargetStep.ofWord, List.mem_cons, List.not_mem_nil, or_false] at hc
  rcases hc with rfl | rfl | rfl | rfl <;> simp only [h1, h2, h3] <;> omega

/-- A correct target writes nothing of the down-buffer, and of the up-buffer only what is free in its view (R74, R78). -/
theorem TargetStep.Correct.cells {x : Descriptors} {cb : Word} {m : Memory} {p q : Peer} {g : TargetStep}
    (hg : g.Correct x cb m p q) (hl : LayoutOk x cb) {c : Word × Byte} (hc : c ∈ g.cells) :
    ¬ x.dn.holds c.1.toNat ∧ (¬ x.up.holds c.1.toNat ∨
      ∃ j < targetFree x cb m, c.1.toNat = x.up.location (remoteOffset m cb .up .w + BitVec.ofNat 32 j)) := by
  have word (ch : Channel) (f : OffsetField) (v : Word) (hc : c ∈ (TargetStep.ofWord (fieldAddr cb ch f.desc) v).cells) :
      ¬ x.dn.holds c.1.toNat ∧ ¬ x.up.holds c.1.toNat := by
    obtain ⟨hcb, htop⟩ := fieldAddr_desc_inBlock hl.block ch f
    obtain ⟨hlo, hhi⟩ := TargetStep.mem_ofWord (fieldAddr_desc_fits hl.block ch f) hc
    have hin : inControlBlock cb c.1.toNat := ⟨by omega, by omega⟩
    exact ⟨fun h => hl.dn_outside h hin, fun h => hl.up_outside h hin⟩
  cases hg with
  | produce cells free apart => exact ⟨apart c hc, .inr (free c hc)⟩
  | publishWrite bytes bound inBuffer => exact (word .up .w _ hc).imp_right .inl
  | take n bound => cases hc
  | publishRead k bound finished => exact (word .dn .r _ hc).imp_right .inl
  | elsewhere cells outside => exact ⟨(outside c hc).2.2, .inl (outside c hc).2.1⟩

/-- The bytes that lie between the host's two up-channel offsets stay. -/
theorem SessionSafe.target_keeps_unread {S : Prop} {x : Descriptors} {cb : Word} {m : Memory} {h : Streams}
    (hs : SessionSafe S x cb m h) {g : TargetStep} {p q : Peer} (hg : g.Correct x cb m p q) :
    x.up.bytesFrom x.up.readOffset x.up.occ.toNat (g.apply m) = x.up.bytesFrom x.up.readOffset x.up.occ.toNat m := by
  obtain ⟨hw, -⟩ := hs.snapshot.up_distances
  refine Descriptor.bytesFrom_congr fun j hj => g.apply_read_other m _ fun c hc e => ?_
  rcases (hg.cells hs.snapshot.layout hc).2 with hout | ⟨k, hk, ek⟩
  · exact hout (e ▸ Descriptor.holds_location hs.snapshot.layout.upMask _)
  · exact hs.free_not_watched hk ek (.inr (.inl ⟨j, by omega, e⟩))

/-- Every step inside a call is correct in some memory. -/
theorem PeerInCall.exists_correct {x : Descriptors} {cb : Word} {ws : List TimedByte} {ts : List TargetStep} {k : Nat}
    {m : Memory} {p q : Peer} (h : PeerInCall x cb ws ts k m p q) {g : TargetStep} (hg : g ∈ ts) :
    ∃ m p q, g.Correct x cb m p q := by
  induction ts generalizing k m p with
  | nil => cases hg
  | cons t ts ih =>
    obtain ⟨r, hr, h⟩ := h
    rcases List.mem_cons.mp hg with rfl | hg
    · exact ⟨_, _, _, hr⟩
    · exact ih h hg

theorem CallsMade.dn_not_touched {x : Descriptors} {cb : Word} (hl : LayoutOk x cb) {s u : State} {es : List PortEvent}
    (hu : CallsMade s es u) {p q : Peer} (h : PeerInCalls x cb (es.map PortEvent.call) s p q) {a : Nat} (ha : x.dn.holds a) :
    ¬ s.targetTouches es.length a := by
  induction hu generalizing p with
  | nil s => simp [State.targetTouches]
  | cons s c ans es u _ hv _ ih =>
    obtain ⟨r, hr, h⟩ := PeerInCalls.after_returned h hv ans
    rw [List.length_cons, targetTouches_succ s es.length a c true ans, not_or]
    refine ⟨?_, ih h⟩
    rintro ⟨g, hg, d, hd, rfl⟩
    obtain ⟨m, p, q, hc⟩ := hr.exists_correct hg
    exact (hc.cells hl hd).1 ha

/-! ### The host moves its registers -/

theorem LayoutOk.setOffset {x : Descriptors} {cb : Word} (h : LayoutOk x cb) (c : Channel) (f : OffsetField) (v : Word) :
    LayoutOk (x.setOffset c f v) cb := by
  cases c <;> cases f <;>
    exact ⟨h.upMask, h.dnMask, h.upSpace, h.dnSpace, h.block, h.upApart, h.dnApart, h.buffersApart⟩

/-- The contract does not speak of the host's cached offsets. -/
theorem TargetStep.Correct.setOffset {x : Descriptors} {cb : Word} {m : Memory} {p q : Peer} {g : TargetStep}
    (h : g.Correct x cb m p q) (c : Channel) (f : OffsetField) (v : Word) : g.Correct (x.setOffset c f v) cb m p q := by
  cases h with
  | produce cells free apart => cases c <;> cases f <;> exact .produce p cells free apart
  | publishWrite bytes bound inBuffer => cases c <;> cases f <;> exact .publishWrite p bytes bound inBuffer
  | take n bound => cases c <;> cases f <;> exact .take p n bound
  | publishRead k bound finished => cases c <;> cases f <;> exact .publishRead p k bound finished
  | elsewhere cells outside => cases c <;> cases f <;> exact .elsewhere p cells outside

section
variable {S : Prop} {x : Descriptors} {cb : Word} {m : Memory} {h : Streams} (hs : SessionSafe S x cb m h)
include hs

/-- R150, R152: RFSH of the target's write offset. -/
theorem SessionSafe.refreshWrite : SessionSafe S (x.setOffset .up .w (remoteOffset m cb .up .w)) cb m h := by
  have hup := hs.snapshot.up
  obtain ⟨hw, -⟩ := hs.snapshot.up_distances
  refine ⟨hs.wf, ⟨hs.snapshot.layout.setOffset .up .w _, ?_, hs.snapshot.dn⟩, fun hS => ?_⟩
  · change (x.up.readOffset - _).toNat + (remoteOffset m cb .up .w - x.up.readOffset).toNat
      + (remoteOffset m cb .up .w - remoteOffset m cb .up .w).toNat ≤ x.up.cap.toNat
    rw [BitVec.sub_self, BitVec.toNat_zero]
    omega
  · obtain ⟨up, dn, bound, bytes⟩ := hs.streams hS
    exact ⟨up, dn, bound, bytes⟩

/-- R150, R152: RFSH of the target's read offset. -/
theorem SessionSafe.refreshRead : SessionSafe S (x.setOffset .dn .r (remoteOffset m cb .dn .r)) cb m h := by
  have hdn := hs.snapshot.dn
  refine ⟨hs.wf, ⟨hs.snapshot.layout.setOffset .dn .r _, hs.snapshot.up, ?_⟩, fun hS => ?_⟩
  · change (remoteOffset m cb .dn .r - remoteOffset m cb .dn .r).toNat
      + (remoteOffset m cb .dn .w - remoteOffset m cb .dn .r).toNat
      + (x.dn.writeOffset - remoteOffset m cb .dn .w).toNat ≤ x.dn.cap.toNat
    rw [BitVec.sub_self, BitVec.toNat_zero]
    omega
  · obtain ⟨up, dn, bound, bytes⟩ := hs.streams hS
    exact ⟨up, dn, bound, bytes⟩

/-- R133: DEQ advances over the bytes it delivers. -/
theorem SessionSafe.advanceRead {n : Nat} (hn : n ≤ x.up.occ.toNat) :
    SessionSafe S (x.setOffset .up .r (x.up.readOffset + BitVec.ofNat 32 n)) cb m
      { h with delivered := h.delivered ++ x.up.bytesFrom x.up.readOffset n m } := by
  have hcap := Descriptor.cap_le hs.snapshot.layout.upMask
  have hup := hs.snapshot.up
  obtain ⟨hw, -⟩ := hs.snapshot.up_distances
  refine ⟨hs.wf, ⟨hs.snapshot.layout.setOffset .up .r _, ?_, hs.snapshot.dn⟩, fun hS => ?_⟩
  · change (x.up.readOffset + BitVec.ofNat 32 n - _).toNat + (x.up.writeOffset - (x.up.readOffset + BitVec.ofNat 32 n)).toNat
      + (remoteOffset m cb .up .w - x.up.writeOffset).toNat ≤ x.up.cap.toNat
    rw [distance_advance (by omega), distance_behind hn]
    change _ + (x.up.occ.toNat - n) + _ ≤ _
    omega
  · obtain ⟨up, dn, bound, bytes⟩ := hs.streams hS
    refine ⟨?_, dn, bound, bytes⟩
    change _ = (h.delivered ++ _)
      ++ x.up.bytesFrom _ (remoteOffset m cb .up .w - (x.up.readOffset + BitVec.ofNat 32 n)).toNat m
    rw [distance_behind (by omega), List.append_assoc]
    change _ = _ ++ (_ ++ x.up.bytesFrom (x.up.readOffset + BitVec.ofNat 32 n) _ m)
    rw [← Descriptor.bytesFrom_append, Nat.add_sub_cancel' (by omega)]
    exact up

/-- R131: ENQ advances over the bytes it has stored. -/
theorem SessionSafe.advanceWrite {n : Nat} (hn : n ≤ x.dn.free.toNat) :
    SessionSafe S (x.setOffset .dn .w (x.dn.writeOffset + BitVec.ofNat 32 n)) cb m
      { h with accepted := h.accepted ++ x.dn.bytesFrom x.dn.writeOffset n m } := by
  have hcap := Descriptor.cap_le hs.snapshot.layout.dnMask
  have hdn := hs.snapshot.dn
  have hocc := hs.snapshot.dn_occ_le
  obtain ⟨hw, ho⟩ := hs.snapshot.dn_distances
  rw [Descriptor.free_toNat hocc] at hn
  simp only [targetOcc] at hw
  refine ⟨hs.wf, ⟨hs.snapshot.layout.setOffset .dn .w _, hs.snapshot.up, ?_⟩, fun hS => ?_⟩
  · change _ + _ + (x.dn.writeOffset + BitVec.ofNat 32 n - remoteOffset m cb .dn .w).toNat ≤ x.dn.cap.toNat
    rw [distance_advance (by omega)]
    change (remoteOffset m cb .dn .r - x.dn.readOffset).toNat + _ + _ ≤ _
    omega
  · obtain ⟨up, dn, bound, bytes⟩ := hs.streams hS
    refine ⟨up, ?_, bound, bytes⟩
    change _ = _ ++ x.dn.bytesFrom _ (x.dn.writeOffset + BitVec.ofNat 32 n - remoteOffset m cb .dn .r).toNat m
    rw [distance_advance (by omega), Descriptor.bytesFrom_append, add_ofNat_distance, ← List.append_assoc, ← dn]

end

end Sys2Proof.Machine
end

section
/-!
Every command of a host that keeps its roles, and every step, keeps the snapshot safe and the streams whole (`20_memory.md` R81,
`70_reset_and_hazards.md` R204).
-/

namespace Sys2Proof.Machine

/-! ### How a command in a session ends -/

/-- The invariant inside the port calls of a command, in which only what the target has done moves. -/
def SafeInCall (S : Prop) (x : Descriptors) (cb : Word) (h : Streams) (p : Peer) (m : Memory) : Prop :=
  SessionSafe S x cb m { h with peer := p }

theorem targetKeeps_safeInCall (S : Prop) (x : Descriptors) (cb : Word) (h : Streams) :
    TargetKeeps x cb (SafeInCall S x cb h) :=
  fun _ _ _ _ hs hg => SessionSafe.targetStep hs hg

/-- `i` was answered and left the session safe; the answer moves the streams as `Streams.next` says. -/
def AnsweredSafely (S : Prop) (cb : Word) (h : Streams) (i : Instr) (s t : State) (q : Peer) : Prop :=
  ∃ y r, t.responses = s.responses ++ [r] ∧ t.InSession cb y ∧
    SessionSafe S y cb t.mem
      { peer := q, delivered := h.delivered ++ deliveredBy i r, accepted := h.accepted ++ acceptedBy i r }

/-- An answer that is not OK, or not to DEQ or ENQ, moves no bytes (R131, R133). -/
theorem noBytes_of_error (i : Instr) {r : Response} (hr : r.code ≠ .ok) : deliveredBy i r = [] ∧ acceptedBy i r = [] := by
  constructor
  · unfold deliveredBy
    split <;> simp [hr]
  · unfold acceptedBy
    split <;> simp [hr]

section
variable {S : Prop} {x : Descriptors} {cb : Word} {h : Streams} {i : Instr} {s t : State} {q : Peer}

theorem AnsweredSafely.of_noBytes {y : Descriptors} {r : Response} (hr : t.responses = s.responses ++ [r])
    (hb : deliveredBy i r = [] ∧ acceptedBy i r = []) (ht : t.InSession cb y) (hs : SafeInCall S y cb h q t.mem) :
    AnsweredSafely S cb h i s t q := by
  refine ⟨y, r, hr, ht, ?_⟩
  rw [hb.1, hb.2, List.append_nil, List.append_nil]
  exact hs

theorem SameBlock.inSession (hb : SameBlock s t) (h : s.InSession cb x) : t.InSession cb x :=
  ⟨hb.status ▸ h.session, hb.x.trans h.descriptors, hb.cbAddr.trans h.address⟩

theorem State.InSession.respond (h : s.InSession cb x) (code : StatusCode) (v : Word) (p : List Byte) :
    (s.respond code v p).InSession cb x := ⟨h.session, h.descriptors, h.address⟩

variable (hin : s.InSession cb x) (hs : SessionSafe S x cb s.mem h)
include hin

/-- A command whose port calls returned and that moves neither registers nor bytes. -/
theorem AnsweredSafely.of_returned {u : State} {v : Word} {p : List Byte} (hb : SameBlock s u)
    (hn : deliveredBy i ⟨.ok, v, p⟩ = [] ∧ acceptedBy i ⟨.ok, v, p⟩ = []) (hu : SafeInCall S x cb h q u.mem) :
    AnsweredSafely S cb h i s (u.respond .ok v p) q :=
  .of_noBytes (by rw [State.respond_responses, hb.responses]) hn ((hb.inSession hin).respond ..) hu

/-- A command whose port calls returned and that moves an offset register. -/
theorem AnsweredSafely.of_moved {u : State} {c : Channel} {f : OffsetField} {v w : Word} {p : List Byte} (hb : SameBlock s u)
    (hu : SessionSafe S (x.setOffset c f v) cb u.mem
      { peer := q
        delivered := h.delivered ++ deliveredBy i ⟨.ok, w, p⟩
        accepted := h.accepted ++ acceptedBy i ⟨.ok, w, p⟩ }) :
    AnsweredSafely S cb h i s ((u.setOffset c f v).respond .ok w p) q := by
  have hx : (u.setOffset c f v).x = some (x.setOffset c f v) := by
    rw [State.setOffset_x, hb.x, hin.descriptors]
    rfl
  have hresp : (u.setOffset c f v).responses = s.responses := hb.responses
  have hu' := hb.inSession hin
  exact ⟨_, ⟨.ok, w, p⟩, by rw [State.respond_responses, hresp], ⟨hu'.session, hx, hu'.address⟩, hu⟩

/-- A command one of whose port calls failed (R166). -/
theorem AnsweredSafely.of_failed {u : State} (prim : Prim) (addr : Word) (hb : SameBlock s u)
    (hu : SafeInCall S x cb h q u.mem) : AnsweredSafely S cb h i s (u.raiseTransportError i.cmdWord prim addr) q :=
  .of_noBytes (by rw [State.raise_responses, hb.responses]) (noBytes_of_error i (by simp))
    ⟨by simp, hb.x.trans hin.descriptors, hb.cbAddr.trans hin.address⟩ hu

include hs

/-- A command that changes nothing but the responses. -/
theorem AnsweredSafely.of_respond {r : Response} (hb : deliveredBy i r = [] ∧ acceptedBy i r = []) (hq : q = h.peer) :
    AnsweredSafely S cb h i s { s with responses := s.responses ++ [r] } q := by
  subst hq
  exact .of_noBytes rfl hb ⟨hin.session, hin.descriptors, hin.address⟩ hs

/-- A command refused with BAD_STATE. -/
theorem AnsweredSafely.of_refused (hq : q = h.peer) :
    AnsweredSafely S cb h i s (s.respond .badState s.status.word []) q :=
  .of_respond hin hs (noBytes_of_error i (by simp)) hq

end

/-! ### The commands with port calls -/

theorem Segments.readCalls_keep {g : Segments} (cfg : Config) (I : Peer → Memory → Prop) :
    ∀ k ∈ g.readCalls, CallKeeps cfg I k := by
  intro k hk
  rcases Segments.mem_readCalls hk with rfl | rfl <;> exact .of_read rfl

/-- What holds inside the calls of a DEQ: the bytes it is to deliver stay where they are. -/
def SafeUnread (S : Prop) (x : Descriptors) (cb : Word) (h : Streams) (bytes : List Byte) (p : Peer) (m : Memory) : Prop :=
  SafeInCall S x cb h p m ∧ x.up.bytesFrom x.up.readOffset x.up.occ.toNat m = bytes

theorem targetKeeps_safeUnread (S : Prop) (x : Descriptors) (cb : Word) (h : Streams) (bytes : List Byte) :
    TargetKeeps x cb (SafeUnread S x cb h bytes) :=
  fun _ _ _ _ hs hg => ⟨SessionSafe.targetStep hs.1 hg, (SessionSafe.target_keeps_unread hs.1 hg).trans hs.2⟩

/-- Every byte ENQ stores goes where neither the snapshot nor the streams are read from. -/
theorem enq_calls_keep {S : Prop} {x : Descriptors} {cb : Word} {h : Streams} {data : List Byte} (cfg : Config) :
    ∀ k ∈ (enqSegments x.dn data).writeCalls (data.take (enqCount x.dn data)), CallKeeps cfg (SafeInCall S x cb h) k := by
  intro k hk v whole g p m _ hI
  have hl := hI.snapshot.layout
  have hcap := enqCount_le_cap hI.snapshot.dn_occ_le data
  have place (w : TimedByte) (hw : w ∈ (v.timedWrites k whole).filter fun w => g w.instant) :
      ∃ i < enqCount x.dn data, w.addr = x.dn.location (x.dn.writeOffset + BitVec.ofNat 32 i) := by
    obtain ⟨j, b, hj, -, rfl⟩ := mem_timedBytes.mp (List.mem_of_mem_filter hw)
    obtain ⟨i, hi, e⟩ := Segments.byte_of_stores hk ⟨j, hj, rfl⟩
    have hlt : i < (data.take (enqCount x.dn data)).length := (List.getElem?_eq_some_iff.mp hi).1
    have hi : i < enqCount x.dn data := lt_of_lt_of_le hlt (List.length_take_le ..)
    exact ⟨i, hi, e.trans (Descriptor.segments_byteAddr hl.dnMask hl.dnSpace _ hcap hi)⟩
  refine SessionSafe.congr hI (writeTimed_wf _ m (fun w hw => ?_) hI.wf) fun a ha =>
    writeTimed_read_other _ m a fun w hw e => ?_
  · obtain ⟨i, -, e⟩ := place w hw
    have hin := x.dn.holds_location hl.dnMask (x.dn.writeOffset + BitVec.ofNat 32 i)
    have hspace := hl.dnSpace
    simp only [Descriptor.holds, Descriptor.inSpace, ← e] at hin hspace
    omega
  · obtain ⟨i, hi, e'⟩ := place w hw
    exact hI.host_free_not_watched (lt_of_lt_of_le hi (enqCount_le_free ..)) (e ▸ e') ha

/-- A copy-in to the down-buffer all of whose calls returned has stored the bytes accepted (R76, R131). -/
theorem CallsMade.enq_stored {x : Descriptors} {cb : Word} {data : List Byte} {s u : State} {es : List PortEvent} {p q : Peer}
    (hu : CallsMade s es u)
    (hes : es.map PortEvent.call = (enqSegments x.dn data).writeCalls (data.take (enqCount x.dn data)))
    (h : PeerInCalls x cb (es.map PortEvent.call) s p q) (hm : s.mem.wf) (hl : LayoutOk x cb)
    (hcap : enqCount x.dn data ≤ x.dn.cap.toNat) :
    data.take (enqCount x.dn data) = x.dn.bytesFrom x.dn.writeOffset (enqCount x.dn data) u.mem := by
  have hlen : (data.take (enqCount x.dn data)).length = enqCount x.dn data := by
    rw [enq_data_length, enqSegments, Descriptor.segments_total]
  have place (i : Nat) (hi : i < enqCount x.dn data) :
      (enqSegments x.dn data).byteAddr i = x.dn.location (x.dn.writeOffset + BitVec.ofNat 32 i) :=
    Descriptor.segments_byteAddr hl.dnMask hl.dnSpace _ hcap hi
  refine Descriptor.eq_bytesFrom hlen fun i hi => ?_
  obtain ⟨b, hb⟩ : ∃ b, (data.take (enqCount x.dn data))[i]? = some b :=
    ⟨_, List.getElem?_eq_getElem (hlen.symm ▸ hi)⟩
  obtain ⟨k, hk, hkb⟩ := Segments.exists_writeCall (enq_data_length _ _) hb
  obtain ⟨e, he, rfl⟩ := List.mem_map.mp (hes ▸ hk)
  rw [place i hi] at hkb
  rw [hb, hu.read_stored hm (hu.dn_not_touched hl h (Descriptor.holds_location hl.dnMask _)) ⟨e, he, hkb⟩ fun e he c hc => ?_]
  obtain ⟨j, hj, e'⟩ := Segments.byte_of_stores (hes ▸ List.mem_map_of_mem he) hc
  have hjlt : j < enqCount x.dn data := hlen ▸ (List.getElem?_eq_some_iff.mp hj).1
  rw [place j hjlt] at e'
  obtain rfl := Descriptor.location_inj hl.dnMask (by omega) (by omega) e'
  exact Option.some.inj (hj.symm.trans hb)

section
variable {S : Prop} {x : Descriptors} {cb : Word} {h : Streams} {s t : State} {q : Peer} (hin : s.InSession cb x)
  (hs : SessionSafe S x cb s.mem h) (ht : t.status.session ≠ .idle) (hf : t.inFlight = none)

/-- The target keeps the contract in the calls of the command, if the state accepts it. -/
def State.peerInCommand (s : State) (x : Descriptors) (cb : Word) (i : Instr) (p q : Peer) : Prop :=
  if s.accepts i then PeerInCalls x cb (s.callsOf i) s p q else q = p

theorem State.peerInCommand.of_accepts {i : Instr} {p : Peer} (hp : s.peerInCommand x cb i p q) (ha : s.accepts i = true) :
    PeerInCalls x cb (s.callsOf i) s p q := by
  rwa [State.peerInCommand, if_pos ha] at hp

theorem State.peerInCommand.of_refused {i : Instr} {p : Peer} (hp : s.peerInCommand x cb i p q) (ha : s.accepts i = false) :
    q = p := by
  rwa [State.peerInCommand, ha, if_neg (by simp)] at hp

include hin

/-- In a session a command on a channel is refused, where the state does not accept it, or runs on the channel's registers. -/
theorem State.InSession.whenChannel_cases {i : Instr} (hi : s.accepts i = (s.status.session == .active)) {c : Channel}
    {k : Descriptors → Descriptor → Host.Outcome State Fault Refusal} (he : s.whenChannel c k = .next t) :
    (s.accepts i = false ∧ t = s.respond .badState s.status.word []) ∨
      (s.accepts i = true ∧ k x (x.chan c) = .next t) := by
  rcases State.whenChannel_next he with ⟨hr, rfl⟩ | ⟨ha, y, hy, hk⟩
  · have hact := hr.resolve_right (by simp [hin.descriptors])
    exact .inl ⟨by simpa [hi] using hact, rfl⟩
  · obtain rfl := Option.some.inj (hy.symm.trans hin.descriptors)
    exact .inr ⟨by simp [hi, ha], hk⟩

/-- The same for RFSH and PUB. -/
theorem State.InSession.whenSync_cases {i : Instr} (hi : s.accepts i = (s.status.session == .active))
    {k : Word → Descriptors → Host.Outcome State Fault Refusal} (he : s.whenSync k = .next t) :
    (s.accepts i = false ∧ t = s.respond .badState s.status.word []) ∨ (s.accepts i = true ∧ k cb x = .next t) := by
  rcases State.whenSync_next he with ⟨hr, rfl⟩ | ⟨ha, y, cb', hy, hcb, hk⟩
  · have hact := hr.resolve_right (by simp [hin.descriptors, hin.address])
    exact .inl ⟨by simpa [hi] using hact, rfl⟩
  · obtain rfl := Option.some.inj (hy.symm.trans hin.descriptors)
    obtain rfl := Option.some.inj (hcb.symm.trans hin.address)
    exact .inr ⟨by simp [hi, ha], hk⟩

include hs ht hf

/-- PEEK reads, and moves no register. -/
theorem peek_answeredSafely {c : Channel} {n : Word} (hp : s.peerInCommand x cb (.peek c n) h.peer q)
    (he : exec (.peek c n) s = .next t) : AnsweredSafely S cb h (.peek c n) s t q := by
  rw [exec, execPeek] at he
  rcases hin.whenChannel_cases (i := .peek c n) rfl he with ⟨hr, rfl⟩ | ⟨ha, hk⟩
  · exact .of_refused hin hs (hp.of_refused hr)
  · have hcalls := hp.of_accepts ha
    rw [State.callsOf_peek hin.descriptors] at hcalls
    rcases (copyOut_runs _ s).finish_keeps (targetKeeps_safeInCall S x cb h) (Segments.readCalls_keep _ _) hcalls hs hk ht hf
      with ⟨bytes, u, es, -, hk, -, hu, hI⟩ | ⟨u, prim, addr, rfl, hb, hI⟩
    · cases hk
      exact .of_returned hin hu.sameBlock ⟨rfl, rfl⟩ hI
    · exact .of_failed hin prim addr hb hI

/-- DEQ on channel 0 delivers the oldest bytes of the up-buffer. -/
theorem deq_answeredSafely {n : Word} (hp : s.peerInCommand x cb (.deq .up n) h.peer q)
    (he : exec (.deq .up n) s = .next t) : AnsweredSafely S cb h (.deq .up n) s t q := by
  rw [exec, execDeq] at he
  rcases hin.whenChannel_cases (i := .deq .up n) rfl he with ⟨hr, rfl⟩ | ⟨ha, hk⟩
  · exact .of_refused hin hs (hp.of_refused hr)
  · have hcalls := hp.of_accepts ha
    rw [State.callsOf_deq hin.descriptors] at hcalls
    have hl := hs.snapshot.layout
    have keeps := targetKeeps_safeUnread S x cb h (x.up.bytesFrom x.up.readOffset x.up.occ.toNat s.mem)
    rcases (copyOut_runs _ s).finish_keeps keeps (Segments.readCalls_keep _ _) hcalls ⟨hs, rfl⟩ hk ht hf
      with ⟨bytes, u, es, hret, hk, -, hu, hI, hunread⟩ | ⟨u, prim, addr, rfl, hb, hI, -⟩
    · have hcount := peekCount_le_occ x.up n
      have htotal := Descriptor.segments_total x.up x.up.readOffset (peekCount x.up n)
      obtain ⟨hlen, hread⟩ := copyOut_reads keeps hret hcalls ⟨hs, rfl⟩
      have hbytes : bytes = x.up.bytesFrom x.up.readOffset (peekCount x.up n) u.mem := by
        refine Descriptor.eq_bytesFrom (hlen.trans htotal) fun j hj => ?_
        obtain ⟨r, m, ⟨-, hm⟩, e⟩ := hread j (htotal.symm ▸ hj)
        have hplace : (peekSegments (x.chan .up) n).byteAddr j
            = x.up.location (x.up.readOffset + BitVec.ofNat 32 j) :=
          Descriptor.segments_byteAddr hl.upMask hl.upSpace _ (peekCount_le_cap hs.snapshot.up_occ_le n) hj
        rw [e, hplace, ← x.up.bytesFrom_getElem? _ (lt_of_lt_of_le hj hcount), hm, ← hunread,
          x.up.bytesFrom_getElem? _ (lt_of_lt_of_le hj hcount)]
      have hend := SessionSafe.advanceRead hI hcount
      rw [← hbytes] at hend
      cases hk
      exact .of_moved hin hu.sameBlock (by simpa [deliveredBy, acceptedBy, Descriptors.chan] using hend)
    · exact .of_failed hin prim addr hb hI

/-- RFSH of a register for which the value of the remote word at any instant is as safe as the old one. -/
theorem rfsh_answeredSafely {c : Channel} {f : OffsetField} (hat : s.cfg.portU32Atomic = true)
    (hsafe : ∀ m h', SessionSafe S x cb m h' → SessionSafe S (x.setOffset c f (remoteOffset m cb c f)) cb m h')
    (hp : s.peerInCommand x cb (.rfsh c f) h.peer q) (he : exec (.rfsh c f) s = .next t) :
    AnsweredSafely S cb h (.rfsh c f) s t q := by
  rw [exec, execRfsh] at he
  rcases hin.whenSync_cases (i := .rfsh c f) rfl he with ⟨hr, rfl⟩ | ⟨ha, hk⟩
  · exact .of_refused hin hs (hp.of_refused hr)
  · have hcalls := hp.of_accepts ha
    rw [State.callsOf_rfsh hin.descriptors hin.address] at hcalls
    have keeps := targetKeeps_safeInCall S x cb h
    have hread : (PortCall.readU32 (fieldAddr cb c f.desc)).stored = [] := rfl
    have one (d : PortCall) (hd : d ∈ [PortCall.readU32 (fieldAddr cb c f.desc)]) :
        CallKeeps s.cfg (SafeInCall S x cb h) d := List.mem_singleton.mp hd ▸ .of_read hread
    rcases (portCall_runs _ _ _ s).finish_keeps keeps one hcalls hs hk ht hf
      with ⟨v, u, es, hret, hk, -, -, -⟩ | ⟨u, prim, addr, rfl, hb, hI⟩
    · obtain ⟨-, hv, rfl, rfl⟩ := portCall_eq_returned hret
      obtain ⟨r, hr, hq⟩ := PeerInCalls.after_returned hcalls hv .done
      obtain rfl : q = r := hq
      rw [s.timedWrites_of_read hread] at hr
      obtain ⟨r, hI, hrest⟩ := hr.keeps_at keeps hs (s.plan.instantOf true 0)
      have hend := hrest.keeps (I := SafeInCall S _ cb h) (ws := [])
        (fun m p g r hm hg => SessionSafe.targetStep hm (hg.setOffset c f _)) (fun g p m hm => hm) (hsafe _ _ hI)
      have hmem : s.memAfter (.readU32 (fieldAddr cb c f.desc)) true = applySteps s.plan.during s.mem := by
        rw [memAfter_of_read s hread, s.stepsIn_one]
      rw [weave_nil, ← applySteps_append, List.take_append_drop, ← hmem] at hend
      have hseen : remoteOffset (applySteps (s.plan.during.take (s.plan.instantOf true 0)) s.mem) cb c f
          = s.wordSeen (fieldAddr cb c f.desc) := (State.wordSeen_of_atomic hat _).symm
      rw [hseen] at hend
      cases hk
      refine .of_moved hin (afterCall_sameBlock ..) ?_
      simpa [deliveredBy, acceptedBy, SafeInCall] using hend
    · exact .of_failed hin prim addr hb hI

/-- PUB of a register that is safe to publish at any instant. -/
theorem pub_answeredSafely {c : Channel} {f : OffsetField} (hat : s.cfg.portU32Atomic = true)
    (hsafe : ∀ m h', SessionSafe S x cb m h' →
      SessionSafe S x cb (m.setWord (fieldAddr cb c f.desc).toNat ((x.chan c).get f.desc)) h')
    (hp : s.peerInCommand x cb (.pub c f) h.peer q) (he : exec (.pub c f) s = .next t) :
    AnsweredSafely S cb h (.pub c f) s t q := by
  rw [exec, execPub] at he
  rcases hin.whenSync_cases (i := .pub c f) rfl he with ⟨hr, rfl⟩ | ⟨ha, hk⟩
  · exact .of_refused hin hs (hp.of_refused hr)
  · have hcalls := hp.of_accepts ha
    rw [State.callsOf_pub hin.descriptors hin.address] at hcalls
    have one (d : PortCall) (hd : d ∈ [PortCall.writeU32 (fieldAddr cb c f.desc) ((x.chan c).get f.desc)]) :
        CallKeeps s.cfg (SafeInCall S x cb h) d := by
      obtain rfl := List.mem_singleton.mp hd
      intro v whole g p m hcfg hm
      rcases State.writeTimed_word (s := v) (hcfg ▸ hat) (fieldAddr cb c f.desc) ((x.chan c).get f.desc) whole g m with e | e
      · rwa [e]
      · rw [e]
        exact hsafe m _ hm
    rcases (portCall_runs _ _ _ s).finish_keeps (targetKeeps_safeInCall S x cb h) one hcalls hs hk ht hf
      with ⟨v, u, es, -, hk, -, hu, hI⟩ | ⟨u, prim, addr, rfl, hb, hI⟩
    · cases hk
      exact .of_returned hin hu.sameBlock ⟨rfl, rfl⟩ hI
    · exact .of_failed hin prim addr hb hI

/-- ENQ on channel 1 stores the bytes it accepts behind those in the down-buffer. -/
theorem enq_answeredSafely {data : List Byte} (hp : s.peerInCommand x cb (.enq .dn data) h.peer q)
    (he : exec (.enq .dn data) s = .next t) : AnsweredSafely S cb h (.enq .dn data) s t q := by
  rw [exec, execEnq] at he
  rcases hin.whenChannel_cases (i := .enq .dn data) rfl he with ⟨hr, rfl⟩ | ⟨ha, hk⟩
  · exact .of_refused hin hs (hp.of_refused hr)
  · have hcalls := hp.of_accepts ha
    rw [State.callsOf_enq hin.descriptors] at hcalls
    have hfree := enqCount_le_free x.dn data
    have hcap := enqCount_le_cap hs.snapshot.dn_occ_le data
    rcases (copyIn_runs _ _ (enq_data_length _ _) s).finish_keeps (targetKeeps_safeInCall S x cb h) (enq_calls_keep _) hcalls
      hs hk ht hf with ⟨-, u, es, -, hk, hes, hu, hI⟩ | ⟨u, prim, addr, rfl, hb, hI⟩
    · have hstored := hu.enq_stored hes (hes ▸ hcalls) hs.wf hs.snapshot.layout hcap
      have hend := SessionSafe.advanceWrite hI hfree
      rw [← hstored] at hend
      have hresult : (BitVec.ofNat 32 (enqCount x.dn data)).toNat = enqCount x.dn data := by
        rw [BitVec.toNat_ofNat, Nat.mod_eq_of_lt (by omega)]
      cases hk
      exact .of_moved hin hu.sameBlock (by simpa [deliveredBy, acceptedBy, Descriptors.chan, hresult] using hend)
    · exact .of_failed hin prim addr hb hI

/-! ### Every command, and every step -/

/-- The commands of R204, one by one. -/
theorem exec_answeredSafely {i : Instr} (hat : s.cfg.portU32Atomic = true) (hroles : keepsRoles i = true)
    (hp : s.peerInCommand x cb i h.peer q) (he : exec i s = .next t) : AnsweredSafely S cb h i s t q := by
  have registerRead (hi : (∃ c, i = .empty c ∨ i = .occ c ∨ i = .free c ∨ i = .full c) ∨ ∃ r, i = .rdr r)
      (hcalls : s.callsOf i = []) (hb : ∀ r, deliveredBy i r = [] ∧ acceptedBy i r = []) :
      AnsweredSafely S cb h i s t q := by
    obtain ⟨r, rfl, -⟩ := queriesReadRegistersOnly i s t s.mem s.port s.trace s.responses hi he
    refine .of_respond hin hs (hb r) ?_
    rw [State.peerInCommand, hcalls] at hp
    split at hp <;> exact hp
  cases i with
  | openSession a =>
    rw [execOpen_refused a hin.session] at he
    cases he
    exact .of_refused hin hs (hp.of_refused (by simpa [State.accepts] using hin.session))
  | closeSession =>
    cases he
    exact absurd rfl ht
  | rdr r => exact registerRead (.inr ⟨r, rfl⟩) rfl fun _ => ⟨rfl, rfl⟩
  | empty c => exact registerRead (.inl ⟨c, .inl rfl⟩) rfl fun _ => ⟨rfl, rfl⟩
  | occ c => exact registerRead (.inl ⟨c, .inr (.inl rfl)⟩) rfl fun _ => ⟨rfl, rfl⟩
  | free c => exact registerRead (.inl ⟨c, .inr (.inr (.inl rfl))⟩) rfl fun _ => ⟨rfl, rfl⟩
  | full c => exact registerRead (.inl ⟨c, .inr (.inr (.inr rfl))⟩) rfl fun _ => ⟨rfl, rfl⟩
  | enq c data =>
    cases c with
    | up => simp [keepsRoles] at hroles
    | dn => exact enq_answeredSafely hin hs ht hf hp he
  | peek c n => exact peek_answeredSafely hin hs ht hf hp he
  | deq c n =>
    cases c with
    | up => exact deq_answeredSafely hin hs ht hf hp he
    | dn => simp [keepsRoles] at hroles
  | rfsh c f =>
    cases c <;> cases f <;> simp [keepsRoles] at hroles
    · exact rfsh_answeredSafely hin hs ht hf hat (fun m h' hm => hm.refreshWrite) hp he
    · exact rfsh_answeredSafely hin hs ht hf hat (fun m h' hm => hm.refreshRead) hp he
  | pub c f =>
    cases c <;> cases f <;> simp [keepsRoles] at hroles
    · exact pub_answeredSafely hin hs ht hf hat (fun m h' hm => hm.hostPublishRead) hp he
    · exact pub_answeredSafely hin hs ht hf hat (fun m h' hm => hm.hostPublishWrite) hp he

/-- R81, R152 (c): a step keeps a session safe. -/
theorem step_sessionSafe (hfl : s.inFlight = none) (hat : s.cfg.portU32Atomic = true) (hhost : s.hostInStep)
    (hpeer : s.peerInStep x cb h.peer q) (hstep : step s = .next t) :
    ∃ y, t.InSession cb y ∧ SessionSafe S y cb t.mem (h.next s t q) := by
  rcases step_cases hstep with ⟨i, hi, -⟩ | ⟨-, ⟨hnil, rfl⟩ | ⟨e, rest, hinp, rfl⟩ | ⟨c, rest, hinp, hc⟩⟩
  · simp [hfl] at hi
  · simp only [State.peerInStep, hnil] at hpeer
    subst hpeer
    simp only [Streams.next, hnil]
    exact ⟨x, hin, hs⟩
  · cases e with
    | reset => exact absurd rfl ht
    | target g =>
      simp only [State.peerInStep, hinp] at hpeer
      simp only [Streams.next, hinp]
      exact ⟨x, ⟨hin.session, hin.descriptors, hin.address⟩, hs.targetStep hpeer⟩
  · have hin' : State.InSession { s with inputs := rest } cb x := ⟨hin.session, hin.descriptors, hin.address⟩
    rcases hc with ⟨r, hd, rfl⟩ | ⟨i, hd, -, he⟩
    · simp only [State.peerInStep, hinp, hd] at hpeer
      subst hpeer
      simp only [Streams.next, hinp, hd]
      exact ⟨x, hin'.respond .., hs⟩
    · simp only [State.peerInStep, hinp, hd] at hpeer
      have hroles : keepsRoles i = true := hhost c i (by simp [hinp]) hd
      have hp : State.peerInCommand { s with inputs := rest } x cb i h.peer q := by
        simp only [State.peerInCommand]
        split at hpeer
        next ha => exact (if_pos ha).mpr (hpeer.congr rfl rfl rfl)
        next ha => exact (if_neg ha).mpr hpeer
      obtain ⟨y, r, hr, hy, hsafe⟩ := exec_answeredSafely hin' hs ht hf hat hroles hp he
      have hans : s.answerIn t = some r := State.answerIn_eq hr
      simp only [Streams.next, hinp, hd, hans]
      exact ⟨y, hy, hsafe⟩

end

/-- Settles O57: the snapshot alone, with streams nothing is asked of. -/
theorem snapshotStaysSafe : Obligations.SnapshotStaysSafe := by
  intro s t cb x p q hin hfl hwf hat hsafe hhost hpeer hstep ht hf
  have hs : SessionSafe False x cb s.mem { peer := p, delivered := [], accepted := [] } := ⟨hwf, hsafe, False.elim⟩
  obtain ⟨y, hy, hsafe⟩ := step_sessionSafe hin hs ht hf hfl hat hhost hpeer hstep
  exact ⟨y, hy, hsafe.snapshot⟩

/-- Settles O58: the snapshot with the streams. -/
theorem streamsStayWhole : Obligations.StreamsStayWhole := by
  intro s t cb x h q hin hfl hwf hat hsafe hstr hhost hpeer hstep ht hf
  have hs : SessionSafe True x cb s.mem h := ⟨hwf, hsafe, fun _ => hstr⟩
  obtain ⟨y, hy, hsafe⟩ := step_sessionSafe hin hs ht hf hfl hat hhost hpeer hstep
  exact ⟨y, hy, hsafe.streams trivial⟩

end Sys2Proof.Machine
end

section
/-!
The encoding (`30_encoding.md` R93 to R103): a command decodes to an instruction exactly if it carries the instruction's word and,
in the parts its format uses, its operands (`decode_eq_ok_iff`).
-/

namespace Sys2Proof

open Machine

/-! ### The fields of a word (R93) -/

theorem fields_append (w : Word) : rsvField w ++ selField w ++ opField w = w := by
  unfold rsvField selField opField
  have hhigh : w.extractLsb' 12 20 ++ w.extractLsb' 8 4 = w.extractLsb' 8 24 :=
    BitVec.extractLsb'_append_extractLsb'_eq_extractLsb' rfl
  have hall : w.extractLsb' 8 24 ++ w.extractLsb' 0 8 = w.extractLsb' 0 32 :=
    BitVec.extractLsb'_append_extractLsb'_eq_extractLsb' rfl
  rw [hhigh, hall, BitVec.extractLsb'_eq_self]

@[simp] theorem selField_cmdWord (i : Instr) : selField i.cmdWord = i.selector := by
  unfold selField Instr.cmdWord
  rw [BitVec.extractLsb'_append_eq_of_le (by decide)]
  exact BitVec.extractLsb'_append_eq_right

/-- The encoder's word passes the three checks of R98. -/
theorem cmdWord_legal (i : Instr) : Laws.EncodedLegal.Statement i := by
  cases i with
  | openSession a => exact Laws.EncodedLegal.openSession a
  | closeSession => exact Laws.EncodedLegal.closeSession
  | rdr r => exact Laws.EncodedLegal.rdr r
  | empty c => exact Laws.EncodedLegal.empty c
  | occ c => exact Laws.EncodedLegal.occ c
  | free c => exact Laws.EncodedLegal.free c
  | full c => exact Laws.EncodedLegal.full c
  | enq c data => exact Laws.EncodedLegal.enq c data
  | peek c n => exact Laws.EncodedLegal.peek c n
  | deq c n => exact Laws.EncodedLegal.deq c n
  | rfsh c f => exact Laws.EncodedLegal.rfsh c f
  | pub c f => exact Laws.EncodedLegal.pub c f

theorem code_of_opcodeOf : ∀ {b : BitVec 8} {op : Opcode}, opcodeOf b = some op → op.code = b := by decide

/-! ### Operands and the selector (R94, R95) -/

@[simp] theorem channelOf_bit (c : Channel) : channelOf (0#3 ++ c.bit) = c := by cases c <;> rfl

@[simp] theorem channelOf_bits (c : Channel) (f : OffsetField) : channelOf (0#2 ++ f.bit ++ c.bit) = c := by
  cases c <;> cases f <;> rfl

@[simp] theorem fieldOf_bits (c : Channel) (f : OffsetField) : fieldOf (0#2 ++ f.bit ++ c.bit) = f := by
  cases c <;> cases f <;> rfl

@[simp] theorem regOf_index (r : Reg) : regOf (BitVec.ofNat 4 r.index) = some r := by
  cases r with
  | desc c k => cases c <;> cases k <;> rfl
  | _ => rfl

theorem index_of_regOf : ∀ {sel : BitVec 4} {r : Reg}, regOf sel = some r → BitVec.ofNat 4 r.index = sel := by decide

theorem bit_channelOf : ∀ {sel : BitVec 4}, sel.extractLsb' 1 3 = 0 → 0#3 ++ (channelOf sel).bit = sel := by decide

theorem bits_channelOf_fieldOf :
    ∀ {sel : BitVec 4}, sel.extractLsb' 2 2 = 0 → 0#2 ++ (fieldOf sel).bit ++ (channelOf sel).bit = sel := by decide

/-! ### Decoding, once for every command -/

/-- ARG `a` and PAYLOAD `p` hold the operands that stand there (R94, R95). -/
def Instr.carriedBy (i : Instr) (a : Word) (p : List Byte) : Prop :=
  match i with
  | .openSession b => b = a
  | .peek _ n => n = a
  | .deq _ n => n = a
  | .enq _ data => data = p
  | _ => True

theorem Instr.carriedBy_iff (i : Instr) (a : Word) (p : List Byte) : i.carriedBy a p ↔
    (usesArg i = true → i.argWord = a) ∧ (usesPayload i = true → i.payloadBytes = p) := by
  cases i <;> simp [Instr.carriedBy, usesArg, usesPayload, Instr.argWord, Instr.payloadBytes]

theorem assemble_of_carriedBy {i : Instr} {a : Word} {p : List Byte} (h : i.carriedBy a p) :
    assemble i.opcode i.selector a p = some i := by
  cases i with
  | openSession b | enq c data | peek c n | deq c n =>
    cases h
    simp [assemble, Instr.opcode, Instr.selector]
  | _ => simp [assemble, Instr.opcode, Instr.selector]

/-- What is assembled with a legal selector has that opcode and that selector, and the operands given. -/
theorem of_assemble {op : Opcode} {sel : BitVec 4} {a : Word} {p : List Byte} {i : Instr}
    (hl : op.format.selectorLegal sel = true) (h : assemble op sel a p = some i) :
    i.opcode = op ∧ i.selector = sel ∧ i.carriedBy a p := by
  cases op with
  | opRdr =>
    obtain ⟨r, hr, rfl⟩ := Option.map_eq_some_iff.mp h
    exact ⟨rfl, index_of_regOf hr, trivial⟩
  | opOpen =>
    cases h
    exact ⟨rfl, (eq_of_beq hl).symm, rfl⟩
  | opClose =>
    cases h
    exact ⟨rfl, (eq_of_beq hl).symm, trivial⟩
  | opRfsh | opPub =>
    cases h
    exact ⟨rfl, bits_channelOf_fieldOf (eq_of_beq hl), trivial⟩
  | opEmpty | opOcc | opFree | opFull =>
    cases h
    exact ⟨rfl, bit_channelOf (eq_of_beq hl), trivial⟩
  | opEnq | opPeek | opDeq =>
    cases h
    exact ⟨rfl, bit_channelOf (eq_of_beq hl), rfl⟩

/-- The four steps of R98, all of them passed. -/
theorem decode_eq_ok_iff_checks (c : Command) (i : Instr) : decode c = .ok i ↔
    rsvField c.cmd = 0 ∧ ∃ op, opcodeOf (opField c.cmd) = some op ∧ op.format.selectorLegal (selField c.cmd) = true ∧
      assemble op (selField c.cmd) c.arg c.payload = some i := by
  unfold decode
  by_cases hr : rsvField c.cmd = 0#20
  · cases opcodeOf (opField c.cmd) with
    | none => simp [hr]
    | some op =>
      by_cases hl : op.format.selectorLegal (selField c.cmd) = true
      · cases ha : assemble op (selField c.cmd) c.arg c.payload <;> simp [hr, hl, ha]
      · simp [hr, hl]
  · simp [hr]

/-- R94, R95, R97, R98: a command decodes to `i` exactly if it carries the word of `i` and the operands of `i`. -/
theorem decode_eq_ok_iff (c : Command) (i : Instr) :
    decode c = .ok i ↔ c.cmd = i.cmdWord ∧ i.carriedBy c.arg c.payload := by
  rw [decode_eq_ok_iff_checks]
  constructor
  · rintro ⟨hr, op, hop, hl, ha⟩
    obtain ⟨rfl, hsel, hc⟩ := of_assemble hl ha
    refine ⟨?_, hc⟩
    rw [← fields_append c.cmd, hr, ← hsel, ← code_of_opcodeOf hop]
    rfl
  · rintro ⟨hw, hc⟩
    obtain ⟨hr, hop, hl⟩ := cmdWord_legal i
    rw [hw]
    exact ⟨hr, i.opcode, hop, hl, by rw [selField_cmdWord, assemble_of_carriedBy hc]⟩

/-- Settles O1: both directions are those of `decode_eq_ok_iff`. -/
theorem decodeEncodeAgree : Obligations.DecodeEncodeAgree := by
  refine ⟨fun i => ?_, fun c i h => ?_⟩
  · exact (decode_eq_ok_iff ..).mpr ⟨rfl, (i.carriedBy_iff ..).mpr ⟨fun _ => rfl, fun _ => rfl⟩⟩
  · obtain ⟨hw, hc⟩ := (decode_eq_ok_iff c i).mp h
    exact ⟨hw.symm, (i.carriedBy_iff ..).mp hc⟩

/-- Settles O3: nothing is asked of a part that the format does not use. -/
theorem unusedPartsIgnored : Obligations.UnusedPartsIgnored := by
  intro c i a p h
  obtain ⟨hw, hc⟩ := (decode_eq_ok_iff c i).mp h
  obtain ⟨ha, hp⟩ := (i.carriedBy_iff ..).mp hc
  refine ⟨fun hu => ?_, fun hu => ?_⟩
  · exact (decode_eq_ok_iff ..).mpr ⟨hw, (i.carriedBy_iff ..).mpr ⟨by simp [hu], hp⟩⟩
  · exact (decode_eq_ok_iff ..).mpr ⟨hw, (i.carriedBy_iff ..).mpr ⟨ha, by simp [hu]⟩⟩

/-! ### The 38 legal words (R97, R98) -/

/-- The registers of RDR in the order of their index (R33). -/
def regsInOrder : List Reg :=
  [.desc .up .writeOffset, .desc .up .readOffset, .desc .up .capacityMask, .desc .up .elementSize, .desc .up .bufferBase,
    .desc .dn .writeOffset, .desc .dn .readOffset, .desc .dn .capacityMask, .desc .dn .elementSize, .desc .dn .bufferBase,
    .cbAddr, .status, .fcmd, .faddr]

theorem mem_regsInOrder (r : Reg) : r ∈ regsInOrder := by
  cases r with
  | desc c k => cases c <;> cases k <;> decide
  | _ => decide

/-- The commands on a channel in the order of R97, with ARG `a` and PAYLOAD `p`. -/
def channelCommands (a : Word) (p : List Byte) : List (Channel → Instr) :=
  [.empty, .occ, .free, .full, (.enq · p), (.peek · a), (.deq · a), (.rfsh · .w), (.rfsh · .r), (.pub · .w), (.pub · .r)]

/-- The instructions that ARG `a` and PAYLOAD `p` carry, one a word, in the order of R97. -/
def instrsCarriedBy (a : Word) (p : List Byte) : List Instr :=
  .openSession a :: .closeSession :: regsInOrder.map Instr.rdr ++ (channelCommands a p).flatMap fun f => [f .up, f .dn]

theorem mem_instrsCarriedBy_iff (i : Instr) (a : Word) (p : List Byte) : i ∈ instrsCarriedBy a p ↔ i.carriedBy a p := by
  cases i with
  | openSession b => simp [instrsCarriedBy, channelCommands, Instr.carriedBy]
  | closeSession => simp [instrsCarriedBy, channelCommands, Instr.carriedBy]
  | rdr r => simp [instrsCarriedBy, channelCommands, Instr.carriedBy, mem_regsInOrder]
  | empty c | occ c | free c | full c | enq c _ | peek c _ | deq c _ =>
    cases c <;> simp [instrsCarriedBy, channelCommands, Instr.carriedBy]
  | rfsh c f | pub c f => cases c <;> cases f <;> simp [instrsCarriedBy, channelCommands, Instr.carriedBy]

theorem cmdWords_instrsCarriedBy (a : Word) (p : List Byte) :
    (instrsCarriedBy a p).map (fun i => i.cmdWord.toNat) = legalWords := by
  have h : (instrsCarriedBy a p).map (fun i => i.cmdWord.toNat) = (instrsCarriedBy 0 []).map fun i => i.cmdWord.toNat := rfl
  rw [h]
  decide

/-- Settles O2: whatever ARG and PAYLOAD are, the instructions they carry have the words of the list. -/
theorem legalCommandWords : Obligations.LegalCommandWords := by
  refine ⟨rfl, by decide, fun w a p => ?_⟩
  simp only [decode_eq_ok_iff, ← mem_instrsCarriedBy_iff]
  rw [← cmdWords_instrsCarriedBy a p, List.mem_map]
  constructor
  · rintro ⟨i, rfl, hi⟩
    exact ⟨i, hi, rfl⟩
  · rintro ⟨i, hi, hw⟩
    exact ⟨i, BitVec.eq_of_toNat_eq hw.symm, hi⟩

/-- Settles O4: the words are evaluated. -/
theorem sampleWordsDecode : Obligations.SampleWordsDecode := by
  unfold Obligations.SampleWordsDecode
  decide

end Sys2Proof
end

section
/-!
The command port's responses and the port trace (`20_memory.md` R82, `30_encoding.md` R91, R92): a step runs the command it
decodes, only appends to the logs, and gives at most one response.
-/

namespace Sys2Proof.Machine

/-- Settles O7: with nothing in flight the command is taken, decoded and accepted. -/
theorem stepRunsDecodedCommand : Obligations.StepRunsDecodedCommand := by
  intro s c rest i hf hi hd hw
  simp [step, State.fetch, hf, hi, State.accept, hd, hw]

/-- R82: a command appends its port calls to the trace, whatever way it ends. -/
theorem ExecEnd.trace_grows {i : Instr} {s t : State} (h : ExecEnd i s t) : ∃ l, t.trace = s.trace ++ l := by
  have cutOff {es : List PortEvent} {v : State} (hv : CallsMade (s.begun i) es v) (e : PortEvent)
      (ht : t.trace = v.trace ++ [e]) : ∃ l, t.trace = s.trace ++ l :=
    ⟨es ++ [e], by rw [ht, hv.trace, s.begun_trace, List.append_assoc]⟩
  cases h with
  | refused _ => exact ⟨[], (List.append_nil _).symm⟩
  | answered _ _ _ => exact ⟨[], (List.append_nil _).symm⟩
  | closed _ => exact ⟨[], (List.append_nil _).symm⟩
  | opened a bytes u h ha hu => exact ⟨_, hu.trace.trans (by rw [s.begun_trace])⟩
  | completed x y v p es u ha hx hc he hu => exact ⟨es, hu.trace⟩
  | faulted es k rest v ha hi he hv hc hp => exact cutOff hv _ rfl
  | cut es k rest v ha he hv hc hp => exact cutOff hv _ rfl
  | hung es k rest v ha hi hl he hv hc hp => exact cutOff hv _ rfl

/-- R92, R190, R213: a command gets one response, or none where one of its calls is cut by reset or hangs. -/
theorem ExecEnd.response {i : Instr} {s t : State} (h : ExecEnd i s t) :
    (∃ r, t.responses = s.responses ++ [r]) ∨
      (t.responses = s.responses ∧
        (s.cutShort t i .resetInCall ∧ t.registers = State.reset.registers ∧ t.inFlight = none ∨
          (s.cfg.portLiveness = false ∧ s.cutShort t i .neverReturns ∧ t.inFlight = some i))) := by
  have kept {es : List PortEvent} {v : State} (hv : CallsMade (s.begun i) es v) : v.responses = s.responses :=
    hv.sameBlock.responses.trans (s.begun_responses i)
  have answered {es : List PortEvent} {v : State} (hv : CallsMade (s.begun i) es v) {r : Response}
      (ht : t.responses = v.responses ++ [r]) : ∃ r, t.responses = s.responses ++ [r] :=
    ⟨r, by rw [ht, kept hv]⟩
  cases h with
  | refused _ => exact .inl ⟨_, rfl⟩
  | answered _ _ _ => exact .inl ⟨_, rfl⟩
  | closed _ => exact .inl ⟨_, rfl⟩
  | opened a bytes u h ha hu => exact .inl (answered hu rfl)
  | completed x y v p es u ha hx hc he hu => exact .inl ⟨⟨.ok, v, p⟩, by simp [hu.sameBlock.responses]⟩
  | faulted es k rest v ha hi he hv hc hp => exact .inl (answered hv rfl)
  | cut es k rest v ha he hv hc hp =>
    exact .inr ⟨(kept hv :), .inl ⟨hv.cutShort he hp (by simp) rfl, rfl, rfl⟩⟩
  | hung es k rest v ha hi hl he hv hc hp =>
    exact .inr ⟨(kept hv :), .inr ⟨hl, hv.cutShort he hp (by simp) rfl, rfl⟩⟩

/-- Settles O17: each end of a command says what it answers. -/
theorem oneResponsePerCommand : Obligations.OneResponsePerCommand :=
  fun _ _ _ h => (execEnd_of_next h).response

/-- The parameters stay, the trace grows at its end, and so do the responses, by at most one (R82, R92). -/
def LogsGrow (s t : State) : Prop :=
  t.cfg = s.cfg ∧ (∃ l, t.trace = s.trace ++ l) ∧ ∃ l, t.responses = s.responses ++ l ∧ l.length ≤ 1

theorem LogsGrow.of_eq {s t : State} (hc : t.cfg = s.cfg) (ht : t.trace = s.trace) (hr : t.responses = s.responses) :
    LogsGrow s t :=
  ⟨hc, ⟨[], by simpa using ht⟩, [], by simpa using hr, Nat.zero_le 1⟩

theorem State.environment_logsGrow (s : State) (e : EnvEvent) : LogsGrow s (s.environment e) := by
  cases e <;> exact .of_eq rfl rfl rfl

theorem State.respond_logsGrow (s : State) (code : StatusCode) (v : Word) (p : List Byte) :
    LogsGrow s (s.respond code v p) :=
  ⟨rfl, ⟨[], (List.append_nil _).symm⟩, [_], rfl, le_rfl⟩

theorem ExecEnd.logsGrow {i : Instr} {s t : State} (h : ExecEnd i s t) : LogsGrow s t := by
  refine ⟨h.cfg_inputs.1, h.trace_grows, ?_⟩
  rcases h.response with ⟨r, hr⟩ | ⟨hr, -⟩
  · exact ⟨[r], hr, le_rfl⟩
  · exact ⟨[], by simpa using hr, Nat.zero_le 1⟩

/-- Settles O11: waiting, the environment and a refused word by their own lemmas, a command by `ExecEnd.logsGrow`. -/
theorem logsOnlyGrow : Obligations.LogsOnlyGrow := by
  intro s t h
  rcases step_cases h with ⟨i, -, rfl⟩ | ⟨-, ⟨-, rfl⟩ | ⟨e, rest, -, rfl⟩ | ⟨c, rest, -, hc⟩⟩
  · rcases waitInCall_cases s with hw | ⟨e, left, -, hw⟩
    · exact LogsGrow.of_eq (by rw [hw]) (by rw [hw]) (by rw [hw])
    · rw [hw]
      exact State.environment_logsGrow { s with inputs := left } e
  · exact LogsGrow.of_eq rfl rfl rfl
  · exact State.environment_logsGrow { s with inputs := rest } e
  · rcases hc with ⟨r, -, rfl⟩ | ⟨i, -, -, he⟩
    · exact State.respond_logsGrow { s with inputs := rest } ..
    · exact (execEnd_of_next he).logsGrow

end Sys2Proof.Machine
end

section
/-!
The host's programs DRAIN, SEND and DRAINPUB (`30_encoding.md` R104, `70_reset_and_hazards.md` R198, R199): a command whose port
calls return answers OK and leaves the plans of the calls after it, so the commands of a program can be chained.
-/

namespace Sys2Proof.Machine

/-! ### Calls whose plans say that they return -/

theorem State.portReturns_of_drop {s t : State} {m n : Nat} (h : s.portReturns (m + n)) (ht : t.port = s.port.drop m) :
    t.portReturns n := by
  intro p hp
  rw [ht, List.take_drop] at hp
  exact h p (List.mem_of_mem_drop hp)

theorem State.portReturns_mono {s : State} {m n : Nat} (h : s.portReturns n) (hm : m ≤ n) : s.portReturns m :=
  fun p hp => h p (List.take_subset_take_left _ hm hp)

/-- The plan of the call that follows, among calls that return. -/
theorem CallsMade.plan_returns {s v : State} {es : List PortEvent} {n : Nat} (hv : CallsMade s es v)
    (h : s.portReturns n) (hn : es.length < n) : v.plan.outcome = .returns :=
  portReturns_plan v 0 (State.portReturns_of_drop (State.portReturns_mono h hn) hv.port)

/-- Calls below the top of the address space whose plans say so all return. -/
theorem Call.Runs.returned {α : Type} {s : State} {calls : List PortCall} {c : Call α} (hc : c.Runs s calls)
    (hfit : ∀ k ∈ calls, k.addr.toNat + k.length ≤ 2 ^ 32) (hret : s.portReturns calls.length) :
    ∃ a u es, c = .returned a u ∧ es.map PortEvent.call = calls ∧ CallsMade s es u := by
  have planReturns {es : List PortEvent} {k : PortCall} {rest : List PortCall} {v : State}
      (he : es.map PortEvent.call ++ k :: rest = calls) (hv : CallsMade s es v) : v.plan.outcome = .returns :=
    hv.plan_returns hret (by simp [← he])
  cases c with
  | returned a u =>
    obtain ⟨es, he, hu⟩ := hc
    exact ⟨a, u, es, rfl, he, hu⟩
  | failed p a u =>
    obtain ⟨es, k, rest, v, he, -, -, hv, -, hp, -⟩ := hc
    simp [PortPlan.verdict, planReturns he hv] at hp
  | cutByReset u =>
    obtain ⟨es, k, rest, v, he, hv, -, hp, -⟩ := hc
    simp [planReturns he hv] at hp
  | hung u =>
    obtain ⟨-, es, k, rest, v, he, hv, -, hp, -⟩ := hc
    simp [planReturns he hv] at hp
  | stuck r =>
    obtain ⟨-, k, hk, hcross⟩ := hc
    rw [k.crossesTop_eq_false_iff.mpr (hfit k hk)] at hcross
    cases hcross

/-! ### Commands of an open session that answer OK -/

/-- A command made these calls, all of which returned, answered OK with RESULT `v` and left the descriptor registers at `y` in the
session it was issued in. -/
structure AnsweredOk (s t : State) (cb : Word) (y : Descriptors) (calls : List PortCall) (v : Word) : Prop where
  session : t.Open cb y
  cfg : t.cfg = s.cfg
  inFlight : t.inFlight = s.inFlight
  port : t.port = s.port.drop calls.length
  callsMade : t.callsMade = s.callsMade ++ calls
  responses : ∃ p, t.responses = s.responses ++ [{ code := .ok, result := v, payload := p }]

section
variable {s : State} {cb : Word} {x : Descriptors} (ho : s.Open cb x)
include ho

theorem AnsweredOk.of_callsMade {u w : State} {es : List PortEvent} {calls : List PortCall} {y : Descriptors}
    (he : es.map PortEvent.call = calls) (hu : CallsMade s es u) (hw : w = { u with x := some y }) (v : Word)
    (p : List Byte) : AnsweredOk s (w.respond .ok v p) cb y calls v := by
  have hb := hu.sameBlock
  subst he hw
  refine ⟨⟨hb.status ▸ ho.session, rfl, hb.cbAddr.trans ho.address⟩, hb.cfg, hb.inFlight, ?_, ?_, p, ?_⟩
  · simp [hu.port]
  · exact State.callsMade_of_trace hu.trace
  · simp [hb.responses]

theorem CallsMade.setOffset_eq {u : State} {es : List PortEvent} (hu : CallsMade s es u) (c : Channel) (f : OffsetField)
    (v : Word) : u.setOffset c f v = { u with x := some (x.setOffset c f v) } := by
  simp [State.setOffset, hu.sameBlock.x, ho.descriptors]

/-- R151: PUB, when its call returns. -/
theorem exec_pub_answersOk {c : Channel} {f : OffsetField} (hret : s.portReturns 1)
    (hfit : (fieldAddr cb c f.desc).toNat + 4 ≤ 2 ^ 32) :
    ∃ t, exec (.pub c f) s = .next t ∧
      AnsweredOk s t cb x [.writeU32 (fieldAddr cb c f.desc) ((x.chan c).get f.desc)] ((x.chan c).get f.desc) := by
  have hcall : (PortCall.writeU32 (fieldAddr cb c f.desc) ((x.chan c).get f.desc)).crossesTop = false :=
    (PortCall.crossesTop_eq_false_iff _).mpr hfit
  have hmade := CallsMade.one s _ .done hcall (by rw [PortPlan.verdict, portReturns_plan s 0 hret])
  exact ⟨_, exec_pub_returns ho hret hfit, .of_callsMade ho rfl hmade (by rw [← ho.descriptors]; rfl) _ []⟩

variable {c : Channel} (hw : (x.chan c).wellFormed = true) (hs : (x.chan c).inSpace)
include hw

theorem exec_empty_answers : exec (.empty c) s = s.respondOk (boolWord (x.chan c).isEmpty) [] :=
  State.whenChannel_eq ho.session ho.descriptors (.inr hw) fun _ d => s.respondOk (boolWord d.isEmpty) []

theorem exec_full_answers : exec (.full c) s = s.respondOk (boolWord (x.chan c).isFull) [] :=
  State.whenChannel_eq ho.session ho.descriptors (.inr hw) fun _ d => s.respondOk (boolWord d.isFull) []

include hs

/-- R131: ENQ, when its calls return. -/
theorem exec_enq_answersOk {data : List Byte} (hret : s.portReturns (s.callsOf (.enq c data)).length) :
    ∃ t, exec (.enq c data) s = .next t ∧
      AnsweredOk s t cb (x.setOffset c .w ((x.chan c).writeOffset + BitVec.ofNat 32 (enqCount (x.chan c) data)))
        (s.callsOf (.enq c data)) (BitVec.ofNat 32 (enqCount (x.chan c) data)) := by
  obtain ⟨hmask, hocc⟩ := (x.chan c).wellFormed_iff.mp hw
  have hfit : (enqSegments (x.chan c) data).fits := Descriptor.segments_fits hmask hs _ (enqCount_le_cap hocc data)
  rw [State.callsOf_enq ho.descriptors] at hret ⊢
  obtain ⟨a, u, es, hcall, he, hu⟩ :=
    (copyIn_runs _ _ (enq_data_length _ _) s).returned (fun k hk => hfit.writeCalls hk) hret
  refine ⟨_, ?_, .of_callsMade ho he hu (hu.setOffset_eq ho ..) _ []⟩
  rw [enqSegments] at hcall
  rw [exec, execEnq, State.whenChannel_eq ho.session ho.descriptors (.inr hw), hcall, Call.finish, State.respondOk]

/-- R133: DEQ, when its calls return. -/
theorem exec_deq_answersOk {n : Word} (hret : s.portReturns (s.callsOf (.deq c n)).length) :
    ∃ t, exec (.deq c n) s = .next t ∧
      AnsweredOk s t cb (x.setOffset c .r ((x.chan c).readOffset + BitVec.ofNat 32 (peekCount (x.chan c) n)))
        (s.callsOf (.deq c n)) (BitVec.ofNat 32 (peekCount (x.chan c) n)) := by
  obtain ⟨hmask, hocc⟩ := (x.chan c).wellFormed_iff.mp hw
  have hfit : (peekSegments (x.chan c) n).fits := Descriptor.segments_fits hmask hs _ (peekCount_le_cap hocc n)
  rw [State.callsOf_deq ho.descriptors] at hret ⊢
  obtain ⟨bytes, u, es, hcall, he, hu⟩ := (copyOut_runs _ s).returned (fun k hk => hfit.readCalls hk) hret
  refine ⟨_, ?_, .of_callsMade ho he hu (hu.setOffset_eq ho ..) _ bytes⟩
  rw [peekSegments] at hcall
  rw [exec, execDeq, State.whenChannel_eq ho.session ho.descriptors (.inr hw), hcall, Call.finish, State.respondOk]

end

/-- R10: a `max_len` of 2^32 - 1 takes all that is there, and the read offset reaches the write offset. -/
theorem Descriptor.readOffset_add_peekCount_max (d : Descriptor) :
    d.readOffset + BitVec.ofNat 32 (peekCount d 0xFFFFFFFF) = d.writeOffset := by
  have hcount : peekCount d 0xFFFFFFFF = (d.writeOffset - d.readOffset).toNat :=
    Nat.min_eq_right (Nat.le_of_lt_succ d.occ.isLt)
  rw [hcount, add_ofNat_distance]

/-! ### Chaining the commands of a program -/

theorem AnsweredOk.issue {i : Instr} {s t : State} {cb v : Word} {y : Descriptors} {calls : List PortCall}
    (h : AnsweredOk s t cb y calls v) (hf : s.inFlight = none) (hw : i.wellFormed s.cfg = true)
    (he : exec i s = .next t) : issue i s = .goesOn t := by
  obtain ⟨p, hp⟩ := h.responses
  exact issue_goesOn hf hw he hp (by simp)

/-- A program of one command. -/
theorem runMoves_plain {i : Instr} {s t : State} (h : issue i s = .goesOn t) : runMoves [.plain i] s = .next t := by
  simp only [runMoves, HostMove.make, HostMove.plain, h, issueAll, ite_self]

/-- A transfer followed by the publication of an offset: its calls, and then the one `write_u32`. -/
theorem issueAll_transfer_pub {i : Instr} {s t : State} {cb v : Word} {y : Descriptors} {calls : List PortCall}
    (h : AnsweredOk s t cb y calls v) (he : exec i s = .next t) (hf : s.inFlight = none)
    (hw : i.wellFormed s.cfg = true) (hret : s.portReturns (calls.length + 1)) (hcb : cb.toNat + 56 ≤ 2 ^ 32)
    (c : Channel) (f : OffsetField) :
    ∃ u, issueAll [i, .pub c f] s = .goesOn u ∧
      u.callsMade = s.callsMade ++ calls ++ [.writeU32 (fieldAddr cb c f.desc) ((y.chan c).get f.desc)] := by
  obtain ⟨u, hpub, hu⟩ := exec_pub_answersOk h.session (State.portReturns_of_drop hret h.port) (fieldAddr_desc_fits hcb c f)
  have hissue : Machine.issue (.pub c f) t = .goesOn u := hu.issue (h.inFlight.trans hf) rfl hpub
  refine ⟨u, ?_, by rw [hu.callsMade, h.callsMade]⟩
  simp only [issueAll, h.issue hf hw he, hissue]

theorem State.answeredZero_boolWord (s : State) (b : Bool) : (s.respond .ok (boolWord b) []).answeredZero = !b := by
  cases b <;> simp [State.answeredZero, boolWord]

section
variable {q : Instr} {is : List Instr} {s : State} {b : Bool} (hf : s.inFlight = none) (hw : q.wellFormed s.cfg = true)
  (hq : exec q s = s.respondOk (boolWord b) [])
include hf hw hq

theorem issue_query : issue q s = .goesOn (s.respond .ok (boolWord b) []) := issue_goesOn hf hw hq rfl (by simp)

/-- A query that answers 1 ends the move (R104). -/
theorem runMoves_of_query_true (hb : b = true) :
    runMoves [{ ask := q, ifZero := is }] s = .next (s.respond .ok (boolWord b) []) := by
  have hz := s.answeredZero_boolWord b
  rw [hb, Bool.not_true, ← hb] at hz
  simp only [runMoves, HostMove.make, issue_query hf hw hq, hz, Bool.false_eq_true, if_false]

/-- A query that answers 0 is followed by the commands of the move (R104). -/
theorem runMoves_of_query_false (hb : b = false) {u : State}
    (hu : issueAll is (s.respond .ok (boolWord b) []) = .goesOn u) : runMoves [{ ask := q, ifZero := is }] s = .next u := by
  have hz := s.answeredZero_boolWord b
  rw [hb, Bool.not_false, ← hb] at hz
  simp only [runMoves, HostMove.make, issue_query hf hw hq, hz, if_true, hu]

end

/-- Settles O38: DEQ takes all that is there and leaves the channel well-formed, so EMPTY is answered. -/
theorem drainEmptiesSnapshot : Obligations.DrainEmptiesSnapshot := by
  intro s cb x c ho hw hs hf hret
  obtain ⟨t, he, ht⟩ := exec_deq_answersOk ho hw hs hret
  have hwf := Descriptor.wellFormed_deq hw 0xFFFFFFFF
  rw [Descriptor.readOffset_add_peekCount_max] at ht hwf
  have hchan := Descriptors.chan_setOffset_same x c .r (x.chan c).writeOffset
  refine ⟨t, _, runMoves_plain (ht.issue hf rfl he), ht.session.descriptors, by rw [hchan]; rfl, by rw [hchan]; rfl, ?_⟩
  rw [exec_empty_answers ht.session (by rwa [hchan]), hchan]
  simp [Descriptor.isEmpty, Descriptor.setOffset, boolWord]

theorem Segments.prim_of_mem_writeCalls {g : Segments} {data : List Byte} {k : PortCall} (h : k ∈ g.writeCalls data) :
    k.prim = .write := by
  rcases Segments.mem_writeCalls h with rfl | rfl <;> rfl

theorem Segments.prim_of_mem_readCalls {g : Segments} {k : PortCall} (h : k ∈ g.readCalls) : k.prim = .read := by
  rcases Segments.mem_readCalls h with rfl | rfl <;> rfl

/-- Settles O44: FULL decides, and ENQ's calls are followed by PUB's. -/
theorem sendPublishesOnce : Obligations.SendPublishesOnce := by
  intro s cb x data ho hf hcar hw hs hcb
  have hq := exec_full_answers (c := .dn) ho hw
  refine ⟨fun hfull => ⟨_, runMoves_of_query_true hf rfl hq (beq_iff_eq.mpr hfull), rfl⟩, fun hfree hret => ?_⟩
  have ho' : (s.respond .ok (boolWord x.dn.isFull) []).Open cb x := ⟨ho.session, ho.descriptors, ho.address⟩
  obtain ⟨t, he, ht⟩ := exec_enq_answersOk (c := .dn) ho' hw hs (State.portReturns_mono hret (Nat.le_succ _))
  obtain ⟨u, hu, hcalls⟩ := issueAll_transfer_pub ht he hf hcar hret hcb .dn .w
  rw [Descriptors.chan_setOffset_same, Descriptor.get_setOffset_same] at hcalls
  refine ⟨u, runMoves_of_query_false hf rfl hq (beq_eq_false_iff_ne.mpr hfree) hu, _, fun k hk => ?_, hcalls⟩
  rw [State.callsOf_enq ho'.descriptors] at hk
  exact Segments.prim_of_mem_writeCalls hk

/-- Settles O45: EMPTY decides, and DEQ's calls are followed by PUB's. -/
theorem drainPubPublishesOnce : Obligations.DrainPubPublishesOnce := by
  intro s cb x ho hf hw hs hcb
  have hq := exec_empty_answers (c := .up) ho hw
  refine ⟨fun hempty => ⟨_, runMoves_of_query_true hf rfl hq (beq_iff_eq.mpr hempty), rfl⟩, fun hne hret => ?_⟩
  have ho' : (s.respond .ok (boolWord x.up.isEmpty) []).Open cb x := ⟨ho.session, ho.descriptors, ho.address⟩
  obtain ⟨t, he, ht⟩ := exec_deq_answersOk (c := .up) ho' hw hs (State.portReturns_mono hret (Nat.le_succ _))
  obtain ⟨u, hu, hcalls⟩ := issueAll_transfer_pub ht he hf rfl hret hcb .up .r
  rw [Descriptors.chan_setOffset_same, Descriptor.get_setOffset_same, Descriptor.readOffset_add_peekCount_max] at hcalls
  refine ⟨u, runMoves_of_query_false hf rfl hq (beq_eq_false_iff_ne.mpr hne) hu, _, fun k hk => ?_, hcalls⟩
  rw [State.callsOf_deq ho'.descriptors] at hk
  exact Segments.prim_of_mem_readCalls hk

end Sys2Proof.Machine
end

section
/-!
OPEN whose port call fails, and CLOSE (`40_session.md` R110, R111; `60_exceptions.md` R166).
-/

namespace Sys2Proof.Machine

/-- The command word FCMD records of OPEN (R97, R166). -/
theorem cmdWord_openSession (a : Word) : (Instr.openSession a).cmdWord = 0x00000001 := by
  rw [Instr.cmdWord, Instr.selector, Instr.opcode]
  decide

/-- OPEN whose read fails has written CB_ADDR and ends in the entry of a TransportError (R110, R166). -/
theorem exec_open_fails {s : State} {a : Word} (hs : s.status.session = .idle) (hp : s.plan.outcome = .fails)
    (ha : (a + 16).toNat + 40 ≤ 2 ^ 32) :
    exec (.openSession a) s = .next (State.raiseTransportError
      ((s.begun (.openSession a)).afterCall (.read (a + 16) 40) false .failed) 0x00000001 .read (a + 16)) := by
  have hread : portRead (descriptorsAddr a) 40 (s.begun (.openSession a)) = .failed .read (a + 16)
      ((s.begun (.openSession a)).afterCall (.read (a + 16) 40) false .failed) :=
    portCall_failed _ _ _ _ ((PortCall.crossesTop_eq_false_iff _).mpr ha) hp
  rw [State.begun] at hread
  rw [exec, execOpen, if_pos hs, hread, ← cmdWord_openSession a]
  rfl

/-- Settles O23: the fault is entered from the registers with which the read started, where no register but CB_ADDR and STATUS
holds a value. -/
theorem openFaultRecord : Obligations.OpenFaultRecord := by
  intro s a hinv hf hs hp ha
  have hr := hinv.registers_of_open hf (a := a) (by simp [State.accepts, hs])
  obtain ⟨hx, hcb, hst, -, -⟩ := ((s.begun (.openSession a)).registers_eq_iff ..).mp hr
  refine ⟨_, exec_open_fails hs hp ha, hx, hcb, ?_, rfl, rfl, rfl, rfl⟩
  rw [State.raise_status, State.afterCall, hst]
  rfl

/-- Settles O20: CLOSE is `State.discard` and its response, and the STATUS that leaves is the reset value. -/
theorem closeDiscardsEverything : Obligations.CloseDiscardsEverything := fun _ => rfl

end Sys2Proof.Machine
end

section
/-!
The four queries' answers and the laws between them (`41_queries.md` R120 to R124).
-/

namespace Sys2Proof.Machine

theorem boolWord_eq_one_iff (b : Bool) : boolWord b = 1 ↔ b = true := by
  cases b <;> decide

theorem boolWord_beq (v w : Word) : boolWord (v == w) = if v = w then 1 else 0 := by
  simp [boolWord]

/-! ### EMPTY, OCC, FREE and FULL in and outside Active (R120 to R123) -/

theorem exec_query_refused {i : Instr} {c : Channel} (hi : i = .empty c ∨ i = .occ c ∨ i = .free c ∨ i = .full c)
    {s : State} (h : s.status.session ≠ .active) : exec i s = s.refuseBadState := by
  obtain ⟨f, hf⟩ := exec_query hi
  rw [hf, State.whenChannel_refused (.inl h)]

section
variable {s : State} {x : Descriptors} {c : Channel} (ha : s.status.session = .active) (hx : s.x = some x)
  (hr : s.runsOn (x.chan c))
include ha hx hr

theorem exec_empty_of_runsOn : exec (.empty c) s = s.respondOk (boolWord (x.chan c).isEmpty) [] :=
  State.whenChannel_eq ha hx hr fun _ d => s.respondOk (boolWord d.isEmpty) []

theorem exec_occ_of_runsOn : exec (.occ c) s = s.respondOk (x.chan c).occ [] :=
  State.whenChannel_eq ha hx hr fun _ d => s.respondOk d.occ []

theorem exec_free_of_runsOn : exec (.free c) s = s.respondOk (x.chan c).free [] :=
  State.whenChannel_eq ha hx hr fun _ d => s.respondOk d.free []

theorem exec_full_of_runsOn : exec (.full c) s = s.respondOk (boolWord (x.chan c).isFull) [] :=
  State.whenChannel_eq ha hx hr fun _ d => s.respondOk (boolWord d.isFull) []

/-- R124 (f): a response changes none of the registers a query reads. -/
theorem exec_query_repeats {i : Instr} (hi : i = .empty c ∨ i = .occ c ∨ i = .free c ∨ i = .full c) :
    ∃ v, exec i s = s.respondOk v [] ∧ exec i (s.respond .ok v []) = (s.respond .ok v []).respondOk v [] := by
  obtain ⟨f, hf⟩ := exec_query hi
  have answers (t : State) (hta : t.status.session = .active) (htx : t.x = some x) (htr : t.runsOn (x.chan c)) :
      exec i t = t.respondOk (f (x.chan c)) [] := by
    rw [hf, State.whenChannel_eq hta htx htr]
  exact ⟨_, answers s ha hx hr, answers _ ha hx hr⟩

end

/-- Settles O24: outside Active the queries are refused, in Active each answers its formula. -/
theorem queryResults : Obligations.QueryResults := by
  intro s c answer bad
  constructor
  · intro h
    have refused (i : Instr) (hi : i = .empty c ∨ i = .occ c ∨ i = .free c ∨ i = .full c) : exec i s = bad :=
      exec_query_refused hi h
    exact ⟨refused _ (by simp), refused _ (by simp), refused _ (by simp), refused _ (by simp)⟩
  intro x ha hx hr w r m
  refine ⟨?_, exec_occ_of_runsOn ha hx hr, exec_free_of_runsOn ha hx hr, ?_⟩
  · rw [exec_empty_of_runsOn ha hx hr, Descriptor.isEmpty, boolWord_beq]
    rfl
  · rw [exec_full_of_runsOn ha hx hr, Descriptor.isFull, boolWord_beq]
    rfl

/-! ### The laws of a channel's derived quantities (R124 (a) to (e)) -/

theorem Descriptor.occ_add_free (d : Descriptor) : d.occ + d.free = d.cap := add_sub_cancel ..

theorem Descriptor.isEmpty_iff (d : Descriptor) : d.isEmpty = true ↔ d.occ = 0 :=
  beq_iff_eq.trans sub_eq_zero.symm

theorem Descriptor.isFull_iff (d : Descriptor) : d.isFull = true ↔ d.free = 0 := beq_iff_eq

theorem Descriptor.isFull_iff_occ (d : Descriptor) : d.isFull = true ↔ d.occ = d.cap :=
  d.isFull_iff.trans (sub_eq_zero.trans eq_comm)

theorem Descriptor.cap_eq_zero_iff (d : Descriptor) : d.cap = 0 ↔ d.capacityMask = 0xFFFFFFFF := by
  rw [Descriptor.cap]
  bv_omega

/-- R124 (d): a channel that is empty and full has capacity 0 modulo 2^32. -/
theorem Descriptor.not_isEmpty_and_isFull {d : Descriptor} (h : d.capacityMask ≠ 0xFFFFFFFF) :
    ¬ (d.isEmpty = true ∧ d.isFull = true) := by
  rintro ⟨he, hu⟩
  exact h (d.cap_eq_zero_iff.mp ((d.isFull_iff_occ.mp hu).symm.trans (d.isEmpty_iff.mp he)))

/-- R124 (e): on a well-formed channel the occupancy does not exceed the capacity, so nothing wraps. -/
theorem Descriptor.free_le_cap_and_sum {d : Descriptor} (h : d.wellFormed = true) :
    d.free.toNat ≤ d.cap.toNat ∧ d.occ.toNat + d.free.toNat = d.cap.toNat := by
  have ho := (d.wellFormed_iff.mp h).2
  rw [Descriptor.free_toNat ho]
  exact ⟨Nat.sub_le .., Nat.add_sub_cancel' ho⟩

/-- Settles O25: the answers are the channel's derived quantities, whose laws these are. -/
theorem queryLaws : Obligations.QueryLaws := by
  intro s cb x c ⟨ha, hx, _⟩ hr
  refine ⟨_, _, _, _, exec_empty_of_runsOn ha hx hr, exec_occ_of_runsOn ha hx hr, exec_free_of_runsOn ha hx hr,
    exec_full_of_runsOn ha hx hr, (x.chan c).occ_add_free, ?_⟩
  rw [boolWord_eq_one_iff, boolWord_eq_one_iff]
  exact ⟨(x.chan c).isEmpty_iff, (x.chan c).isFull_iff, (x.chan c).isFull_iff_occ, Descriptor.not_isEmpty_and_isFull,
    Descriptor.free_le_cap_and_sum, fun i hi => exec_query_repeats ha hx hr (by simpa using hi)⟩

end Sys2Proof.Machine
end

section
/-!
Port calls that returned, with the target at work (`20_memory.md` R52, R53, R66): what they leave, location by location, and what
they have seen.
-/

namespace Sys2Proof.Machine

/-! ### Calls made after others -/

theorem PortCall.stores_lt {k : PortCall} (hc : k.crossesTop = false) {a : Nat} {b : Byte} (h : k.stores a b) :
    a < 2 ^ 32 := by
  obtain ⟨j, hj, rfl⟩ := h
  have := (List.getElem?_eq_some_iff.mp hj).1
  have := k.stored_length_le
  rw [PortCall.crossesTop_eq_false_iff] at hc
  omega

theorem State.targetQuiet_iff (s : State) (n : Nat) : s.targetQuiet n ↔ ∀ p ∈ s.port.take n, p.during = [] :=
  List.flatMap_eq_nil_iff

theorem State.targetQuiet_mono {s : State} {m n : Nat} (h : s.targetQuiet n) (hm : m ≤ n) : s.targetQuiet m := by
  rw [State.targetQuiet_iff] at h ⊢
  exact fun p hp => h p (List.take_subset_take_left _ hm hp)

theorem State.targetQuiet_of_drop {s t : State} {m n : Nat} (h : s.targetQuiet (m + n)) (ht : t.port = s.port.drop m) :
    t.targetQuiet n := by
  rw [State.targetQuiet_iff] at h ⊢
  intro p hp
  rw [ht, List.take_drop] at hp
  exact h p (List.mem_of_mem_drop hp)

section
variable {s t : State} {es : List PortEvent} (h : CallsMade s es t) {n a : Nat} {b : Byte}
include h

/-- What the target does in the calls made and in the `n` after them. -/
theorem CallsMade.stepsIn_add (n : Nat) : s.stepsIn (es.length + n) = s.stepsIn es.length ++ t.stepsIn n := by
  simp [State.stepsIn, h.port, List.take_add]

/-- What a location held in the calls made, it held in these and the ones after them. -/
theorem CallsMade.seen_earlier (hb : s.seen es.length a b) (n : Nat) : s.seen (es.length + n) a b := by
  obtain ⟨k, hk⟩ := hb
  refine ⟨min k (s.stepsIn es.length).length, ?_⟩
  rw [hk, h.stepsIn_add, List.take_append_of_le_length (Nat.min_le_right ..), ← List.take_eq_take_min]

/-- A byte stored in the calls made stands there after the ones after them, if these leave its location to the target. -/
theorem CallsMade.left_earlier (hm : t.mem.wf) (ha : a < 2 ^ 32) (hs : s.mem.wf) (hb : s.left es.length a b t.mem)
    {m : Memory} (hr : m.read a = (applySteps (t.stepsIn n) t.mem).read a) : s.left (es.length + n) a b m := by
  obtain ⟨k, hk⟩ := hb
  refine ⟨min k (s.stepsIn es.length).length, ?_⟩
  rw [hr, h.stepsIn_add, List.drop_append_of_le_length (Nat.min_le_right ..), applySteps_append]
  refine applySteps_read_congr _ hm (applySteps_wf _ _ (Memory.wf_write _ _ _ ha hs)) (hk.trans ?_)
  rw [← List.drop_eq_drop_min]

/-- A byte stored in the calls after those made. -/
theorem CallsMade.left_later (hm : t.mem.wf) (ha : a < 2 ^ 32) (hs : s.mem.wf) {m : Memory} (hb : t.left n a b m) :
    s.left (es.length + n) a b m := by
  obtain ⟨k, hk⟩ := hb
  refine ⟨(s.stepsIn es.length).length + k, ?_⟩
  rw [h.stepsIn_add, List.drop_length_add_append, hk]
  exact applySteps_read_congr _ (Memory.wf_write _ _ _ ha hm) (Memory.wf_write _ _ _ ha hs)
    (by rw [Memory.read_write_same _ _ _ hm, Memory.read_write_same _ _ _ hs])

theorem CallsMade.not_crossing : ∀ e ∈ es, e.call.crossesTop = false := by
  induction h with
  | nil s => simp
  | cons s c ans es t hc hv ht ih => exact List.forall_mem_cons.mpr ⟨hc, ih⟩

/-! ### What calls leave -/

/-- A location that no call stores to holds what the target's steps leave. -/
theorem CallsMade.read_beside (hs : s.mem.wf) (ha : ∀ e ∈ es, ∀ b, ¬ e.call.stores a b) :
    t.mem.read a = (applySteps (s.stepsIn es.length) s.mem).read a := by
  induction h with
  | nil s => rfl
  | cons s c ans es t hc hv ht ih =>
    have hout : a < c.addr.toNat ∨ c.addr.toNat + c.stored.length ≤ a := by
      by_contra hin
      obtain ⟨b, hb⟩ := PortCall.exists_stores (k := c) (a := a) (by omega)
      exact ha _ (List.mem_cons_self ..) b hb
    have hm := memAfter_wf s c true hc hs
    rw [ih hm fun e he => ha e (List.mem_cons_of_mem _ he), List.length_cons, s.stepsIn_succ es.length c true ans,
      applySteps_append]
    refine applySteps_read_congr _ hm (applySteps_wf _ _ hs) ?_
    rw [← s.stepsIn_one]
    exact memAfter_read_beside true hc hs hout

/-- A location to which the calls store one byte holds it, but for what the target writes after that (R53, R66). -/
theorem CallsMade.left_stored (hs : s.mem.wf) (hex : ∃ e ∈ es, e.call.stores a b)
    (hone : ∀ e ∈ es, ∀ c, e.call.stores a c → c = b) : s.left es.length a b t.mem := by
  induction h with
  | nil s =>
    obtain ⟨e, he, -⟩ := hex
    cases he
  | cons s c ans es t hc hv ht ih =>
    have hfirst := CallsMade.one s c ans hc hv
    have hm := memAfter_wf s c true hc hs
    rw [List.length_cons, Nat.add_comm]
    by_cases hl : ∃ e ∈ es, e.call.stores a b
    · obtain ⟨e, he, hb⟩ := hl
      have ha := PortCall.stores_lt (ht.not_crossing e he) hb
      exact hfirst.left_later hm ha hs (ih hm ⟨e, he, hb⟩ fun e he => hone e (List.mem_cons_of_mem _ he))
    · have hhead : c.stores a b := by
        obtain ⟨e, he, hb⟩ := hex
        rcases List.mem_cons.mp he with rfl | he
        · exact hb
        · exact absurd ⟨e, he, hb⟩ hl
      have beside : ∀ e ∈ es, ∀ d, ¬ e.call.stores a d := fun e he d hd =>
        hl ⟨e, he, hone e (List.mem_cons_of_mem _ he) d hd ▸ hd⟩
      obtain ⟨j, hj, rfl⟩ := id hhead
      exact hfirst.left_earlier hm (PortCall.stores_lt hc hhead) hs (memAfter_read_landed true hc hs hj rfl)
        (ht.read_beside hm beside)

/-- Reads leave what the target's steps leave (R79). -/
theorem CallsMade.mem_of_reads (hr : ∀ e ∈ es, e.call.stored = []) : t.mem = applySteps (s.stepsIn es.length) s.mem := by
  induction h with
  | nil s => rfl
  | cons s c ans es t hc hv ht ih =>
    rw [ih fun e he => hr e (List.mem_cons_of_mem _ he), State.afterCall_mem,
      memAfter_of_read s (hr _ (List.mem_cons_self ..)), List.length_cons, s.stepsIn_succ es.length c true ans,
      applySteps_append, s.stepsIn_one]

/-- What a location holds in calls made after reads. -/
theorem CallsMade.seen_later (hr : ∀ e ∈ es, e.call.stored = []) (hb : t.seen n a b) : s.seen (es.length + n) a b := by
  obtain ⟨k, hk⟩ := hb
  refine ⟨(s.stepsIn es.length).length + k, ?_⟩
  rw [h.stepsIn_add, List.take_length_add_append, applySteps_append, ← h.mem_of_reads hr, hk]

end

end Sys2Proof.Machine
end

section
/-!
The copies of a transfer all of whose port calls returned (`42_transfer.md` R130; `20_memory.md` R52, R53, R60, R61, R66).
-/

namespace Sys2Proof.Machine

/-! ### The lengths of a copy's calls (R135 (h)) -/

theorem enqSegments_total (d : Descriptor) (data : List Byte) :
    (enqSegments d data).first + (enqSegments d data).rest = enqCount d data := Descriptor.segments_total ..

theorem peekSegments_total (d : Descriptor) (n : Word) :
    (peekSegments d n).first + (peekSegments d n).rest = peekCount d n := Descriptor.segments_total ..

theorem sum_length_ite_singleton {n : Nat} {k : PortCall} (hk : k.length = n) :
    ((if 0 < n then [k] else []).map PortCall.length).sum = n := by
  split
  · simp [hk]
  · simp only [List.map_nil, List.sum_nil]
    omega

theorem length_ite_singleton_le {α : Type} (p : Prop) [Decidable p] (a : α) : (if p then [a] else []).length ≤ 1 := by
  split <;> simp

theorem Segments.sum_readCalls (g : Segments) : (g.readCalls.map PortCall.length).sum = g.first + g.rest := by
  rw [Segments.readCalls, List.map_append, List.sum_append, sum_length_ite_singleton, sum_length_ite_singleton] <;> rfl

theorem Segments.sum_writeCalls {g : Segments} {data : List Byte} (hl : data.length = g.first + g.rest) :
    ((g.writeCalls data).map PortCall.length).sum = g.first + g.rest := by
  rw [Segments.writeCalls, List.map_append, List.sum_append, sum_length_ite_singleton, sum_length_ite_singleton]
    <;> simp [PortCall.length, hl]

theorem Segments.length_readCalls_le (g : Segments) : g.readCalls.length ≤ 2 := by
  rw [Segments.readCalls, List.length_append]
  exact Nat.add_le_add (length_ite_singleton_le ..) (length_ite_singleton_le ..)

theorem Segments.length_writeCalls_le (g : Segments) (data : List Byte) : (g.writeCalls data).length ≤ 2 := by
  rw [Segments.writeCalls, List.length_append]
  exact Nat.add_le_add (length_ite_singleton_le ..) (length_ite_singleton_le ..)

/-- R135 (b): a copy-in and a copy-out of the same segments make equally many calls. -/
theorem Segments.length_writeCalls (g : Segments) (data : List Byte) :
    (g.writeCalls data).length = g.readCalls.length := by
  rw [Segments.writeCalls, Segments.readCalls, List.length_append, List.length_append]
  congr 1 <;> split <;> rfl

/-- Settles O31: the segments together are the whole copy. -/
theorem callLengthsAreTheCount : Obligations.CallLengthsAreTheCount := by
  intro s x c data maxLen hx
  rw [State.callsOf_enq hx, State.callsOf_peek hx, State.callsOf_deq hx]
  refine ⟨?_, ?_, Segments.length_writeCalls_le .., Segments.length_readCalls_le _, rfl⟩
  · rw [Segments.sum_writeCalls (enq_data_length _ _), enqSegments_total, enqCount]
  · rw [Segments.sum_readCalls, peekSegments_total, peekCount]

/-! ### Where the bytes of a copy lie -/

/-- A shorter copy from the same counter value lies where the head of a longer one does. -/
theorem Descriptor.segments_byteAddr_of_le (d : Descriptor) (v : Word) {m n j : Nat} (hmn : m ≤ n) (hj : j < m) :
    (d.segments v m).byteAddr j = (d.segments v n).byteAddr j := by
  have hfirst (n : Nat) : (d.segments v n).first = min n (d.cap - d.phys v).toNat := rfl
  rw [Segments.byteAddr, Segments.byteAddr, hfirst, hfirst]
  by_cases hk : j < (d.cap - d.phys v).toNat
  · rw [if_pos (by omega), if_pos (by omega)]
    rfl
  · rw [if_neg (by omega), if_neg (by omega), Nat.min_eq_right (by omega), Nat.min_eq_right (by omega)]
    rfl

/-- The bytes of a copy of at most a capacity lie in different locations, whether or not the buffer's address wraps. -/
theorem Descriptor.segments_byteAddr_inj {d : Descriptor} (hm : maskLegal d.capacityMask = true) (v : Word) {n i j : Nat}
    (hn : n ≤ d.cap.toNat) (hi : i < n) (hj : j < n) (h : (d.segments v n).byteAddr i = (d.segments v n).byteAddr j) :
    i = j := by
  have hp := d.phys_lt hm v
  have hcap := d.cap_le hm
  have haddr : (d.segments v n).addr1.toNat = (d.bufferBase.toNat + (d.phys v).toNat) % 2 ^ 32 := BitVec.toNat_add ..
  have hbase : (d.segments v n).addr2 = d.bufferBase := rfl
  have hlt := d.bufferBase.isLt
  simp only [Segments.byteAddr, haddr, hbase, d.segments_first hm] at h
  split at h <;> split at h <;> omega

theorem enqSegments_byteAddr_inj {d : Descriptor} (hw : d.wellFormed = true) {data : List Byte} :
    ∀ i < (enqSegments d data).first + (enqSegments d data).rest,
      ∀ j < (enqSegments d data).first + (enqSegments d data).rest,
        (enqSegments d data).byteAddr i = (enqSegments d data).byteAddr j → i = j := by
  obtain ⟨hmask, hocc⟩ := d.wellFormed_iff.mp hw
  rw [enqSegments_total]
  exact fun i hi j hj => Descriptor.segments_byteAddr_inj hmask _ (enqCount_le_cap hocc data) hi hj

/-! ### Copy-out -/

theorem copyOut_sameBlock (g : Segments) (s : State) : (copyOut g s).holds (SameBlock s) :=
  copyOut_holds SameBlock .refl (fun _ _ _ => .trans) (fun s k w ans _ => afterCall_sameBlock s k w ans) g s

/-- A copy-out gave these bytes: it made the reads of its segments, and each byte is what its location held at some instant of
them. -/
structure CopiedOut (s : State) (g : Segments) (bytes : List Byte) (u : State) : Prop where
  made : ∃ es, es.map PortEvent.call = g.readCalls ∧ CallsMade s es u
  length : bytes.length = g.first + g.rest
  seen : ∀ j < g.first + g.rest, ∃ b, bytes[j]? = some b ∧ s.seen g.readCalls.length (g.byteAddr j) b

theorem memRead_sees {a : Word} {n : Nat} {s t : State} {bytes : List Byte} (h : memRead a n s = .returned bytes t) :
    ∃ es, es.map PortEvent.call = (if 0 < n then [.read a n] else []) ∧ CallsMade s es t ∧ bytes.length = n ∧
      ∀ j < n, ∃ b, bytes[j]? = some b ∧ s.seen es.length (a.toNat + j) b := by
  cases n with
  | zero =>
    cases h
    exact ⟨[], rfl, .nil s, rfl, by simp⟩
  | succ n =>
    obtain ⟨hc, hv, rfl, rfl⟩ := portCall_eq_returned h
    exact ⟨_, rfl, .one s _ _ hc hv, by simp [State.bytesSeen], fun j hj => s.bytesSeen_seen a hj⟩

theorem stored_of_calls_ite_read {es : List PortEvent} {p : Prop} [Decidable p] {a : Word} {n : Nat}
    (h : es.map PortEvent.call = if p then [.read a n] else []) : ∀ e ∈ es, e.call.stored = [] := by
  intro e he
  have hk : e.call = .read a n := eq_of_mem_ite_singleton (h ▸ List.mem_map_of_mem he)
  rw [hk, PortCall.stored]

theorem copyOut_copiedOut {g : Segments} {s u : State} {bytes : List Byte} (h : copyOut g s = .returned bytes u) :
    CopiedOut s g bytes u := by
  obtain ⟨b1, t, h1, h⟩ := Call.bind_eq_returned h
  obtain ⟨b2, t', h2, h⟩ := Call.bind_eq_returned h
  cases h
  obtain ⟨es1, he1, hm1, hl1, seen1⟩ := memRead_sees h1
  obtain ⟨es2, he2, hm2, hl2, seen2⟩ := memRead_sees h2
  have hcalls : (es1 ++ es2).map PortEvent.call = g.readCalls := by rw [List.map_append, he1, he2, Segments.readCalls]
  have hlen : g.readCalls.length = es1.length + es2.length := by simp [← hcalls]
  refine ⟨⟨_, hcalls, hm1.append hm2⟩, by rw [List.length_append, hl1, hl2], fun j hj => ?_⟩
  rw [hlen, Segments.byteAddr]
  by_cases hf : j < g.first
  · obtain ⟨b, hb, hs⟩ := seen1 j hf
    rw [if_pos hf, List.getElem?_append_left (by omega)]
    exact ⟨b, hb, hm1.seen_earlier hs _⟩
  · obtain ⟨b, hb, hs⟩ := seen2 (j - g.first) (by omega)
    rw [if_neg hf, List.getElem?_append_right (by omega), hl1]
    exact ⟨b, hb, hm1.seen_later (stored_of_calls_ite_read he1) hs⟩

theorem State.seen_of_quiet {s : State} {n a : Nat} {b : Byte} (hq : s.targetQuiet n) (h : s.seen n a b) :
    b = s.mem.read a := by
  obtain ⟨k, rfl⟩ := h
  rw [hq, List.take_nil, applySteps_nil]

namespace CopiedOut
variable {s u : State} {g : Segments} {bytes : List Byte} (h : CopiedOut s g bytes u)
include h

theorem mem : u.mem = applySteps (s.stepsIn g.readCalls.length) s.mem := by
  obtain ⟨es, he, hu⟩ := h.made
  rw [← he, List.length_map]
  refine hu.mem_of_reads fun e hmem => ?_
  rcases Segments.mem_readCalls (he ▸ List.mem_map_of_mem hmem) with hk | hk <;> rw [hk] <;> rfl

theorem sameBlock : SameBlock s u := by
  obtain ⟨es, -, hu⟩ := h.made
  exact hu.sameBlock

theorem callsMade : u.callsMade = s.callsMade ++ g.readCalls := by
  obtain ⟨es, he, hu⟩ := h.made
  rw [← he, State.callsMade_of_trace hu.trace]

theorem port : u.port = s.port.drop g.readCalls.length := by
  obtain ⟨es, he, hu⟩ := h.made
  rw [← he, List.length_map, hu.port]

variable (hq : s.targetQuiet g.readCalls.length)
include hq

/-- R79: with a silent target memory stays as it is. -/
theorem mem_of_quiet : u.mem = s.mem := by rw [h.mem, hq, applySteps_nil]

/-- With a silent target the bytes are those of memory. -/
theorem bytes_of_quiet : bytes = (List.range (g.first + g.rest)).map fun j => s.mem.read (g.byteAddr j) := by
  refine List.ext_getElem? fun j => ?_
  by_cases hj : j < g.first + g.rest
  · obtain ⟨b, hb, hs⟩ := h.seen j hj
    rw [hb, State.seen_of_quiet hq hs]
    simp [hj]
  · rw [List.getElem?_eq_none (by rw [h.length]; omega), List.getElem?_eq_none (by simp; omega)]

end CopiedOut

/-! ### Copy-in -/

/-- A write that returned, as the trace records it (R53, R82). -/
def PortCall.done (k : PortCall) : PortEvent := { call := k, answer := .done }

theorem memWrite_made {a : Word} {data : List Byte} {n : Nat} (hn : data.length = n) {s t : State} {v : Unit}
    (h : memWrite a data s = .returned v t) :
    CallsMade s ((if 0 < n then [.write a data] else []).map PortCall.done) t := by
  subst hn
  cases data with
  | nil =>
    cases h
    exact .nil s
  | cons b bs =>
    obtain ⟨hc, hv, -, rfl⟩ := portCall_eq_returned h
    exact .one s _ _ hc hv

theorem copyIn_made {g : Segments} {data : List Byte} (hl : data.length = g.first + g.rest) {s u : State} {v : Unit}
    (h : copyIn g data s = .returned v u) : CallsMade s ((g.writeCalls data).map PortCall.done) u := by
  obtain ⟨w, t, h1, h2⟩ := Call.bind_eq_returned h
  rw [Segments.writeCalls, List.map_append]
  exact (memWrite_made (by simp [hl]) h1).append (memWrite_made (by simp [hl]) h2)

section
variable {g : Segments} {data : List Byte} {s u : State}
  (hu : CallsMade s ((g.writeCalls data).map PortCall.done) u) (hs : s.mem.wf)
include hu hs

/-- Each byte of a copy-in into different locations stands in its place, but for what the target writes after it. -/
theorem CallsMade.left_copyIn (hl : data.length = g.first + g.rest)
    (hinj : ∀ i < g.first + g.rest, ∀ j < g.first + g.rest, g.byteAddr i = g.byteAddr j → i = j) {j : Nat} {b : Byte}
    (hb : data[j]? = some b) : s.left (g.writeCalls data).length (g.byteAddr j) b u.mem := by
  have lt {i : Nat} {c : Byte} (hc : data[i]? = some c) : i < g.first + g.rest :=
    hl ▸ (List.getElem?_eq_some_iff.mp hc).1
  rw [← List.length_map (f := PortCall.done)]
  refine hu.left_stored hs ?_ fun e he c hc => ?_
  · obtain ⟨k, hk, hkb⟩ := Segments.exists_writeCall hl hb
    exact ⟨k.done, List.mem_map_of_mem hk, hkb⟩
  · obtain ⟨k, hk, rfl⟩ := List.mem_map.mp he
    obtain ⟨i, hi, e⟩ := Segments.byte_of_stores hk hc
    obtain rfl := hinj _ (lt hb) _ (lt hi) e
    exact Option.some.inj (hi.symm.trans hb)

/-- A location of no byte of a copy-in holds what the target's steps leave. -/
theorem CallsMade.read_beside_copyIn {a : Nat} (ha : ∀ i b, data[i]? = some b → g.byteAddr i ≠ a) :
    u.mem.read a = (applySteps (s.stepsIn (g.writeCalls data).length) s.mem).read a := by
  rw [← List.length_map (f := PortCall.done)]
  refine hu.read_beside hs fun e he b hb => ?_
  obtain ⟨k, hk, rfl⟩ := List.mem_map.mp he
  obtain ⟨i, hi, e⟩ := Segments.byte_of_stores hk hb
  exact ha i b hi e.symm

end

end Sys2Proof.Machine
end

section
/-!
How ENQ, PEEK and DEQ end, and what they do to a channel's derived quantities (`42_transfer.md` R131 to R133, R135;
`60_exceptions.md` R168).
-/

namespace Sys2Proof.Machine

/-! ### A channel after its offsets have moved (R10, R130) -/

section
variable (d : Descriptor) (n : Word)

theorem Descriptor.occ_advanceWrite : (d.setOffset (d.writeOffset + n) .w).occ = d.occ + n := add_sub_right_comm ..

theorem Descriptor.occ_advanceRead : (d.setOffset (d.readOffset + n) .r).occ = d.occ - n := sub_add_eq_sub_sub ..

theorem Descriptor.free_advanceWrite : (d.setOffset (d.writeOffset + n) .w).free = d.free - n := by
  rw [Descriptor.free, Descriptor.occ_advanceWrite, Descriptor.cap_setOffset]
  exact sub_add_eq_sub_sub ..

theorem Descriptor.free_advanceRead : (d.setOffset (d.readOffset + n) .r).free = d.free + n := by
  rw [Descriptor.free, Descriptor.occ_advanceRead, Descriptor.cap_setOffset]
  exact (sub_sub_eq_add_sub ..).trans (add_sub_right_comm ..)

end

@[simp] theorem Descriptor.bytesFrom_setOffset (d : Descriptor) (v : Word) (f : OffsetField) :
    (d.setOffset v f).bytesFrom = d.bytesFrom := by
  cases f <;> rfl

@[simp] theorem Descriptor.segments_setOffset (d : Descriptor) (v : Word) (f : OffsetField) :
    (d.setOffset v f).segments = d.segments := by
  cases f <;> rfl

/-- The bytes from the write offset on follow those the channel holds. -/
theorem Descriptor.contents_advanceWrite (d : Descriptor) {n : Nat} (hn : d.occ.toNat + n < 2 ^ 32) (m : Memory) :
    (d.setOffset (d.writeOffset + BitVec.ofNat 32 n) .w).contents m = d.contents m ++ d.bytesFrom d.writeOffset n m := by
  have hocc : (d.setOffset (d.writeOffset + BitVec.ofNat 32 n) .w).occ.toNat = d.occ.toNat + n := distance_advance hn
  have hend : d.readOffset + BitVec.ofNat 32 d.occ.toNat = d.writeOffset := add_ofNat_distance ..
  rw [Descriptor.contents, hocc, Descriptor.bytesFrom_setOffset, Descriptor.contents, ← hend, ← d.bytesFrom_append, hend]
  rfl

/-- The bytes from the read offset on are no longer held. -/
theorem Descriptor.contents_advanceRead (d : Descriptor) {n : Nat} (hn : n ≤ d.occ.toNat) (m : Memory) :
    (d.setOffset (d.readOffset + BitVec.ofNat 32 n) .r).contents m = (d.contents m).drop n := by
  have hocc : (d.setOffset (d.readOffset + BitVec.ofNat 32 n) .r).occ.toNat = d.occ.toNat - n := distance_behind hn
  rw [Descriptor.contents, hocc, Descriptor.bytesFrom_setOffset, Descriptor.contents, d.bytesFrom_drop _ hn]
  rfl

/-! ### How a transfer that answered OK, or did not, has ended -/

theorem IsTransferOn.not_isRegisterRead {c : Channel} {i : Instr} (h : IsTransferOn c i) : isRegisterRead i = false := by
  rcases h with ⟨d, rfl⟩ | ⟨n, rfl⟩ | ⟨n, rfl⟩ <;> rfl

/-- A transfer that answered OK has completed. -/
theorem ExecEnd.completes_of_ok {i : Instr} {s t : State} {x y : Descriptors} {c : Channel} {v : Word} {p : List Byte}
    (h : ExecEnd i s t) (hi : IsTransferOn c i) (hx : s.x = some x) (hy : t.x = some y)
    (hr : t.responses = s.responses ++ [{ code := .ok, result := v, payload := p }]) : Completes i x y v p := by
  cases h with
  | refused _ => simp at hr
  | answered v h _ => simp [hi.not_isRegisterRead] at h
  | closed h => simp [IsTransferOn, h] at hi
  | opened a bytes u h ha hu => simp [IsTransferOn, h] at hi
  | completed x' y' v' p' es u ha hx' hc he hu =>
    obtain rfl : x' = x := Option.some.inj (hx'.symm.trans hx)
    obtain rfl : y' = y := Option.some.inj hy
    obtain ⟨rfl, rfl⟩ : v' = v ∧ p' = p := by simpa [hu.sameBlock.responses] using hr
    exact hc
  | faulted es k rest u ha hi' he hu hc hp => simp [hu.sameBlock.responses] at hr
  | cut es k rest u ha he hu hc hp => simp [hu.sameBlock.responses] at hr
  | hung es k rest u ha hi' hl he hu hc hp => simp [hu.sameBlock.responses] at hr

/-- Settles O33: OCC and FREE are differences of the offsets. -/
theorem transfersMoveOccupancy : Obligations.TransfersMoveOccupancy := by
  intro s t x y c data maxLen n p hx hy hr
  refine ⟨fun he => ?_, fun he => ?_⟩
  · obtain ⟨-, -, rfl⟩ := (execEnd_of_next he).completes_of_ok (.inl ⟨data, rfl⟩) hx hy hr
    rw [Descriptors.chan_setOffset_same]
    exact ⟨Descriptor.occ_advanceWrite .., Descriptor.free_advanceWrite ..⟩
  · obtain ⟨-, -, rfl⟩ := (execEnd_of_next he).completes_of_ok (.inr (.inr ⟨maxLen, rfl⟩)) hx hy hr
    rw [Descriptors.chan_setOffset_same]
    exact ⟨Descriptor.occ_advanceRead .., Descriptor.free_advanceRead ..⟩

/-- A transfer that did not answer OK, and was not cut by reset, wrote no descriptor register and answered no bytes. -/
theorem ExecEnd.unchanged_of_not_ok {i : Instr} {s t : State} {c : Channel} (h : ExecEnd i s t) (hi : IsTransferOn c i)
    (hr : ∀ v p, t.responses ≠ s.responses ++ [{ code := .ok, result := v, payload := p }]) (ht : t.status.session ≠ .idle) :
    t.x = s.x ∧ ∀ r ∈ t.responses.drop s.responses.length, r.payload = [] := by
  cases h with
  | refused _ => exact ⟨rfl, by simp⟩
  | answered v h _ => simp [hi.not_isRegisterRead] at h
  | closed h => exact absurd rfl ht
  | opened a bytes u h ha hu => simp [IsTransferOn, h] at hi
  | completed x y v p es u ha hx hc he hu => exact absurd (by simp [hu.sameBlock.responses]) (hr v p)
  | faulted es k rest u ha hi' he hu hc hp => exact ⟨hu.sameBlock.x.trans (s.begun_x i), by simp [hu.sameBlock.responses]⟩
  | cut es k rest u ha he hu hc hp => exact absurd rfl ht
  | hung es k rest u ha hi' hl he hu hc hp => exact ⟨hu.sameBlock.x.trans (s.begun_x i), by simp [hu.sameBlock.responses]⟩

/-- Settles O30: DEQ writes R and answers bytes only where it answers OK. -/
theorem failedDequeueConsumesNothing : Obligations.FailedDequeueConsumesNothing := by
  intro s t c maxLen he hr ht
  exact (execEnd_of_next he).unchanged_of_not_ok (.inr (.inr ⟨maxLen, rfl⟩)) hr ht

end Sys2Proof.Machine
end

section
/-!
ENQ, PEEK and DEQ whose port calls return, with the target at work (`42_transfer.md` R131 to R133).
-/

namespace Sys2Proof.Machine

section
variable {s : State} {cb : Word} {x : Descriptors} (ho : s.Open cb x) {c : Channel} (hr : s.runsOn (x.chan c))
include ho hr

/-- R131: ENQ, when its calls return. -/
theorem exec_enq_returns {data : List Byte} (hret : s.portReturns (s.callsOf (.enq c data)).length)
    (hfit : (enqSegments (x.chan c) data).fits) :
    ∃ u, CallsMade s ((s.callsOf (.enq c data)).map PortCall.done) u ∧
      exec (.enq c data) s = .next (State.respond
        { u with x := some (x.setOffset c .w ((x.chan c).writeOffset + BitVec.ofNat 32 (enqCount (x.chan c) data))) }
        .ok (BitVec.ofNat 32 (enqCount (x.chan c) data)) []) := by
  rw [State.callsOf_enq ho.descriptors] at hret ⊢
  obtain ⟨v, u, -, hcall, -, -⟩ :=
    (copyIn_runs _ _ (enq_data_length _ _) s).returned (fun k hk => hfit.writeCalls hk) hret
  have hu := copyIn_made (enq_data_length _ _) hcall
  refine ⟨u, hu, ?_⟩
  rw [enqSegments] at hcall
  rw [exec, execEnq, State.whenChannel_eq ho.session ho.descriptors hr, hcall, Call.finish, hu.setOffset_eq ho,
    State.respondOk]

/-- R132, R133: PEEK and DEQ, when their calls return. -/
theorem exec_peek_deq_return {n : Word} (hret : s.portReturns (s.callsOf (.peek c n)).length)
    (hfit : (peekSegments (x.chan c) n).fits) :
    ∃ bytes u, CopiedOut s (peekSegments (x.chan c) n) bytes u ∧
      exec (.peek c n) s = .next (u.respond .ok (BitVec.ofNat 32 (peekCount (x.chan c) n)) bytes) ∧
      exec (.deq c n) s = .next (State.respond
        { u with x := some (x.setOffset c .r ((x.chan c).readOffset + BitVec.ofNat 32 (peekCount (x.chan c) n))) }
        .ok (BitVec.ofNat 32 (peekCount (x.chan c) n)) bytes) := by
  rw [State.callsOf_peek ho.descriptors] at hret
  obtain ⟨bytes, u, es, hcall, -, hu⟩ := (copyOut_runs _ s).returned (fun k hk => hfit.readCalls hk) hret
  refine ⟨bytes, u, copyOut_copiedOut hcall, ?_, ?_⟩
  · rw [peekSegments] at hcall
    rw [exec, execPeek, State.whenChannel_eq ho.session ho.descriptors hr, hcall, Call.finish, State.respondOk]
  · rw [peekSegments] at hcall
    rw [exec, execDeq, State.whenChannel_eq ho.session ho.descriptors hr, hcall, Call.finish, hu.setOffset_eq ho,
      State.respondOk]

end

/-- R133: DEQ makes the calls of PEEK. -/
theorem State.callsOf_deq_eq_peek (s : State) (c : Channel) (n : Word) : s.callsOf (.deq c n) = s.callsOf (.peek c n) := by
  cases hx : s.x <;> simp only [State.callsOf, hx]

/-- The write calls of ENQ, cut from the payload (R130, R131). -/
theorem enq_writeCalls (d : Descriptor) (data : List Byte) :
    (enqSegments d data).writeCalls (data.take (enqCount d data)) =
      (if 0 < (enqSegments d data).first then [.write (enqSegments d data).addr1 (data.take (enqSegments d data).first)]
        else []) ++
        if 0 < (enqSegments d data).rest then
          [.write (enqSegments d data).addr2 ((data.drop (enqSegments d data).first).take (enqSegments d data).rest)]
        else [] := by
  have hfirst : (enqSegments d data).first ≤ enqCount d data := Descriptor.segments_first_le ..
  have hrest : (enqSegments d data).rest = enqCount d data - (enqSegments d data).first := rfl
  rw [Segments.writeCalls, List.take_take, Nat.min_eq_left hfirst, List.drop_take, List.take_take, ← hrest, Nat.min_self]

/-- Settles O27: all calls return, and on a well-formed channel the bytes lie in different locations. -/
theorem enqueueCompletes : Obligations.EnqueueCompletes := by
  intro s cb x c data ho hr hret hfit d n p first calls
  have hcalls : s.callsOf (.enq c data) = calls := (State.callsOf_enq ho.descriptors c data).trans (enq_writeCalls d data)
  obtain ⟨u, hu, he⟩ := exec_enq_returns ho hr hret hfit
  have hb := hu.sameBlock
  refine ⟨_, he, rfl, by rw [← hb.responses]; rfl, by rw [← hcalls]; exact hu.trace, hb.cbAddr, hb.status, hb.fcmd,
    hb.faddr, hb.inFlight, fun hs hw j b hj => ?_⟩
  rw [← hcalls, State.callsOf_enq ho.descriptors]
  rw [State.callsOf_enq ho.descriptors] at hu
  exact hu.left_copyIn hs (enq_data_length d data) (enqSegments_byteAddr_inj hw) hj

/-- Settles O28: the bytes are those the calls see, in the order of the two segments. -/
theorem peekCompletes : Obligations.PeekCompletes := by
  intro s cb x c maxLen ho hr hret hfit d n p first location calls
  obtain ⟨bytes, u, hu, he, -⟩ := exec_peek_deq_return ho hr hret hfit
  have hb := hu.sameBlock
  have htotal : (peekSegments d maxLen).first + (peekSegments d maxLen).rest = n := peekSegments_total ..
  have hseen := hu.seen
  rw [htotal] at hseen
  refine ⟨_, bytes, he, ?_, hb.inFlight, hu.mem, ?_, hu.callsMade, hu.length.trans htotal, hseen, fun hq => ⟨?_, ?_⟩⟩
  · simp [State.registers, hb.x, hb.cbAddr, hb.status, hb.fcmd, hb.faddr]
  · rw [← hb.responses]
    rfl
  · exact htotal ▸ hu.bytes_of_quiet hq
  · exact hu.mem_of_quiet hq

/-- Settles O29: both run on the same copy. -/
theorem dequeueCompletes : Obligations.DequeueCompletes := by
  intro s cb x c maxLen ho hr hret hfit n
  obtain ⟨bytes, u, hu, hpeek, hdeq⟩ := exec_peek_deq_return ho hr (s.callsOf_deq_eq_peek c maxLen ▸ hret) hfit
  exact ⟨_, _, hpeek, hdeq, ⟨bytes, hu.length.trans (peekSegments_total ..), by rw [← hu.sameBlock.responses]; rfl⟩, rfl⟩

end Sys2Proof.Machine
end

section
/-!
With a silent target a channel is a FIFO that ENQ appends to, DEQ takes from and PEEK looks into (`42_transfer.md` R130,
R135).
-/

namespace Sys2Proof.Machine

/-! ### ENQ appends -/

section
variable {d : Descriptor} (hw : d.wellFormed = true) (hspace : d.inSpace) {data : List Byte} {s u : State}
  (hu : CallsMade s (((enqSegments d data).writeCalls (data.take (enqCount d data))).map PortCall.done) u) (hs : s.mem.wf)
include hw hspace

theorem enqSegments_byteAddr {i : Nat} (hi : i < enqCount d data) :
    (enqSegments d data).byteAddr i = d.location (d.writeOffset + BitVec.ofNat 32 i) := by
  obtain ⟨hmask, hocc⟩ := d.wellFormed_iff.mp hw
  exact Descriptor.segments_byteAddr hmask hspace _ (enqCount_le_cap hocc data) hi

include hu hs
variable (hq : s.targetQuiet ((enqSegments d data).writeCalls (data.take (enqCount d data))).length)
include hq

/-- While the target is silent ENQ leaves the bytes that the channel holds. -/
theorem CallsMade.enq_contents : d.contents u.mem = d.contents s.mem := by
  obtain ⟨hmask, hocc⟩ := d.wellFormed_iff.mp hw
  have hfree := enqCount_le_free d data
  rw [Descriptor.free_toNat hocc] at hfree
  refine Descriptor.bytesFrom_congr fun j hj => ?_
  rw [hu.read_beside_copyIn hs fun i b hb e => ?_, hq, applySteps_nil]
  have hi : i < enqCount d data := by
    rw [← enqSegments_total, ← enq_data_length]
    exact (List.getElem?_eq_some_iff.mp hb).1
  have hdist : (d.writeOffset - d.readOffset).toNat = d.occ.toNat := rfl
  rw [enqSegments_byteAddr hw hspace hi, add_ofNat_eq_from d.readOffset, hdist] at e
  have := Descriptor.location_inj hmask (by omega) (by omega) e
  omega

/-- While the target is silent the bytes accepted stand behind them. -/
theorem CallsMade.enq_appended : d.bytesFrom d.writeOffset (enqCount d data) u.mem = data.take (enqCount d data) := by
  have hlen := enq_data_length d data
  refine (Descriptor.eq_bytesFrom (hlen.trans (enqSegments_total ..)) fun i hi => ?_).symm
  obtain ⟨b, hb⟩ : ∃ b, (data.take (enqCount d data))[i]? = some b :=
    ⟨_, List.getElem?_eq_getElem (by rwa [hlen, enqSegments_total])⟩
  have hleft := hu.left_copyIn hs hlen (enqSegments_byteAddr_inj hw) hb
  rw [hb, ← enqSegments_byteAddr hw hspace hi, State.left_of_quiet hq hs hleft]

end

/-- R131, R135: ENQ on a well-formed channel, when its calls return and the target is silent. -/
theorem exec_enq_appends {s : State} {cb : Word} {x y : Descriptors} (ho : s.Open cb x) {c : Channel} (hs : s.mem.wf)
    (hw : (x.chan c).wellFormed = true) (hspace : (x.chan c).inSpace) {data : List Byte}
    (hret : s.portReturns (s.callsOf (.enq c data)).length) (hq : s.targetQuiet (s.callsOf (.enq c data)).length)
    (hy : y = x.setOffset c .w ((x.chan c).writeOffset + BitVec.ofNat 32 (enqCount (x.chan c) data))) :
    ∃ t, exec (.enq c data) s = .next t ∧
      AnsweredOk s t cb y (s.callsOf (.enq c data)) (BitVec.ofNat 32 (enqCount (x.chan c) data)) ∧
      t.responses = s.responses
        ++ [{ code := .ok, result := BitVec.ofNat 32 (enqCount (x.chan c) data), payload := [] }] ∧ t.mem.wf ∧
      (y.chan c).contents t.mem = (x.chan c).contents s.mem ++ data.take (enqCount (x.chan c) data) := by
  obtain ⟨hmask, hocc⟩ := (x.chan c).wellFormed_iff.mp hw
  obtain ⟨u, hu, he⟩ :=
    exec_enq_returns ho (.inr hw) hret (Descriptor.segments_fits hmask hspace _ (enqCount_le_cap hocc data))
  rw [← hy] at he
  refine ⟨_, he, .of_callsMade ho (by simp [PortCall.done, Function.comp_def]) hu rfl _ [], ?_, hu.wf hs, ?_⟩
  · rw [← hu.sameBlock.responses]
    rfl
  rw [State.callsOf_enq ho.descriptors] at hu hq
  have hcap := Descriptor.cap_le hmask
  have hfree := enqCount_le_free (x.chan c) data
  rw [Descriptor.free_toNat hocc] at hfree
  rw [hy, Descriptors.chan_setOffset_same, Descriptor.contents_advanceWrite _ (by omega), State.respond_mem,
    hu.enq_contents hw hspace hs hq, hu.enq_appended hw hspace hs hq]

/-- Settles O34: the count is the payload's length cut to the free space. -/
theorem enqueueAppends : Obligations.EnqueueAppends := by
  intro s cb x c data ho hs hw hspace hret hq
  obtain ⟨t, he, ht, -, hwf, hcontents⟩ := exec_enq_appends ho hs hw hspace hret hq rfl
  refine ⟨t, _, he, ht.session.descriptors, hwf, hcontents.trans ?_⟩
  rw [Descriptor.contents_length, ← Descriptor.free_toNat ((x.chan c).wellFormed_iff.mp hw).2,
    List.take_eq_take_min (i := (x.chan c).free.toNat), enqCount, Nat.min_comm]

/-! ### DEQ takes the oldest -/

/-- While the target is silent PEEK and DEQ copy out the oldest bytes. -/
theorem CopiedOut.oldest {d : Descriptor} (hw : d.wellFormed = true) (hspace : d.inSpace) {n : Word} {s u : State}
    {bytes : List Byte} (h : CopiedOut s (peekSegments d n) bytes u) (hq : s.targetQuiet (peekSegments d n).readCalls.length) :
    bytes = (d.contents s.mem).take n.toNat := by
  obtain ⟨hmask, hocc⟩ := d.wellFormed_iff.mp hw
  have hcap := peekCount_le_cap hocc n
  have hbytes : bytes = d.bytesFrom d.readOffset (peekCount d n) s.mem := by
    rw [h.bytes_of_quiet hq, peekSegments_total]
    refine List.map_congr_left fun j hj => ?_
    rw [peekSegments, Descriptor.segments_byteAddr hmask hspace _ hcap (List.mem_range.mp hj)]
  rw [hbytes, List.take_eq_take_min, Descriptor.contents_length, ← peekCount, Descriptor.contents,
    d.bytesFrom_take _ (peekCount_le_occ d n)]

/-- Settles O35: both copy out the oldest bytes, and DEQ moves the read offset behind them. -/
theorem dequeueTakesOldest : Obligations.DequeueTakesOldest := by
  intro s cb x c maxLen ho hw hspace hret hq oldest answer
  obtain ⟨hmask, hocc⟩ := (x.chan c).wellFormed_iff.mp hw
  rw [s.callsOf_deq_eq_peek] at hret hq
  obtain ⟨bytes, u, hu, hpeek, hdeq⟩ := exec_peek_deq_return ho (.inr hw) hret
    (Descriptor.segments_fits hmask hspace _ (peekCount_le_cap hocc maxLen))
  rw [State.callsOf_peek ho.descriptors] at hq
  have hb := hu.sameBlock
  have hmem := hu.mem_of_quiet hq
  have hcount : peekCount (x.chan c) maxLen = oldest.length := by simp [oldest, peekCount]
  obtain rfl : bytes = oldest := hu.oldest hw hspace hq
  have hanswer : u.responses ++ [{ code := .ok, result := BitVec.ofNat 32 (peekCount (x.chan c) maxLen), payload := oldest }]
      = s.responses ++ [answer] := by rw [hb.responses, hcount]
  refine ⟨⟨_, _, hdeq, rfl, hmem, hanswer, ?_⟩, ⟨_, hpeek, hb.x, hmem, hanswer⟩⟩
  rw [Descriptors.chan_setOffset_same, Descriptor.contents_advanceRead _ (peekCount_le_occ ..), State.respond_mem, hmem,
    List.drop_eq_drop_min (i := maxLen.toNat), Descriptor.contents_length, peekCount]

/-! ### ENQ and then DEQ -/

/-- An empty channel has room for a capacity. -/
theorem enqCount_of_empty {d : Descriptor} (h : d.occ = 0) {data : List Byte} (hl : data.length ≤ d.cap.toNat) :
    enqCount d data = data.length := by
  rw [enqCount, Descriptor.free, h, sub_zero, Nat.min_eq_left hl]

/-- DEQ of what ENQ has put into an empty channel copies out of the segments ENQ has copied into. -/
theorem peekSegments_after_enq {d : Descriptor} (h : d.occ = 0) {data : List Byte} (hl : data.length ≤ d.cap.toNat) :
    peekSegments (d.setOffset (d.writeOffset + BitVec.ofNat 32 data.length) .w) (BitVec.ofNat 32 data.length)
      = enqSegments d data := by
  have hlen : (BitVec.ofNat 32 data.length).toNat = data.length := by
    rw [BitVec.toNat_ofNat, Nat.mod_eq_of_lt (by omega)]
  have hempty : d.writeOffset = d.readOffset := sub_eq_zero.mp h
  rw [peekSegments, peekCount, Descriptor.occ_advanceWrite, h, zero_add, hlen, Nat.min_self, Descriptor.segments_setOffset,
    enqSegments, enqCount_of_empty h hl, hempty]
  rfl

/-- DEQ of as many bytes as a well-formed channel holds answers them all and empties it. -/
theorem exec_deq_everything {s : State} {cb : Word} {x : Descriptors} (ho : s.Open cb x) {c : Channel}
    (hw : (x.chan c).wellFormed = true) (hspace : (x.chan c).inSpace) {n : Word}
    (hret : s.portReturns (s.callsOf (.deq c n)).length) (hq : s.targetQuiet (s.callsOf (.deq c n)).length)
    (hn : n = (x.chan c).occ) :
    ∃ t, exec (.deq c n) s = .next t ∧
      t.responses = s.responses ++ [{ code := .ok, result := n, payload := (x.chan c).contents s.mem }] ∧
      exec (.empty c) t = t.respondOk 1 [] := by
  obtain ⟨⟨t, y, he, hy, -, hresp, hcontents⟩, -⟩ := dequeueTakesOldest s cb x c n ho hw hspace hret hq
  obtain ⟨t', he', ht⟩ := exec_deq_answersOk ho hw hspace hret
  obtain rfl : t' = t := Host.Outcome.next.inj (he'.symm.trans he)
  obtain rfl := Option.some.inj (ht.session.descriptors.symm.trans hy)
  have hlen : ((x.chan c).contents s.mem).length = n.toNat := by rw [Descriptor.contents_length, hn]
  rw [List.take_of_length_le hlen.le, hlen, BitVec.ofNat_toNat, BitVec.setWidth_eq] at hresp
  refine ⟨t', he, hresp, ?_⟩
  have hempty := congrArg List.length hcontents
  rw [List.drop_of_length_le hlen.le, List.length_nil, Descriptor.contents_length] at hempty
  have hw' := Descriptor.wellFormed_deq hw n
  rw [← Descriptors.chan_setOffset_same x] at hw'
  rw [exec_empty_answers ht.session hw', (Descriptor.isEmpty_iff _).mpr (BitVec.eq_of_toNat_eq hempty)]
  rfl

/-- Settles O36: the channel holds exactly the data after ENQ, and DEQ takes it all. -/
theorem roundTrip : Obligations.RoundTrip := by
  intro s cb x c data ho hs hw hspace hret hq hempty hfits
  have hocc : (x.chan c).occ = 0 := sub_eq_zero.mpr hempty
  have hcount := enqCount_of_empty hocc hfits
  rw [Nat.two_mul] at hret hq
  obtain ⟨t, henq, ht, hresp, -, hcontents⟩ := exec_enq_appends ho hs hw hspace
    (State.portReturns_mono hret (Nat.le_add_right ..)) (State.targetQuiet_mono hq (Nat.le_add_right ..)) rfl
  rw [hcount] at ht hresp hcontents
  generalize hy : x.setOffset c .w ((x.chan c).writeOffset + BitVec.ofNat 32 data.length) = y at ht hcontents
  have hchan : y.chan c = (x.chan c).setOffset ((x.chan c).writeOffset + BitVec.ofNat 32 data.length) .w := by
    rw [← hy, Descriptors.chan_setOffset_same]
  have hwy : (y.chan c).wellFormed = true := by
    rw [hchan, ← hcount]
    exact Descriptor.wellFormed_enq hw data
  have hocc' : (y.chan c).occ = BitVec.ofNat 32 data.length := by
    rw [hchan, Descriptor.occ_advanceWrite, hocc, zero_add]
  have hcalls : (t.callsOf (.deq c (BitVec.ofNat 32 data.length))).length = (s.callsOf (.enq c data)).length := by
    rw [State.callsOf_deq ht.session.descriptors, State.callsOf_enq ho.descriptors, hchan,
      peekSegments_after_enq hocc hfits, Segments.length_writeCalls]
  have hdata : (y.chan c).contents t.mem = data := by
    rw [hcontents, List.take_length, List.eq_nil_of_length_eq_zero (l := (x.chan c).contents s.mem) (by simp [hocc]),
      List.nil_append]
  obtain ⟨u, hdeq, hresp', hanswer⟩ := exec_deq_everything ht.session hwy (by rw [hchan]; exact hspace)
    (hcalls ▸ State.portReturns_of_drop hret ht.port) (hcalls ▸ State.targetQuiet_of_drop hq ht.port) hocc'.symm
  refine ⟨t, u, henq, hdeq, ?_, hanswer⟩
  rw [hresp', hresp, hdata, List.append_assoc]
  rfl

/-! ### PEEK again -/

/-- PEEK that answered OK has answered what its calls read. -/
theorem exec_peek_of_ok {s t : State} {c : Channel} {n v : Word} {p : List Byte} (h : exec (.peek c n) s = .next t)
    (hr : t.responses = s.responses ++ [{ code := .ok, result := v, payload := p }]) :
    ∃ x u, s.x = some x ∧ CopiedOut s (peekSegments (x.chan c) n) p u ∧ t = u.respond .ok v p := by
  rw [exec, execPeek] at h
  rcases State.whenChannel_next h with ⟨-, rfl⟩ | ⟨-, x, hx, h⟩
  · simp at hr
  rcases Call.finish_next h with ⟨bytes, u, hu, h⟩ | ⟨prim, addr, u, hu, rfl⟩ | ⟨u, hu, rfl⟩ | ⟨u, hu, rfl⟩
  · have hcopied := copyOut_copiedOut hu
    cases h
    obtain ⟨rfl, rfl⟩ : _ = v ∧ bytes = p := by simpa [hcopied.sameBlock.responses] using hr
    exact ⟨x, u, hx, hcopied, rfl⟩
  all_goals
    have hb := copyOut_sameBlock ((x.chan c).segments (x.chan c).readOffset (peekCount (x.chan c) n)) s
    rw [hu] at hb
    simp [SameBlock.responses hb] at hr

/-- Settles O37: the segments of the shorter copy are the head of the longer one's. -/
theorem peekRepeats : Obligations.PeekRepeats := by
  intro s t u c m n hq hmn hst htu v w a b ha hb
  obtain ⟨x, t', hx, hm, rfl⟩ := exec_peek_of_ok hst ha
  obtain ⟨x', u', hx', hn, rfl⟩ := exec_peek_of_ok htu hb
  obtain rfl : x' = x := Option.some.inj (hx'.symm.trans (hm.sameBlock.x.trans hx))
  rw [State.callsOf_peek hx, State.callsOf_peek hx] at hq
  have hqm := State.targetQuiet_mono hq (Nat.le_add_right ..)
  have hbytesm := hm.bytes_of_quiet hqm
  have hbytesn := hn.bytes_of_quiet (State.targetQuiet_of_drop hq hm.port)
  rw [State.respond_mem, hm.mem_of_quiet hqm] at hbytesn
  have hle : peekCount (x'.chan c) m ≤ peekCount (x'.chan c) n := min_le_min_right _ hmn
  constructor
  · rw [hm.length, hbytesm, hbytesn, ← List.map_take, List.take_range]
    simp only [peekSegments, Descriptor.segments_total, Nat.min_eq_left hle]
    refine List.map_congr_left fun j hj => ?_
    rw [Descriptor.segments_byteAddr_of_le _ _ hle (List.mem_range.mp hj)]
  · rintro rfl
    rw [hbytesm, hbytesn]

end Sys2Proof.Machine
end

section
/-!
Refusals and the TransportError (`60_exceptions.md`): what an illegal word and a command the state does not accept are answered
(R163, R164), what the entry of a TransportError records, that Faulted is entered in no other way (R165 to R168), and what a
command can do in it (R172, R173).
-/

namespace Sys2Proof.Machine

/-! ### An illegal word (R163) -/

/-- A word that is not one of R97 does not decode, whatever ARG and PAYLOAD are. -/
theorem decode_error_of_illegal {c : Command} (h : c.cmd.toNat ∉ legalWords) : ∃ r, decode c = .error r := by
  obtain ⟨-, -, hlegal⟩ := legalCommandWords
  cases hd : decode c with
  | error r => exact ⟨r, rfl⟩
  | ok i => exact absurd ((hlegal c.cmd c.arg c.payload).mp ⟨i, hd⟩) h

/-- Settles O8: the word does not decode, so the command port answers. -/
theorem illegalWordRefused : Obligations.IllegalWordRefused := by
  intro s c rest hf hi hw
  obtain ⟨r, hd⟩ := decode_error_of_illegal hw
  simp only [step, State.fetch, hf, hi, State.accept, hd]
  rfl

/-! ### The table of R164 -/

theorem State.readReg_of_not_accepts {s : State} {r : Reg} (h : s.accepts (.rdr r) = false) : s.readReg r = none := by
  cases r with
  | desc c k => exact if_neg (Bool.eq_false_iff.mp h)
  | cbAddr => exact if_pos (by simpa [State.accepts] using h)
  | status => cases h
  | fcmd | faddr => exact if_neg (beq_eq_false_iff_ne.mp h)

theorem State.whenSync_refused {s : State} (h : s.status.session ≠ .active)
    (k : Word → Descriptors → Host.Outcome State Fault Refusal) : s.whenSync k = s.refuseBadState := if_neg h

/-- A command the state does not accept is refused, in every state. -/
theorem exec_of_not_accepts {s : State} {i : Instr} (h : s.accepts i = false) : exec i s = s.refuseBadState := by
  cases i with
  | openSession a => exact execOpen_refused a (beq_eq_false_iff_ne.mp h)
  | closeSession => cases h
  | rdr r => exact exec_rdr_of_none (State.readReg_of_not_accepts h)
  | rfsh c f | pub c f => exact State.whenSync_refused (beq_eq_false_iff_ne.mp h) _
  | empty c | occ c | free c | full c => exact exec_query_refused (c := c) (by simp) (beq_eq_false_iff_ne.mp h)
  | enq c _ | peek c _ | deq c _ =>
    unfold exec
    exact State.whenChannel_refused (c := c) (.inl (beq_eq_false_iff_ne.mp h)) _

/-- Under the invariant the registers an accepted command reads hold values, so it is not refused. -/
theorem ExecEnd.not_badState {i : Instr} {s t : State} (h : ExecEnd i s t) (hs : s.Inv) (hf : s.inFlight = none)
    (ha : s.accepts i = true) (v : Word) (p : List Byte) :
    t.responses ≠ s.responses ++ [{ code := .badState, result := v, payload := p }] := by
  cases h with
  | refused h => simp [h hs hf] at ha
  | answered _ _ _ => simp
  | closed _ => simp
  | opened a bytes u h ha hu => simp [hu.sameBlock.responses]
  | completed x y v p es u ha hx hc he hu => simp [hu.sameBlock.responses]
  | faulted es k rest u ha hi he hu hc hp => simp [hu.sameBlock.responses]
  | cut es k rest u ha he hu hc hp => simp [hu.sameBlock.responses]
  | hung es k rest u ha hi hl he hu hc hp => simp [hu.sameBlock.responses]

/-- Settles O16: `exec_of_not_accepts` and `ExecEnd.not_badState`. -/
theorem badStateTable : Obligations.BadStateTable :=
  fun _ _ => ⟨exec_of_not_accepts, fun hs hf ha _ h => (execEnd_of_next h).not_badState hs hf ha⟩

/-! ### The entry of a TransportError (R166 to R168) -/

/-- In `t` the command `i`, begun in `s`, has entered the TransportError of its call `k`, after the calls recorded in `es`: the
record names that call and the command, and nothing else is written. -/
structure FaultEntered (i : Instr) (s : State) (es : List PortEvent) (k : PortCall) (t : State) : Prop where
  trace : t.trace = s.trace ++ es ++ [{ call := k, answer := .failed }]
  status : t.status = { session := .faulted, dvalid := s.status.dvalid, fprim := some k.prim }
  fcmd : t.fcmd = some i.cmdWord
  faddr : t.faddr = some k.addr
  x : t.x = s.x
  cbAddr : t.cbAddr = (s.begun i).cbAddr
  inFlight : t.inFlight = s.inFlight
  cfg : t.cfg = s.cfg
  inputs : t.inputs = s.inputs
  responses : t.responses = s.responses ++ [{ code := .transportError, result := k.addr, payload := [] }]

theorem CallsMade.faultEntered {i : Instr} {s u : State} {es : List PortEvent} (hu : CallsMade (s.begun i) es u)
    (k : PortCall) :
    FaultEntered i s es k ((u.afterCall k false .failed).raiseTransportError i.cmdWord k.prim k.addr) where
  trace := by simp [hu.trace]
  status := by simp [hu.sameBlock.status]
  fcmd := rfl
  faddr := rfl
  x := hu.sameBlock.x.trans (s.begun_x i)
  cbAddr := hu.sameBlock.cbAddr
  inFlight := hu.sameBlock.inFlight.trans (s.begun_inFlight i)
  cfg := hu.sameBlock.cfg.trans (s.begun_cfg i)
  inputs := hu.sameBlock.inputs.trans (s.begun_inputs i)
  responses := by simp [hu.sameBlock.responses]

/-- A command whose calls return up to one that fails enters the TransportError of that call. -/
theorem exec_faultEntered {s : State} {i : Instr} {before : List PortCall} {k : PortCall} {rest : List PortCall} {p : PortPlan}
    (ha : s.accepts i = true) (hr : s.channelRuns i) (hc : s.callsOf i = before ++ k :: rest)
    (hfit : ∀ q ∈ before ++ [k], q.addr.toNat + q.length ≤ 2 ^ 32) (hret : s.portReturns before.length)
    (hp : s.port[before.length]? = some p) (ho : p.outcome = .fails) :
    ∃ es t, exec i s = .next t ∧ es.map PortEvent.call = before ∧ FaultEntered i s es k t := by
  obtain ⟨α, c, l, es, u, he, hes, hu, hf⟩ :=
    exec_reaches_call ha hr hc (fun q hq => hfit q (List.mem_append_left _ hq)) hret
  have hplan : u.plan = p := hu.plan_eq (by simpa using congrArg List.length hes) (by rwa [s.begun_port])
  have hk := k.crossesTop_eq_false_iff.mpr (hfit k (by simp))
  rw [portCall_failed _ _ _ _ hk (hplan ▸ ho), Call.bind] at hf
  rw [Call.finish_eq_forget (by simp [hf]) i l fun _ t => .next t, hf] at he
  exact ⟨es, _, he, hes, hu.faultEntered k⟩

/-- Settles O47: the command gets as far as the failing call, and enters its TransportError from the state `State.begun`, in which
only OPEN has written CB_ADDR. -/
theorem failedCallEntersFault : Obligations.FailedCallEntersFault := by
  intro s i before k rest p ha hr hc hfit hret hp ho
  obtain ⟨es, t, he, rfl, h⟩ := exec_faultEntered ha hr hc hfit hret hp ho
  refine ⟨t, he, ?_, by simp [h.trace], h.status, h.fcmd, h.faddr, h.x, fun hi => ?_, fun a hi => ?_, h.inFlight, h.cfg,
    h.inputs, h.responses⟩
  · simp [State.callsMade, h.trace]
  · rw [h.cbAddr, s.begun_cbAddr i hi]
  · rw [h.cbAddr, hi, State.begun]

/-- Of the ends of a command only a failed call takes the session into Faulted. -/
theorem ExecEnd.faultEntered {i : Instr} {s t : State} (h : ExecEnd i s t) (hs : s.status.session ≠ .faulted)
    (ht : t.status.session = .faulted) :
    ∃ es k rest, es.map PortEvent.call ++ k :: rest = s.callsOf i ∧ FaultEntered i s es k t := by
  cases h with
  | refused _ => exact absurd ht hs
  | answered _ _ _ => exact absurd ht hs
  | closed _ => cases ht
  | opened a bytes u h ha hu => cases ht
  | completed x y v p es u ha hx hc he hu => exact absurd ((congrArg Status.session hu.sameBlock.status).symm.trans ht) hs
  | faulted es k rest v ha hi he hv hc hp => exact ⟨es, k, rest, he, hv.faultEntered k⟩
  | cut es k rest v ha he hv hc hp => cases ht
  | hung es k rest v ha hi hl he hv hc hp =>
    have hst := hv.sameBlock.status.trans (s.begun_status i)
    exact absurd ((congrArg Status.session hst).symm.trans ht) hs

/-- Settles O48: the record is that of `ExecEnd.faultEntered`. -/
theorem faultIsPrecise : Obligations.FaultIsPrecise := by
  intro s t i he hs ht
  obtain ⟨es, k, rest, hcalls, h⟩ := (execEnd_of_next he).faultEntered hs ht
  exact ⟨k, by simp [← hcalls], ⟨es, h.trace⟩, by rw [h.status], by rw [h.status], h.fcmd, h.faddr, h.x, h.responses⟩

/-! ### While Faulted (R172, R173) -/

/-- R164, R173: in Faulted no command with port calls is accepted. -/
theorem State.not_faulted_of_call {s : State} {i : Instr} {k : PortCall} (ha : s.accepts i = true) (hk : k ∈ s.callsOf i) :
    s.status.session ≠ .faulted := by
  by_cases ho : ∃ a, i = .openSession a
  · obtain ⟨a, rfl⟩ := ho
    simp [State.session_of_accepts_open ha]
  · have hact : s.status.session = .active := by
      rcases State.transfer_or_sync_of_call hk (not_exists.mp ho) with
        ⟨_, _, rfl⟩ | ⟨_, _, rfl⟩ | ⟨_, _, rfl⟩ | ⟨_, _, rfl⟩ | ⟨_, _, rfl⟩ <;> exact eq_of_beq ha
    simp [hact]

/-- In Faulted a command other than CLOSE does nothing but respond. -/
theorem ExecEnd.responds_of_faulted {i : Instr} {s t : State} (h : ExecEnd i s t) (hs : s.status.session = .faulted)
    (hi : i ≠ .closeSession) : ∃ code v p, t = s.respond code v p := by
  have noCall {es : List PortEvent} {k : PortCall} {rest : List PortCall} (ha : s.accepts i = true)
      (he : es.map PortEvent.call ++ k :: rest = s.callsOf i) : False :=
    State.not_faulted_of_call (k := k) ha (by simp [← he]) hs
  cases h with
  | refused _ => exact ⟨_, _, _, rfl⟩
  | answered _ _ _ => exact ⟨_, _, _, rfl⟩
  | closed h => exact absurd h hi
  | opened a bytes u h ha hu => subst h; simp [State.accepts, hs] at ha
  | completed x y v p es u ha hx hc he hu => simp [hs] at ha
  | faulted es k rest v ha hi he hv hc hp => exact (noCall ha he).elim
  | cut es k rest v ha he hv hc hp => exact (noCall ha he).elim
  | hung es k rest v ha hi hl he hv hc hp => exact (noCall ha he).elim

/-- Settles O49: CLOSE discards the registers, any other command only responds. -/
theorem faultedNeverNests : Obligations.FaultedNeverNests := by
  intro s t i hs he
  split
  next hi =>
    subst hi
    cases he
    exact ⟨rfl, rfl, rfl⟩
  next hi =>
    obtain ⟨code, v, p, rfl⟩ := (execEnd_of_next he).responds_of_faulted hs hi
    exact ⟨rfl, rfl, rfl⟩

end Sys2Proof.Machine
end

section
/-!
Reset during a port call (`70_reset_and_hazards.md` R190, `93_implementation_defined.md` U8): the command ends there, and the block
is left as `State.resetBlock` leaves it after the call that was cut off.
-/

namespace Sys2Proof.Machine

theorem portCall_cutByReset {α : Type} {c : PortCall} (ans : PortAnswer) (v : α) {s : State} (hc : c.crossesTop = false)
    (h : s.plan.outcome = .resetInCall) : portCall c ans v s = .cutByReset (s.afterCall c false .noReturn) := by
  simp [portCall, hc, PortPlan.verdict, h]

/-- A command whose calls return up to one in which the block is reset ends in the reset of the state after that call. -/
theorem exec_cutByReset {s : State} {i : Instr} {before : List PortCall} {k : PortCall} {rest : List PortCall} {p : PortPlan}
    (ha : s.accepts i = true) (hr : s.channelRuns i) (hc : s.callsOf i = before ++ k :: rest)
    (hfit : ∀ q ∈ before ++ [k], q.addr.toNat + q.length ≤ 2 ^ 32) (hret : s.portReturns before.length)
    (hp : s.port[before.length]? = some p) (ho : p.outcome = .resetInCall) :
    ∃ es u, exec i s = .next (u.afterCall k false .noReturn).resetBlock ∧ es.map PortEvent.call = before ∧
      CallsMade (s.begun i) es u := by
  obtain ⟨α, c, l, es, u, he, hes, hu, hf⟩ :=
    exec_reaches_call ha hr hc (fun q hq => hfit q (List.mem_append_left _ hq)) hret
  have hplan : u.plan = p := hu.plan_eq (by simpa using congrArg List.length hes) (by rwa [s.begun_port])
  have hk := k.crossesTop_eq_false_iff.mpr (hfit k (by simp))
  rw [portCall_cutByReset _ _ hk (hplan ▸ ho), Call.bind] at hf
  rw [Call.finish_eq_forget (by simp [hf]) i l fun _ t => .next t, hf] at he
  exact ⟨es, u, he, hes, hu⟩

/-- Settles O53: reset discards the registers and answers nothing, and the calls recorded are those up to the one cut off. -/
theorem resetInCallAbandons : Obligations.ResetInCallAbandons := by
  intro s i before k rest p ha hr hc hfit hret hp ho
  obtain ⟨es, u, he, rfl, hu⟩ := exec_cutByReset ha hr hc hfit hret hp ho
  refine ⟨_, he, rfl, rfl, ?_, ?_, ?_⟩
  · exact hu.sameBlock.responses.trans (s.begun_responses i)
  · simp [State.callsMade, hu.trace]
  · simp

end Sys2Proof.Machine
end
